-- ==== Sys2Proof/Word.lean ====
section
/-! DEFINITION. The machine's units of data: byte, word, doubleword (00_scope.md R8). -/

namespace Sys2Proof

/-- The smallest addressable unit (10_state.md R24: addresses are byte addresses). -/
abbrev Byte := BitVec 8

/-- 32 bits = 4 bytes; also one instruction (00_scope.md R8). -/
abbrev Word := BitVec 32

/-- 64 bits = 8 bytes: an FPR, and the widest general register (00_scope.md R8). -/
abbrev Dword := BitVec 64

end Sys2Proof
end

