-- ==== Sys2Proof/Config.lean ====
section
/-! DEFINITION. What an implementation fixes (the OPEN parameters of 00_scope.md R8) and the free values that stand
for what the spec calls undefined (00_scope.md R18, 93_implementation_defined.md section U). -/

namespace Sys2Proof

/-- `XLEN`, the width of a general register and of an address: OPEN, 32 or 64 (00_scope.md R8, 92 D5). -/
inductive Xlen where
  | x32
  | x64
  deriving DecidableEq, Repr

/-- The OPEN parameters of the model (00_scope.md R8, 41_frsp.md R145). A launch state fixes them (70 R281(e)), so
they stand in `State`, where no step changes them; every statement about all states is about all their values. -/
structure Params where
  /-- `XLEN` -/
  xlen : Xlen
  /-- `HAS_FP64INT`: the doubleword conversions `fctid`, `fctidz`, `fcfid` exist -/
  hasFp64Int : Bool
  /-- `FRSP_OVF_FR_DRAW`: FR is undefined after a disabled overflow of `frsp` -/
  frspOvfFrDraw : Bool
  deriving DecidableEq, Repr

namespace Config

/-- The parameters of the state after reset. DESIGN CHOICE, unsafe [log 4]: the spec leaves all three open. -/
def resetParams : Params := { xlen := .x64, hasFp64Int := true, frspOvfFrDraw := true }

/-! ### Free values

Each is a constant without a body, applied to the draw counter of `State`: nothing can evaluate it, and a statement
proved of it holds whatever the value is [log 11]. -/

/-- `undefined(5)`: FPRF after the conversions to integer (U1), `fsub` and `fcmpu` (U8). -/
opaque freeFprf : Nat → BitVec 5

/-- `undefined(32)`: `FRT[0:31]` after `fctiw` and `fctiwz` (U2). -/
opaque freeHighWord : Nat → Word

/-- FR after `fsub` (U8), and after a disabled overflow of `frsp` when `FRSP_OVF_FR_DRAW` (U3). -/
opaque freeFr : Nat → Bool

/-- FI after `fsub` (U8). -/
opaque freeFi : Nat → Bool

/-- Whether `frsp` of an infinity clears FR and FI or leaves both (U4). -/
opaque freeClearsFrFi : Nat → Bool

/-- Whether an inexact `fsub` sets XX (U8, 92 D22). -/
opaque freeSetsXx : Nat → Bool

/-- Whether an `fsub` whose exact difference is too large sets OX (U8, 92 D22). -/
opaque freeSetsOx : Nat → Bool

/-- Whether an `fsub` whose exact difference is below the normal range sets UX (U8, 92 D22). -/
opaque freeSetsUx : Nat → Bool

end Config

end Sys2Proof
end

