-- ==== Sys2Proof/Syntax.lean ====
section
/-! DEFINITION. The instructions: one constructor for each row of spec/opcode_table.json, in the table's order, with
the operands of 30_encoding.md R72, R73 in the order the assembler writes them (R78). The fields the spec fixes (Rc,
OE, AA, LK, BO, reserved fields) are no operands: only their one admitted value is an instruction (R77). -/

namespace Sys2Proof

/-- A floating-point register number (10_state.md R20). -/
abbrev FReg := Fin 32

/-- A general register number (10_state.md R23). -/
abbrev GReg := Fin 32

/-- A condition-register field number (10_state.md R25). -/
abbrev CrIdx := Fin 8

/-- The fifteen instructions (30_encoding.md R75). `d` is the displacement field D and `bd` the branch displacement
field BD, in words, both two's complement (R73, R74). -/
inductive Instr where
  | frsp (frt frb : FReg)
  | fctiw (frt frb : FReg)
  | fctiwz (frt frb : FReg)
  | fctid (frt frb : FReg)
  | fctidz (frt frb : FReg)
  | fcfid (frt frb : FReg)
  | fmr (frt frb : FReg)
  | fcmpu (bf : CrIdx) (fra frb : FReg)
  | fsub (frt fra frb : FReg)
  | add (rt ra rb : GReg)
  | stfd (frs : FReg) (d : BitVec 16) (ra : GReg)
  | lwz (rt : GReg) (d : BitVec 16) (ra : GReg)
  | bl (crn : CrIdx) (bd : BitVec 14)
  | bgt (crn : CrIdx) (bd : BitVec 14)
  | bnl (crn : CrIdx) (bd : BitVec 14)
  deriving DecidableEq, Repr

end Sys2Proof
end

