-- ==== Sys2Proof/WellFormed.lean ====
section
/-! DEFINITION. Which instructions exist under given parameters. Register numbers and immediates cannot be out of
range (their types are exact), so the one check is the presence of the doubleword conversions: `fctid`, `fctidz` and
`fcfid` are "Present only when the parameter `HAS_FP64INT` is true" (42_fcti.md R197, R198; 43_fcfid.md R220). -/

namespace Sys2Proof

/-- The instruction exists on an implementation with these parameters. -/
def Instr.wf (p : Params) : Instr → Bool
  | .frsp _ _ => true
  | .fctiw _ _ => true
  | .fctiwz _ _ => true
  | .fctid _ _ => p.hasFp64Int
  | .fctidz _ _ => p.hasFp64Int
  | .fcfid _ _ => p.hasFp64Int
  | .fmr _ _ => true
  | .fcmpu _ _ _ => true
  | .fsub _ _ _ => true
  | .add _ _ _ => true
  | .stfd _ _ _ => true
  | .lwz _ _ _ => true
  | .bl _ _ => true
  | .bgt _ _ => true
  | .bnl _ _ => true

end Sys2Proof
end

