-- ==== Sys2Proof/Decode.lean ====
section
/-! DEFINITION. From bytes to an instruction or a named rejection, and back. The formats, fields and selecting values
are those of 30_encoding.md R72 to R75; every word outside the table and every refused variant is rejected by name
(R76, R77). The encodings are the spec's general knowledge (R70; 93 G3) [log 21]. -/

namespace Sys2Proof

/-- Bits `first` to `first + n - 1` of `v`, bit 0 the most significant (00_scope.md R9, R10). -/
def msbSlice {w : Nat} (v : BitVec w) (first n : Nat) : BitVec n :=
  v.extractLsb' (w - first - n) n

/-- Why a word, or a run of bytes, is no instruction of the table (30_encoding.md R76, R77). -/
inductive Reject where
  /-- fewer than four bytes (every instruction is 4 bytes long, R71) -/
  | truncated
  /-- OPCD is none of 16, 31, 32, 54, 63 -/
  | unknownOpcode
  /-- OPCD 63 or 31 with an extended opcode the table does not list -/
  | unknownXo
  /-- Rc = 1 -/
  | recordForm
  /-- OE = 1 of `add` -/
  | overflowForm
  /-- a reserved field that is not 0 -/
  | reservedField
  /-- AA = 1 -/
  | absoluteForm
  /-- LK = 1 -/
  | linkForm
  /-- a BO value other than the two listed -/
  | branchOptions
  /-- a BI that selects a bit the table pairs with no branch under that BO -/
  | branchCondition
  /-- a doubleword conversion when `HAS_FP64INT` is false (93 U9) -/
  | absentInstruction
  deriving DecidableEq, Repr

/-- The decoder's answer. -/
inductive Decoded where
  | instr (i : Instr)
  | refused (why : Reject)
  deriving DecidableEq, Repr

/-! ### Decoding -/

/-- A five-bit register field that starts at bit `first` (30_encoding.md R73). -/
def regField (w : Word) (first : Nat) : Fin 32 :=
  ⟨(msbSlice w first 5).toNat, (msbSlice w first 5).isLt⟩

/-- A three-bit condition-register field number that starts at bit `first` (30_encoding.md R73). -/
def crField (w : Word) (first : Nat) : CrIdx :=
  ⟨(msbSlice w first 3).toNat, (msbSlice w first 3).isLt⟩

/-- The floating unary X form: bits 11:15 reserved 0, Rc = 0 (30_encoding.md R72, R77). -/
def decodeUnary (w : Word) (make : FReg → FReg → Instr) : Decoded :=
  if msbSlice w 31 1 = 1#1 then .refused .recordForm
  else if msbSlice w 11 5 ≠ 0 then .refused .reservedField
  else .instr (make (regField w 6) (regField w 16))

/-- A floating unary X form that exists only when `HAS_FP64INT` (42_fcti.md R197, R198; 43_fcfid.md R220). -/
def decodeFp64 (hasFp64Int : Bool) (w : Word) (make : FReg → FReg → Instr) : Decoded :=
  if hasFp64Int then decodeUnary w make else .refused .absentInstruction

/-- `fcmpu`: bits 9:10 and 31 reserved 0 (30_encoding.md R72). -/
def decodeFcmpu (w : Word) : Decoded :=
  if msbSlice w 9 2 ≠ 0 then .refused .reservedField
  else if msbSlice w 31 1 = 1#1 then .refused .reservedField
  else .instr (.fcmpu (crField w 6) (regField w 11) (regField w 16))

/-- `fsub`: FRC (bits 21:25) reserved 0, Rc = 0 (30_encoding.md R72). -/
def decodeFsub (w : Word) : Decoded :=
  if msbSlice w 31 1 = 1#1 then .refused .recordForm
  else if msbSlice w 21 5 ≠ 0 then .refused .reservedField
  else .instr (.fsub (regField w 6) (regField w 11) (regField w 16))

/-- OPCD = 63: the ten-bit XO in bits 21:30, or the A form's five-bit XO in bits 26:30 (30_encoding.md R75). -/
def decodeFloat (hasFp64Int : Bool) (w : Word) : Decoded :=
  let xo := msbSlice w 21 10
  if xo = 12#10 then decodeUnary w .frsp
  else if xo = 14#10 then decodeUnary w .fctiw
  else if xo = 15#10 then decodeUnary w .fctiwz
  else if xo = 814#10 then decodeFp64 hasFp64Int w .fctid
  else if xo = 815#10 then decodeFp64 hasFp64Int w .fctidz
  else if xo = 846#10 then decodeFp64 hasFp64Int w .fcfid
  else if xo = 72#10 then decodeUnary w .fmr
  else if xo = 0#10 then decodeFcmpu w
  else if msbSlice w 26 5 = 20#5 then decodeFsub w
  else .refused .unknownXo

/-- OPCD = 31: `add`, the nine-bit XO in bits 22:30, OE in bit 21, Rc in bit 31 (30_encoding.md R75). -/
def decodeInteger (w : Word) : Decoded :=
  if msbSlice w 22 9 ≠ 266#9 then .refused .unknownXo
  else if msbSlice w 21 1 = 1#1 then .refused .overflowForm
  else if msbSlice w 31 1 = 1#1 then .refused .recordForm
  else .instr (.add (regField w 6) (regField w 11) (regField w 16))

/-- OPCD = 16: the three conditional branches; BI = 4 x field + bit (30_encoding.md R73, R75). -/
def decodeBranch (w : Word) : Decoded :=
  let bo := msbSlice w 6 5
  let crn := crField w 11
  let bit := msbSlice w 14 2
  let bd := msbSlice w 16 14
  if msbSlice w 30 1 = 1#1 then .refused .absoluteForm
  else if msbSlice w 31 1 = 1#1 then .refused .linkForm
  else if bo = 0b01100#5 then
    if bit = 0#2 then .instr (.bl crn bd)
    else if bit = 1#2 then .instr (.bgt crn bd)
    else .refused .branchCondition
  else if bo = 0b00100#5 then
    if bit = 0#2 then .instr (.bnl crn bd) else .refused .branchCondition
  else .refused .branchOptions

/-- The decoder, total on every 32-bit word (30_encoding.md R76). -/
def decodeWord (hasFp64Int : Bool) (w : Word) : Decoded :=
  let opcd := msbSlice w 0 6
  if opcd = 63#6 then decodeFloat hasFp64Int w
  else if opcd = 31#6 then decodeInteger w
  else if opcd = 54#6 then .instr (.stfd (regField w 6) (msbSlice w 16 16) (regField w 11))
  else if opcd = 32#6 then .instr (.lwz (regField w 6) (msbSlice w 16 16) (regField w 11))
  else if opcd = 16#6 then decodeBranch w
  else .refused .unknownOpcode

/-- The word whose most significant byte is the first: byte order of an instruction word (20_memory.md R51). -/
def wordOfBytes (b0 b1 b2 b3 : Byte) : Word := b0 ++ b1 ++ b2 ++ b3

/-- The four bytes of a word, the most significant first (20_memory.md R51). -/
def wordBytes (w : Word) : List Byte :=
  [msbSlice w 0 8, msbSlice w 8 8, msbSlice w 16 8, msbSlice w 24 8]

/-- Decode the instruction at the head of a run of bytes: its answer, and the bytes after it. -/
def decodeBytes (hasFp64Int : Bool) : List Byte → Decoded × List Byte
  | b0 :: b1 :: b2 :: b3 :: rest => (decodeWord hasFp64Int (wordOfBytes b0 b1 b2 b3), rest)
  | short => (.refused .truncated, short)

/-- The host's question: what does the decoder read from the row's word (bit 0 least significant)? The word is laid
out big-endian and given to the decoder; bits from `nbits` up are 0. The parameters are those of reset. -/
def decodeTableWord (nbits w : Nat) : Option Instr :=
  if nbits ≤ 32 then
    match decodeBytes Config.resetParams.hasFp64Int (wordBytes (BitVec.ofNat 32 (w % 2 ^ nbits))) with
    | (.instr i, _) => some i
    | (.refused _, _) => none
  else none

/-! ### Encoding -/

/-- A register number as its five-bit field. -/
def reg5 (r : Fin 32) : BitVec 5 := BitVec.ofNat 5 r.val

/-- A condition-register field number as its three-bit field. -/
def cr3 (n : CrIdx) : BitVec 3 := BitVec.ofNat 3 n.val

/-- A field of an instruction word that starts at bit `first`, every other bit 0 (30_encoding.md R72). -/
def place {n : Nat} (field : BitVec n) (first : Nat) : Word := field.setWidth 32 <<< (32 - first - n)

/-- Floating unary X form: OPCD = 63, FRT, FRB, XO; bits 11:15 and Rc are 0 (30_encoding.md R72). -/
def encodeUnary (xo : BitVec 10) (frt frb : FReg) : Word :=
  place 63#6 0 ||| place (reg5 frt) 6 ||| place (reg5 frb) 16 ||| place xo 21

/-- D form: OPCD, FRS or RT, RA, D (30_encoding.md R72). -/
def encodeD (opcd : BitVec 6) (r ra : Fin 32) (d : BitVec 16) : Word :=
  place opcd 0 ||| place (reg5 r) 6 ||| place (reg5 ra) 11 ||| place d 16

/-- B form: OPCD = 16, BO, BI = field and bit, BD; AA and LK are 0 (30_encoding.md R72). -/
def encodeB (bo : BitVec 5) (crn : CrIdx) (bit : BitVec 2) (bd : BitVec 14) : Word :=
  place 16#6 0 ||| place bo 6 ||| place (cr3 crn) 11 ||| place bit 14 ||| place bd 16

/-- The word of an instruction (30_encoding.md R72, R75). -/
def encode : Instr → Word
  | .frsp frt frb => encodeUnary 12#10 frt frb
  | .fctiw frt frb => encodeUnary 14#10 frt frb
  | .fctiwz frt frb => encodeUnary 15#10 frt frb
  | .fctid frt frb => encodeUnary 814#10 frt frb
  | .fctidz frt frb => encodeUnary 815#10 frt frb
  | .fcfid frt frb => encodeUnary 846#10 frt frb
  | .fmr frt frb => encodeUnary 72#10 frt frb
  | .fcmpu bf fra frb =>
    place 63#6 0 ||| place (cr3 bf) 6 ||| place (reg5 fra) 11 ||| place (reg5 frb) 16 ||| place 0#10 21
  | .fsub frt fra frb =>
    place 63#6 0 ||| place (reg5 frt) 6 ||| place (reg5 fra) 11 ||| place (reg5 frb) 16 ||| place 20#5 26
  | .add rt ra rb =>
    place 31#6 0 ||| place (reg5 rt) 6 ||| place (reg5 ra) 11 ||| place (reg5 rb) 16 ||| place 266#9 22
  | .stfd frs d ra => encodeD 54#6 frs ra d
  | .lwz rt d ra => encodeD 32#6 rt ra d
  | .bl crn bd => encodeB 0b01100#5 crn 0#2 bd
  | .bgt crn bd => encodeB 0b01100#5 crn 1#2 bd
  | .bnl crn bd => encodeB 0b00100#5 crn 0#2 bd

/-! ### The opcode table -/

/-- One row of spec/opcode_table.json: a word is the row's instruction when `w &&& mask = value`. -/
structure OpcodeRow where
  mnemonic : String
  value : Word
  mask : Word
  deriving DecidableEq, Repr

/-- spec/opcode_table.json, row by row (its "match" and "mask" words). -/
def opcodeTable : List OpcodeRow :=
  [⟨"frsp", 0xFC000018#32, 0xFC1F07FF#32⟩, ⟨"fctiw", 0xFC00001C#32, 0xFC1F07FF#32⟩,
   ⟨"fctiwz", 0xFC00001E#32, 0xFC1F07FF#32⟩, ⟨"fctid", 0xFC00065C#32, 0xFC1F07FF#32⟩,
   ⟨"fctidz", 0xFC00065E#32, 0xFC1F07FF#32⟩, ⟨"fcfid", 0xFC00069C#32, 0xFC1F07FF#32⟩,
   ⟨"fmr", 0xFC000090#32, 0xFC1F07FF#32⟩, ⟨"fcmpu", 0xFC000000#32, 0xFC6007FF#32⟩] ++
  [⟨"fsub", 0xFC000028#32, 0xFC0007FF#32⟩, ⟨"add", 0x7C000214#32, 0xFC0007FF#32⟩,
   ⟨"stfd", 0xD8000000#32, 0xFC000000#32⟩, ⟨"lwz", 0x80000000#32, 0xFC000000#32⟩,
   ⟨"bl", 0x41800000#32, 0xFFE30003#32⟩, ⟨"bgt", 0x41810000#32, 0xFFE30003#32⟩,
   ⟨"bnl", 0x40800000#32, 0xFFE30003#32⟩]

end Sys2Proof
end

