-- ==== Sys2Proof/Machine/State.lean ====
section
/-! DEFINITION. The state of the machine, the reasons a step stops, and the state after reset
(10_state.md R20 to R35; 60_exceptions.md R253; 70_reset_and_hazards.md R281). -/

namespace Sys2Proof.Machine

/-- A condition-register field (10_state.md R25). -/
structure CrField where
  lt : Bool
  gt : Bool
  eq : Bool
  un : Bool
  deriving DecidableEq, Repr

/-- FPRF: one of the nine classes of 00_scope.md R17, or five bits that are the code of none (10_state.md R31:
"an enumeration of the nine classes plus undefined") [log 14]. -/
inductive Fprf where
  | qnan
  | negInfinity
  | negNormal
  | negDenormalized
  | negZero
  | posZero
  | posDenormalized
  | posNormal
  | posInfinity
  | undefined (bits : BitVec 5)
  deriving DecidableEq, Repr

/-- The twelve named fields of the floating-point status and control register (10_state.md R26, 92 D6). -/
structure Fpscr where
  /-- rounding mode (R27) -/
  rn : BitVec 2
  /-- invalid-operation exception enable -/
  ve : Bool
  /-- exponent-overflow exception enable -/
  oe : Bool
  /-- exponent-underflow exception enable -/
  ue : Bool
  /-- exponent overflow occurred, sticky (R28) -/
  ox : Bool
  /-- exponent underflow occurred, sticky -/
  ux : Bool
  /-- inexact result occurred, sticky -/
  xx : Bool
  /-- signalling NaN operand, sticky -/
  vxsnan : Bool
  /-- invalid integer convert, sticky -/
  vxcvi : Bool
  /-- the last rounding incremented the significand -/
  fr : Bool
  /-- the last rounding discarded non-zero bits -/
  fi : Bool
  /-- class of the result -/
  fprf : Fprf
  deriving DecidableEq, Repr

/-- The exception bits that have an enable in scope (60_exceptions.md R250). -/
inductive FpBit where
  | vxsnan
  | vxcvi
  | ox
  | ux
  deriving DecidableEq, Repr

/-- A range of bytes: `base` to `base + size - 1`. -/
structure Region where
  base : Nat
  size : Nat
  deriving DecidableEq, Repr

/-- Memory: (address, byte) pairs, addresses strictly rising, no byte equal to what an unlisted address reads as. -/
abbrev Memory := List Host.Cell

/-- The whole machine. -/
structure State where
  /-- the OPEN parameters, fixed at launch (00_scope.md R8, 70 R281(e)) -/
  params : Params
  /-- floating-point registers (10_state.md R20) -/
  fpr : Vector Dword 32
  /-- general registers: the low `XLEN` bits of each are the register (10_state.md R23) [log 15] -/
  gpr : Vector Dword 32
  /-- the address of the current instruction (10_state.md R24) -/
  pc : Dword
  /-- condition register (10_state.md R25) -/
  cr : Vector CrField 8
  /-- floating-point status and control register (10_state.md R26) -/
  fpscr : Fpscr
  /-- the bytes of the one address space (10_state.md R33) -/
  mem : Memory
  /-- where the immutable program text lies (20_memory.md R58, 70 R281(a)) -/
  program : Region
  /-- the ranges that admit data accesses (20_memory.md R54, 70 R281(c)) -/
  admitted : List Region
  /-- the model's own: how many executions have drawn an undefined value [log 11] -/
  draws : Nat
  deriving DecidableEq, Repr

/-- Why the machine stops (60_exceptions.md R253). -/
inductive Fault where
  /-- An exception bit was set while its enable is 1; `after` is the state the instruction's writes left, `pc` still
  its own address (R252). Raised by `frsp`, the conversions to integer, `fsub`, `fcmpu`. Safe: hardware may go on. -/
  | fpEnabledException (bit : FpBit) (after : State)
  /-- `addr` is no multiple of `n` (20_memory.md R52). Raised by `stfd`, `lwz`, instruction fetch. Safe. -/
  | misaligned (addr n : Nat)
  /-- Not all of the `n` bytes at `addr` admit a data access (20_memory.md R54, R58). Raised by `stfd`, `lwz`. Safe. -/
  | unmapped (addr n : Nat)
  /-- `pc` is just past the last instruction: the run has ended normally (70 R285). Raised by instruction fetch. Safe:
  no step is taken where the spec has none. -/
  | endOfRun
  deriving DecidableEq, Repr

/-- Why the model declines (60_exceptions.md R256). -/
inductive Refusal where
  /-- An instruction whose meaning is not written yet. Raised by `exec` only. Safe. -/
  | notModelled (mnemonic : String)
  /-- `refused(word)`: the word at `pc` is no instruction of the table (30_encoding.md R76, R77). Raised by decode.
  Safe. -/
  | badWord (word : Word) (why : Reject)
  /-- `pc` lies outside the program and is not its end (70 R285). Raised by instruction fetch. Safe. -/
  | outsideProgram (pc : Dword)
  /-- `pc + 4` would pass the top of the address space (10_state.md R24). Raised by every instruction that advances
  sequentially. Safe. -/
  | pcWraps (pc : Dword)
  deriving DecidableEq, Repr

/-- The outcome of a step of this machine (60_exceptions.md R256). -/
abbrev Out := Host.Outcome State Fault Refusal

/-- The FPSCR after reset. DESIGN CHOICE, unsafe [log 3]: the spec gives no value (10_state.md R35). -/
def Fpscr.reset : Fpscr :=
  { rn := 0#2, ve := false, oe := false, ue := false, ox := false, ux := false, xx := false, vxsnan := false,
    vxcvi := false, fr := false, fi := false, fprf := .undefined 0#5 }

/-- The machine right after reset: no program is loaded. The spec gives no reset value (10_state.md R35, 70 R280), so
every value is the model's: registers 0 [log 1], `pc` 0x100 [log 2], FPSCR [log 3], parameters [log 4], every address
admitted [log 5], memory with nothing listed [log 6], an empty program at `pc` [log 7]. Unsafe. -/
def State.reset : State :=
  { params := Config.resetParams
    fpr := Vector.replicate 32 0#64
    gpr := Vector.replicate 32 0#64
    pc := 0x100#64
    cr := Vector.replicate 8 { lt := false, gt := false, eq := false, un := false }
    fpscr := Fpscr.reset
    mem := []
    program := { base := 0x100, size := 0 }
    admitted := [{ base := 0, size := 2 ^ 64 }]
    draws := 0 }

end Sys2Proof.Machine
end

