-- ==== Sys2Proof/Machine/Ops.lean ====
section
/-! DEFINITION. The named operations over memory, registers and the program counter, instruction fetch, and the one
operation by which an instruction ends: with an enabled floating-point exception, or at the next instruction. -/

namespace Sys2Proof

/-- The number of bits of a general register and of an address (00_scope.md R8). -/
def Xlen.bits : Xlen → Nat
  | .x32 => 32
  | .x64 => 64

/-- `v` modulo 2^`XLEN`, zero-extended to 64 bits (00_scope.md R8; 20_memory.md R54). -/
def Xlen.trunc (x : Xlen) (v : Dword) : Dword :=
  match x with
  | .x32 => (v.setWidth 32).setWidth 64
  | .x64 => v

namespace Machine

/-! ### Memory -/

/-- What an address reads as that memory does not list. DESIGN CHOICE, unsafe [log 6]. -/
def unlistedByte : Byte := 0#8

/-- The byte at an address (20_memory.md R53: "a read returns the bytes last written"). -/
def Memory.read : Memory → Nat → Byte
  | [], _ => unlistedByte
  | (k, b) :: rest, a => if k = a then b else Memory.read rest a

/-- `b` at `a` in front of cells that all lie above `a`, unless `a` reads as `b` unlisted. -/
def Memory.cons (a : Nat) (b : Byte) (rest : Memory) : Memory :=
  if b = unlistedByte then rest else (a, b) :: rest

/-- Write one byte, keeping the canonical form. -/
def Memory.write : Memory → Nat → Byte → Memory
  | [], a, b => Memory.cons a b []
  | (k, c) :: rest, a, b =>
    if a < k then Memory.cons a b ((k, c) :: rest)
    else if a = k then Memory.cons a b rest
    else (k, c) :: Memory.write rest a b

/-- The canonical form: addresses strictly rising, and no byte equal to what an unlisted address reads as. -/
def Memory.wf : Memory → Bool
  | [] => true
  | (a, b) :: rest => rest.all (fun cell => a < cell.1) && b != unlistedByte && Memory.wf rest

/-- Write bytes at consecutive addresses from `a` up. -/
def Memory.writeBytes : Memory → Nat → List Byte → Memory
  | m, _, [] => m
  | m, a, b :: bs => Memory.writeBytes (Memory.write m a b) (a + 1) bs

/-- `MemRead(a, 4)`: four bytes as one big-endian word (00_scope.md R18; 20_memory.md R51). -/
def Memory.readWord (m : Memory) (a : Nat) : Word :=
  wordOfBytes (m.read a) (m.read (a + 1)) (m.read (a + 2)) (m.read (a + 3))

/-- Byte `k` of a doubleword is its bits `[8k : 8k+7]` (20_memory.md R51). -/
def dwordBytes (v : Dword) : List Byte :=
  [msbSlice v 0 8, msbSlice v 8 8, msbSlice v 16 8, msbSlice v 24 8,
   msbSlice v 32 8, msbSlice v 40 8, msbSlice v 48 8, msbSlice v 56 8]

/-- `MemWrite(a, 8, v)`: big-endian (00_scope.md R18; 20_memory.md R50, R51). -/
def Memory.writeDword (m : Memory) (a : Nat) (v : Dword) : Memory := m.writeBytes a (dwordBytes v)

/-! ### Address ranges -/

/-- The byte at `a` lies in the range. -/
def Region.contains (r : Region) (a : Nat) : Bool := r.base ≤ a && a < r.base + r.size

/-- The byte admits a data access: in an admitted range and outside the program (20_memory.md R54, R58). -/
def State.admitsByte (s : State) (a : Nat) : Bool :=
  s.admitted.any (fun r => r.contains a) && !s.program.contains a

/-- `admitted(a, n)`: all of the `n` bytes at `a` admit a data access (20_memory.md R54). -/
def State.admits (s : State) (a : Nat) : Nat → Bool
  | 0 => true
  | n + 1 => s.admitsByte a && State.admits s (a + 1) n

/-! ### Registers -/

/-- `f[i]` (00_scope.md R18). -/
def State.readF (s : State) (i : FReg) : Dword := s.fpr[i]

/-- `f[i] <- v` (00_scope.md R18); all 64 bits, no register is hardwired (10_state.md R20). -/
def State.writeF (s : State) (i : FReg) (v : Dword) : State := { s with fpr := s.fpr.set i v }

/-- `x[i]`: the low `XLEN` bits, zero-extended (00_scope.md R18; 10_state.md R23: none is hardwired). -/
def State.readX (s : State) (i : GReg) : Dword := s.params.xlen.trunc s.gpr[i]

/-- `x[i] <- v`, `v` modulo 2^`XLEN` (00_scope.md R18). -/
def State.writeX (s : State) (i : GReg) (v : Dword) : State :=
  { s with gpr := s.gpr.set i (s.params.xlen.trunc v) }

/-- `CR[n]` (00_scope.md R18). -/
def State.readCr (s : State) (n : CrIdx) : CrField := s.cr[n]

/-- `CR[n] <- c` (10_state.md R25). -/
def State.writeCr (s : State) (n : CrIdx) (c : CrField) : State := { s with cr := s.cr.set n c }

/-- The FPSCR receives `f`. -/
def State.setFpscr (s : State) (f : Fpscr) : State := { s with fpscr := f }

/-- `n` more draws of undefined values have been made (00_scope.md R18). -/
def State.countDraws (s : State) (n : Nat) : State := { s with draws := s.draws + n }

/-- Memory receives `m`. -/
def State.setMem (s : State) (m : Memory) : State := { s with mem := m }

/-- `pc <- target` (00_scope.md R18). -/
def State.setPc (s : State) (target : Dword) : State := { s with pc := target }

/-! ### The program counter -/

/-- `pc + 4` does not pass the top of the address space (10_state.md R24). -/
def State.canAdvance (s : State) : Bool := s.pc.toNat + 4 < 2 ^ s.params.xlen.bits

/-- `pc <- pc + 4` (10_state.md R24). -/
def State.advance (s : State) : State := s.setPc (s.pc + 4#64)

/-- An instruction that ends at `pc + 4`: refused before any effect when the increment would wrap (10_state.md R24,
92 D19; refused comes first by 60_exceptions.md R255(e)) [log 10]. -/
def sequential (s : State) (effect : Out) : Out :=
  if s.canAdvance then effect else .refused (.pcWraps s.pc)

/-! ### Ending an instruction: the exception, or the next instruction -/

/-- The enable that goes with an exception bit (60_exceptions.md R250). -/
def Fpscr.enables (f : Fpscr) : FpBit → Bool
  | .vxsnan => f.ve
  | .vxcvi => f.ve
  | .ox => f.oe
  | .ux => f.ue

/-- The end of an instruction that has made all its writes (`s`) and executed a set of the bits in `raised`: when the
enable of one is 1 the model stops with the fault that names the first such bit and holds `s`, whose `pc` is still the
instruction's own; else `pc <- pc + 4` (60_exceptions.md R252, R255(a); 41_frsp.md R155; 42_fcti.md R199) [log 12].
There is no trap entry and so no return from one (R257). -/
def raiseOrAdvance (s : State) (raised : List FpBit) : Out :=
  match raised.find? s.fpscr.enables with
  | some bit => .fault (.fpEnabledException bit s)
  | none => .next s.advance

/-- What a floating-point instruction that writes an FPR leaves: the target's new contents (`none`: not written), the
FPSCR, how many draws it made, and the exception bits it executed a set of, the one to report first. -/
structure FpResult where
  frt : Option Dword
  fpscr : Fpscr
  draws : Nat
  raised : List FpBit
  deriving DecidableEq, Repr

/-- `FRT <- v`, or no write (92 D28: "the absence of a write is not a write of undefined"). -/
def State.writeTarget (s : State) (frt : FReg) : Option Dword → State
  | some v => s.writeF frt v
  | none => s

/-- Write what a floating-point instruction leaves, then end it (41_frsp.md R140; 42_fcti.md R194). -/
def completeFp (s : State) (frt : FReg) (r : FpResult) : Out :=
  sequential s
    (raiseOrAdvance (((s.writeTarget frt r.frt).setFpscr r.fpscr).countDraws r.draws) r.raised)

/-! ### Instruction fetch -/

/-- `pc` is just past the last instruction of the program (70 R285). -/
def State.atEnd (s : State) : Bool := s.pc.toNat = s.program.base + s.program.size

/-- All four bytes of the instruction at `pc` lie in the program (70 R281(a)). -/
def State.inProgram (s : State) : Bool :=
  s.program.base ≤ s.pc.toNat && s.pc.toNat + 4 ≤ s.program.base + s.program.size

/-- The word at `pc`: alignment first (20_memory.md R52), then the normal end of the run and `pc` outside the program
(60_exceptions.md R253; 70 R285) [log 19]. -/
def State.fetch (s : State) : Host.Outcome Word Fault Refusal :=
  if s.pc.toNat % 4 ≠ 0 then .fault (.misaligned s.pc.toNat 4)
  else if s.atEnd then .fault .endOfRun
  else if s.inProgram then .next (s.mem.readWord s.pc.toNat)
  else .refused (.outsideProgram s.pc)

/-- The instruction a fetched word stands for, or the refusal that records the word (60_exceptions.md R253). -/
def State.decode (s : State) (w : Word) : Host.Outcome Instr Fault Refusal :=
  match decodeWord s.params.hasFp64Int w with
  | .instr i => .next i
  | .refused why => .refused (.badWord w why)

/-- A program of the one word `w`, placed where the next instruction is fetched (`pc`, made a multiple of 4 within the
address space): the launch of a one-instruction program (70 R281(a), (b)) [log 7]. -/
def State.placeWord (s : State) (w : Word) : State :=
  let at4 := s.params.xlen.trunc s.pc &&& ~~~3#64
  { s with
    pc := at4
    program := { base := at4.toNat, size := 4 }
    mem := s.mem.writeBytes at4.toNat (wordBytes w) }

end Machine

end Sys2Proof
end

