-- ==== Sys2Proof/Machine/Operands.lean ====
section
/-! DEFINITION. Operand forms: the effective address of the D form, the target of the B form, and an FPR read as a
double-precision value (10_state.md R21(a)). -/

namespace Sys2Proof.Machine

/-! ### Addresses -/

/-- The base of a D-form address: register number 0 denotes the constant 0 (10_state.md R23). -/
def State.baseX (s : State) (ra : GReg) : Dword := if ra = 0 then 0#64 else s.readX ra

/-- `EA = (RA = 0 ? 0 : x[RA]) + sext_XLEN(D)` modulo 2^`XLEN` (40 R117; 30_encoding.md R74). -/
def State.effectiveAddress (s : State) (ra : GReg) (d : BitVec 16) : Dword :=
  s.params.xlen.trunc (s.baseX ra + d.signExtend 64)

/-- The branch's own address plus `sext_XLEN(BD || 0b00)`, modulo 2^`XLEN` (30_encoding.md R74) [log 10]. -/
def State.branchTarget (s : State) (bd : BitVec 14) : Dword :=
  s.params.xlen.trunc (s.pc + (bd ++ 0#2).signExtend 64)

/-! ### An FPR as a double -/

/-- `[0]`, the sign. -/
def dSign (v : Dword) : Bool := v.getMsbD 0

/-- `[1:11]`, the biased exponent, as a number. -/
def dExp (v : Dword) : Nat := (msbSlice v 1 11).toNat

/-- `[12:63]`, the fraction. -/
def dFrac (v : Dword) : BitVec 52 := msbSlice v 12 52

/-- `[12]`, the bit that makes a NaN quiet. -/
def dQuiet (v : Dword) : Bool := v.getMsbD 12

/-- Exponent field 2047, fraction not 0. -/
def isNaN (v : Dword) : Bool := dExp v = 2047 && dFrac v ≠ 0

/-- A NaN with bit 12 = 0. -/
def isSNaN (v : Dword) : Bool := isNaN v && !dQuiet v

/-- Exponent field 2047, fraction 0. -/
def isInf (v : Dword) : Bool := dExp v = 2047 && dFrac v = 0

/-- Exponent field below 2047: zero, denormalized or normalized. -/
def isFinite (v : Dword) : Bool := dExp v < 2047

/-- The magnitude in units of 2^-1074, the least positive double: exponent field 0 has no implicit 1 and the exponent
of field 1. For an infinity this reads 2^1024, above every finite double [log 20]. -/
def dMagnitude (v : Dword) : Nat :=
  if dExp v = 0 then (dFrac v).toNat else (2 ^ 52 + (dFrac v).toNat) * 2 ^ (dExp v - 1)

/-- `value(v)` of 40 R106, R107 in units of 2^-1074, exact. -/
def dValue (v : Dword) : Int := if dSign v then -(dMagnitude v : Int) else (dMagnitude v : Int)

/-- 1.0 in units of 2^-1074. -/
def dOne : Nat := 2 ^ 1074

/-! ### The significand with its exponent -/

/-- The unpacked operand of 41_frsp.md R142: `frac[0]` is the integer bit. -/
structure Unpacked where
  sign : Bool
  exp : Int
  frac : BitVec 53
  deriving DecidableEq, Repr

/-- Unpacking (41_frsp.md R142). -/
def unpack (v : Dword) : Unpacked :=
  { sign := dSign v
    exp := if dExp v = 0 then -1022 else (dExp v : Int) - 1023
    frac := (if dExp v = 0 then 0b0#1 else 0b1#1) ++ dFrac v }

/-- `FRT[0] <- sign; FRT[1:11] <- exp + 1023; FRT[12:63] <- frac[1:23] || 0^29` (41_frsp.md R143, R144, R146, R151). -/
def packSingle (sign : Bool) (exp : Int) (frac : BitVec 53) : Dword :=
  BitVec.ofBool sign ++ BitVec.ofInt 11 (exp + 1023) ++ msbSlice frac 1 23 ++ 0#29

/-- One pass of the sticky right shift on a bit string whose last bit is X: a 0 enters at the top, every bit moves
down one place, and the bit that would leave is ORed into X (41_frsp.md R143, 42_fcti.md R182). -/
def stickyPass {w : Nat} (v : BitVec w) : BitVec w := (v >>> 1) ||| (v &&& BitVec.ofNat w 1)

/-- `n` passes. -/
def stickyShift {w : Nat} : Nat → BitVec w → BitVec w
  | 0, v => v
  | n + 1, v => stickyShift n (stickyPass v)

/-- `Do while frac[0] = 0: exp <- exp - 1; shift left by one`, at most `fuel` passes (41_frsp.md R143, R144;
43_fcfid.md R221: the test is made before each pass). -/
def normalizeFrac {w : Nat} : Nat → Int → BitVec w → Int × BitVec w
  | 0, exp, frac => (exp, frac)
  | fuel + 1, exp, frac =>
    if frac.getMsbD 0 then (exp, frac) else normalizeFrac fuel (exp - 1) (frac <<< 1)

end Sys2Proof.Machine
end

