-- ==== Sys2Proof/Machine/Flags.lean ====
section
/-! DEFINITION. Every flag computation: FPRF classes, the sticky bits, the rounding mode and the increment of the three
rounding procedures, the result of a compare. -/

namespace Sys2Proof.Machine

/-! ### FPRF -/

/-- The five bits C, FL, FG, FE, FU of an FPRF (10_state.md R31). -/
def Fprf.bits : Fprf → BitVec 5
  | .qnan => 0b10001#5
  | .negInfinity => 0b01001#5
  | .negNormal => 0b01000#5
  | .negDenormalized => 0b11000#5
  | .negZero => 0b10010#5
  | .posZero => 0b00010#5
  | .posDenormalized => 0b10100#5
  | .posNormal => 0b00100#5
  | .posInfinity => 0b00101#5
  | .undefined b => b

/-- The FPRF of five bits: the class whose code they are, else bits that are no class (10_state.md R31) [log 14]. -/
def Fprf.ofBits (b : BitVec 5) : Fprf :=
  if b = 0b10001#5 then .qnan
  else if b = 0b01001#5 then .negInfinity
  else if b = 0b01000#5 then .negNormal
  else if b = 0b11000#5 then .negDenormalized
  else if b = 0b10010#5 then .negZero
  else if b = 0b00010#5 then .posZero
  else if b = 0b10100#5 then .posDenormalized
  else if b = 0b00100#5 then .posNormal
  else if b = 0b00101#5 then .posInfinity
  else .undefined b

/-- `FPSCR[FPRF] <- undefined`: draw `n` of five bits, which may or may not be a class (42_fcti.md R193). -/
def Fprf.draw (n : Nat) : Fprf := Fprf.ofBits (Config.freeFprf n)

/-- "+normal number" or "-normal number". -/
def Fprf.normal (sign : Bool) : Fprf := if sign then .negNormal else .posNormal

/-- "+denormalized number" or "-denormalized number". -/
def Fprf.denormalized (sign : Bool) : Fprf := if sign then .negDenormalized else .posDenormalized

/-- "+zero" or "-zero". -/
def Fprf.zero (sign : Bool) : Fprf := if sign then .negZero else .posZero

/-- "+infinity" or "-infinity". -/
def Fprf.infinity (sign : Bool) : Fprf := if sign then .negInfinity else .posInfinity

/-! ### The FPSCR as a word -/

/-- The twelve named fields at the bit positions of 10_state.md R30, "for a reader who must exchange the register with
software"; no instruction uses them. The bits of fields that are no state of the model (R29) are 0 here [log 21]. -/
def Fpscr.image (f : Fpscr) : Word :=
  place (BitVec.ofBool f.ox) 3 ||| place (BitVec.ofBool f.ux) 4 ||| place (BitVec.ofBool f.xx) 6 |||
  place (BitVec.ofBool f.vxsnan) 7 ||| place (BitVec.ofBool f.fr) 13 ||| place (BitVec.ofBool f.fi) 14 |||
  place f.fprf.bits 15 ||| place (BitVec.ofBool f.vxcvi) 23 ||| place (BitVec.ofBool f.ve) 24 |||
  place (BitVec.ofBool f.oe) 25 ||| place (BitVec.ofBool f.ue) 26 ||| place f.rn 30

/-! ### Sticky bits: `If c then FPSCR[..] <- 1`, never cleared (10_state.md R28) -/

/-- XX. -/
def Fpscr.setXx (f : Fpscr) (c : Bool) : Fpscr := { f with xx := f.xx || c }

/-- UX. -/
def Fpscr.setUx (f : Fpscr) (c : Bool) : Fpscr := { f with ux := f.ux || c }

/-- OX. -/
def Fpscr.setOx (f : Fpscr) (c : Bool) : Fpscr := { f with ox := f.ox || c }

/-- VXSNAN. -/
def Fpscr.setVxsnan (f : Fpscr) (c : Bool) : Fpscr := { f with vxsnan := f.vxsnan || c }

/-- VXCVI. -/
def Fpscr.setVxcvi (f : Fpscr) (c : Bool) : Fpscr := { f with vxcvi := f.vxcvi || c }

/-- FR and FI, plain writes (10_state.md R26). -/
def Fpscr.setFrFi (f : Fpscr) (fr fi : Bool) : Fpscr := { f with fr := fr, fi := fi }

/-- FPRF, a plain write (10_state.md R26). -/
def Fpscr.setFprf (f : Fpscr) (c : Fprf) : Fpscr := { f with fprf := c }

/-! ### Rounding -/

/-- The four rounding modes (10_state.md R27). -/
inductive RoundMode where
  | nearest
  | zero
  | posInf
  | negInf
  deriving DecidableEq, Repr

/-- The mode a two-bit RN value selects (10_state.md R27). -/
def RoundMode.ofRn (rn : BitVec 2) : RoundMode :=
  if rn = 0b00#2 then .nearest
  else if rn = 0b01#2 then .zero
  else if rn = 0b10#2 then .posInf
  else .negInf

/-- The mode of `FPSCR[RN]`. -/
def Fpscr.mode (f : Fpscr) : RoundMode := RoundMode.ofRn f.rn

/-- `inc` of Round Single, Round Integer and Round Float: the three procedures have the same patterns over
`sign || lsb || gbit || rbit || xbit`, `u` positions ignored (41_frsp.md R152, 42_fcti.md R184, 43_fcfid.md R223). -/
def roundInc (mode : RoundMode) (sign lsb gbit rbit xbit : Bool) : Bool :=
  match mode with
  | .nearest => (lsb && gbit) || (!lsb && gbit && rbit) || (!lsb && gbit && xbit)
  | .zero => false
  | .posInf => (!sign && gbit) || (!sign && rbit) || (!sign && xbit)
  | .negInf => (sign && gbit) || (sign && rbit) || (sign && xbit)

/-- A one-bit increment as a bit string of any width. -/
def incBits (w : Nat) (inc : Bool) : BitVec w := if inc then BitVec.ofNat w 1 else 0#w

/-- What Round Single leaves: the caller's `exp` and `frac`, `inc` (FR), and whether a discarded bit was 1 (FI). -/
structure Rounded where
  exp : Int
  frac : BitVec 53
  inc : Bool
  inexact : Bool
  deriving DecidableEq, Repr

/-- Round Single on `v = frac || G || R || X` (41_frsp.md R152), the discarded bits cleared after it (R153(a)). -/
def roundSingle (mode : RoundMode) (sign : Bool) (exp : Int) (v : BitVec 56) : Rounded :=
  let lsb := v.getMsbD 23
  let gbit := v.getMsbD 24
  let rbit := v.getMsbD 25
  let xbit := msbSlice v 26 30 ≠ 0
  let inc := roundInc mode sign lsb gbit rbit xbit
  let kept := msbSlice v 0 24
  let sum := kept + incBits 24 inc
  let carryOut := inc && kept = BitVec.allOnes 24
  { exp := if carryOut then exp + 1 else exp
    frac := (if carryOut then 0b1#1 ++ msbSlice sum 0 23 else sum) ++ 0#29
    inc := inc
    inexact := gbit || rbit || xbit }

/-! ### Compare -/

/-- A condition-register field from the relation of two operands: exactly one bit is 1 (40 R106). -/
def compareResult (a b : Dword) : CrField :=
  if isNaN a || isNaN b then { lt := false, gt := false, eq := false, un := true }
  else if dValue a < dValue b then { lt := true, gt := false, eq := false, un := false }
  else if dValue b < dValue a then { lt := false, gt := true, eq := false, un := false }
  else { lt := false, gt := false, eq := true, un := false }

end Sys2Proof.Machine
end

