-- ==== Sys2Proof/Machine/Fcfid.lean ====
section
/-! DEFINITION. Floating convert from integer doubleword (43_fcfid.md). -/

namespace Sys2Proof.Machine

/-- Zero Operand (43_fcfid.md R222). -/
def fcfidZero (f : Fpscr) : FpResult :=
  { frt := some 0#64
    fpscr := (f.setFrFi false false).setFprf .posZero
    draws := 0
    raised := [] }

/-- Main path: magnitude, normalize, Round Float, result (43_fcfid.md R221, R223). -/
def fcfidMain (b : Dword) (f : Fpscr) : FpResult :=
  let sign := b.getMsbD 0
  let magnitude := if sign then ~~~b + 1#64 else b
  let normalized := normalizeFrac 64 63 magnitude
  let frac := normalized.2
  let gbit := frac.getMsbD 53
  let rbit := frac.getMsbD 54
  let xbit := msbSlice frac 55 9 ≠ 0
  let inc := roundInc f.mode sign (frac.getMsbD 52) gbit rbit xbit
  let kept := msbSlice frac 0 53
  let sum := kept + incBits 53 inc
  let carryOut := inc && kept = BitVec.allOnes 53
  let exp := if carryOut then normalized.1 + 1 else normalized.1
  let inexact := gbit || rbit || xbit
  { frt := some (BitVec.ofBool sign ++ BitVec.ofInt 11 (exp + 1023) ++ msbSlice sum 1 52)
    fpscr := ((f.setFrFi inc inexact).setXx inexact).setFprf (.normal sign)
    draws := 0
    raised := [] }

/-- What `fcfid` leaves (43_fcfid.md R221). -/
def fcfidResult (b : Dword) (f : Fpscr) : FpResult :=
  if b = 0#64 then fcfidZero f else fcfidMain b f

/-- `fcfid FRT,FRB` (43_fcfid.md R220). -/
def execFcfid (frt frb : FReg) (s : State) : Host.Outcome State Fault Refusal :=
  completeFp s frt (fcfidResult (s.readF frb) s.fpscr)

end Sys2Proof.Machine
end

