-- ==== Sys2Proof/Machine/Fcti.lean ====
section
/-! DEFINITION. Floating convert to integer (42_fcti.md): one algorithm for `fctiw`, `fctiwz`, `fctid`, `fctidz`. -/

namespace Sys2Proof.Machine

/-- `tgt_precision` (42_fcti.md R180). -/
inductive IntTarget where
  | word
  | doubleword
  deriving DecidableEq, Repr

/-- The least integer of the target width (42_fcti.md R186). -/
def IntTarget.min : IntTarget → Int
  | .word => -2 ^ 31
  | .doubleword => -2 ^ 63

/-- The greatest integer of the target width (42_fcti.md R186). -/
def IntTarget.max : IntTarget → Int
  | .word => 2 ^ 31 - 1
  | .doubleword => 2 ^ 63 - 1

/-- FRT for an integer of the target width: a word stands in `[32:63]` and leaves `[0:31]` undefined
(42_fcti.md R187). -/
def IntTarget.frt (tgt : IntTarget) (i : Dword) (n : Nat) : Dword :=
  match tgt with
  | .word => Config.freeHighWord n ++ msbSlice i 32 32
  | .doubleword => i

/-- The blocks of 42_fcti.md R188 to R191: FR, FI, VXCVI (and VXSNAN for an SNaN) are written; FRT and FPRF only when
VE = 0 (R200). VXCVI is the bit to report first (60_exceptions.md R255(a)). -/
def fctiInvalid (tgt : IntTarget) (i : Dword) (snan : Bool) (f : Fpscr) (n : Nat) : FpResult :=
  let f1 := ((f.setFrFi false false).setVxcvi true).setVxsnan snan
  { frt := if f.ve then none else some (tgt.frt i n)
    fpscr := if f.ve then f1 else f1.setFprf (.draw n)
    draws := if f.ve then 0 else 1
    raised := if snan then [.vxcvi, .vxsnan] else [.vxcvi] }

/-- The most positive or most negative integer of the target width (42_fcti.md R188, R191). -/
def IntTarget.saturated (tgt : IntTarget) (sign : Bool) : Dword :=
  BitVec.ofInt 64 (if sign then tgt.min else tgt.max)

/-- Infinity Operand and Large Operand (42_fcti.md R188, R191, R192). -/
def fctiSaturate (tgt : IntTarget) (b : Dword) (f : Fpscr) (n : Nat) : FpResult :=
  fctiInvalid tgt (tgt.saturated (dSign b)) false f n

/-- The magnitude shifted to an integer: `frac[0:64] || gbit || rbit || xbit` after the loop (42_fcti.md R182). -/
def fctiShifted (b : Dword) : BitVec 68 :=
  let exp : Int := if dExp b = 0 then -1022 else (dExp b : Int) - 1023
  let frac : BitVec 65 := (if dExp b = 0 then 0b00#2 else 0b01#2) ++ dFrac b ++ 0#11
  stickyShift (63 - exp).toNat (frac ++ 0#3)

/-- What Round Integer and the sign make of the shifted magnitude: `frac[0:64]`, `inc`, and whether a bit below the
unit was 1 (42_fcti.md R183 to R185). -/
def fctiRounded (mode : RoundMode) (b : Dword) : BitVec 65 × Bool × Bool :=
  let v := fctiShifted b
  let frac := msbSlice v 0 65
  let gbit := v.getMsbD 65
  let rbit := v.getMsbD 66
  let xbit := v.getMsbD 67
  let inc := roundInc mode (dSign b) (frac.getMsbD 64) gbit rbit xbit
  let rounded := frac + incBits 65 inc
  (if dSign b then ~~~rounded + 1#65 else rounded, inc, gbit || rbit || xbit)

/-- The main path: XX, Round Integer, sign, range check, result (42_fcti.md R182 to R187). -/
def fctiMain (tgt : IntTarget) (mode : RoundMode) (b : Dword) (f : Fpscr) (n : Nat) : FpResult :=
  let r := fctiRounded mode b
  let f1 := (f.setXx r.2.2).setFrFi r.2.1 r.2.2
  if tgt.max < r.1.toInt ∨ r.1.toInt < tgt.min then fctiSaturate tgt b f1 n
  else
    { frt := some (tgt.frt (msbSlice r.1 1 64) n)
      fpscr := f1.setFprf (.draw n)
      draws := 1
      raised := [] }

/-- The dispatch, its tests in the order written (42_fcti.md R181). -/
def fctiResult (tgt : IntTarget) (mode : RoundMode) (b : Dword) (f : Fpscr) (n : Nat) : FpResult :=
  if dExp b = 2047 ∧ dFrac b = 0 then fctiSaturate tgt b f n
  else if dExp b = 2047 ∧ dQuiet b = false then fctiInvalid tgt (tgt.saturated true) true f n
  else if dExp b = 2047 ∧ dQuiet b = true then fctiInvalid tgt (tgt.saturated true) false f n
  else if 1086 < dExp b then fctiSaturate tgt b f n
  else fctiMain tgt mode b f n

/-- `fctiw FRT,FRB` (42_fcti.md R195). -/
def execFctiw (frt frb : FReg) (s : State) : Host.Outcome State Fault Refusal :=
  completeFp s frt (fctiResult .word s.fpscr.mode (s.readF frb) s.fpscr s.draws)

/-- `fctiwz FRT,FRB` (42_fcti.md R196): RN is not read. -/
def execFctiwz (frt frb : FReg) (s : State) : Host.Outcome State Fault Refusal :=
  completeFp s frt (fctiResult .word .zero (s.readF frb) s.fpscr s.draws)

/-- `fctid FRT,FRB` (42_fcti.md R197). -/
def execFctid (frt frb : FReg) (s : State) : Host.Outcome State Fault Refusal :=
  completeFp s frt (fctiResult .doubleword s.fpscr.mode (s.readF frb) s.fpscr s.draws)

/-- `fctidz FRT,FRB` (42_fcti.md R198): RN is not read. -/
def execFctidz (frt frb : FReg) (s : State) : Host.Outcome State Fault Refusal :=
  completeFp s frt (fctiResult .doubleword .zero (s.readF frb) s.fpscr s.draws)

end Sys2Proof.Machine
end

