-- ==== Sys2Proof/Machine/FloatSupport.lean ====
section
/-! DEFINITION. The floating-point support instructions of C.2: `fmr`, `fcmpu`, `fsub` (40 R105 to R107). -/

namespace Sys2Proof.Machine

/-- `fmr FRT,FRB` (40 R105): all 64 bits; the FPSCR is neither read nor written. -/
def execFmr (frt frb : FReg) (s : State) : Host.Outcome State Fault Refusal :=
  sequential s (.next (s.writeF frt (s.readF frb)).advance)

/-- `fcmpu BF,FRA,FRB` (40 R106). -/
def execFcmpu (bf : CrIdx) (fra frb : FReg) (s : State) : Host.Outcome State Fault Refusal :=
  let a := s.readF fra
  let b := s.readF frb
  let snan := isSNaN a || isSNaN b
  let f := (s.fpscr.setFprf (.draw s.draws)).setVxsnan snan
  sequential s
    (raiseOrAdvance (((s.writeCr bf (compareResult a b)).setFpscr f).countDraws 1)
      (if snan then [.vxsnan] else []))

/-! ### fsub -/

/-- The number of bits a magnitude (in units of 2^-1074) has below its leading 53: 0 when it has no more than 53. -/
def excessBits (m : Nat) : Nat := m.log2 - 52

/-- A magnitude (in units of 2^-1074) rounded to a double's 63 low bits, exponent and fraction, as if the exponent had
no upper bound: the kept 53 bits with the increment of 10_state.md R27, above them the exponent. -/
def roundMagnitude (mode : RoundMode) (sign : Bool) (m : Nat) : Nat :=
  let q := excessBits m
  let kept := m / 2 ^ q
  let lsb := kept.testBit 0
  let gbit := q ≠ 0 && m.testBit (q - 1)
  let xbit := q ≠ 0 && m % 2 ^ (q - 1) ≠ 0
  q * 2 ^ 52 + (kept + if roundInc mode sign lsb gbit false xbit then 1 else 0)

/-- The exponent and fraction of an infinity. -/
def infMagnitude : Nat := 0x7FF0000000000000

/-- The exponent and fraction delivered when the rounded magnitude is out of range (IEEE 754; 40 R107) [log 26]. -/
def overflowMagnitude (mode : RoundMode) (sign : Bool) : Nat :=
  match mode with
  | .nearest => infMagnitude
  | .zero => infMagnitude - 1
  | .posInf => if sign then infMagnitude - 1 else infMagnitude
  | .negInf => if sign then infMagnitude else infMagnitude - 1

/-- `round_double(RN, d)` for an exact `d` in units of 2^-1074; an exact zero is +0, or -0 under RN = 0b11
(40 R107, 93 G8) [log 13]. -/
def roundDouble (mode : RoundMode) (d : Int) : Dword :=
  if d = 0 then BitVec.ofBool (mode = .negInf) ++ 0#63
  else
    let sign := decide (d < 0)
    let r := roundMagnitude mode sign d.natAbs
    BitVec.ofBool sign ++
      BitVec.ofNat 63 (if infMagnitude ≤ r then overflowMagnitude mode sign else r)

/-- `d` (in units of 2^-1074) is a double: 53 significant bits and below 2^1024 (40 R107). -/
def isDouble (d : Int) : Bool := d.natAbs % 2 ^ excessBits d.natAbs = 0 && d.natAbs < 2 ^ 2098

/-- `|d| >= 2^1024 - 2^970`: could round out of range (40 R107). -/
def mayOverflow (d : Int) : Bool := 2 ^ 2098 - 2 ^ 2044 ≤ d.natAbs

/-- `0 < |d| < 2^-1022`: below the normal range (40 R107). -/
def belowNormal (d : Int) : Bool := 0 < d.natAbs && d.natAbs < 2 ^ 52

/-- A NaN made quiet: `q[12] <- 1` (40 R107). -/
def quieted (v : Dword) : Dword := v ||| 0x0008000000000000#64

/-- FRT of `fsub` (40 R107): the first NaN operand quieted; infinity minus the same infinity; an infinite operand
decides; else the rounded difference. -/
def fsubValue (mode : RoundMode) (a b : Dword) : Dword :=
  if isNaN a || isNaN b then quieted (if isNaN a then a else b)
  else if isInf a && isInf b && dSign a == dSign b then 0x7FF8000000000000#64
  else if isInf a then a
  else if isInf b then b ^^^ 0x8000000000000000#64
  else roundDouble mode (dValue a - dValue b)

/-- What `fsub` leaves (40 R107): FPRF, FR, FI drawn; XX, OX, UX unchanged or set, a draw, each only under its
necessary condition; VXSNAN on an SNaN operand [log 18]. -/
def fsubResult (a b : Dword) (f : Fpscr) (n : Nat) : FpResult :=
  let snan := isSNaN a || isSNaN b
  let finite := isFinite a && isFinite b
  let d := dValue a - dValue b
  let setsXx := finite && !isDouble d && Config.freeSetsXx n
  let setsOx := finite && mayOverflow d && Config.freeSetsOx n
  let setsUx := finite && belowNormal d && Config.freeSetsUx n
  { frt := some (fsubValue f.mode a b)
    fpscr :=
      ((((((f.setVxsnan snan).setXx setsXx).setOx setsOx).setUx setsUx).setFrFi (Config.freeFr n)
        (Config.freeFi n)).setFprf (.draw n))
    draws := 1
    raised := (if snan then [.vxsnan] else []) ++ (if setsOx then [.ox] else []) ++ (if setsUx then [.ux] else []) }

/-- `fsub FRT,FRA,FRB` (40 R107). -/
def execFsub (frt fra frb : FReg) (s : State) : Host.Outcome State Fault Refusal :=
  completeFp s frt (fsubResult (s.readF fra) (s.readF frb) s.fpscr s.draws)

end Sys2Proof.Machine
end

