-- ==== Sys2Proof/Machine/Frsp.lean ====
section
/-! DEFINITION. Floating round to single-precision (41_frsp.md). Each labelled block of the algorithm is a function
from the operand `b` (FRB), the FPSCR `f` and the draw number `n` to what the block leaves. -/

namespace Sys2Proof.Machine

/-- Zero Operand (41_frsp.md R147). -/
def frspZero (b : Dword) (f : Fpscr) : FpResult :=
  { frt := some b
    fpscr := (f.setFprf (.zero (dSign b))).setFrFi false false
    draws := 0
    raised := [] }

/-- Infinity Operand (41_frsp.md R148): FR and FI are both unchanged or both 0, a choice per execution [log 17]. -/
def frspInfinity (b : Dword) (f : Fpscr) (n : Nat) : FpResult :=
  { frt := some b
    fpscr :=
      (f.setFprf (.infinity (dSign b))).setFrFi (f.fr && !Config.freeClearsFrFi n) (f.fi && !Config.freeClearsFrFi n)
    draws := 1
    raised := [] }

/-- QNaN Operand (41_frsp.md R149): the low 29 fraction bits are cleared. -/
def frspQNaN (b : Dword) (f : Fpscr) : FpResult :=
  { frt := some (msbSlice b 0 35 ++ 0#29)
    fpscr := (f.setFprf .qnan).setFrFi false false
    draws := 0
    raised := [] }

/-- SNaN Operand (41_frsp.md R150): with VE = 1 neither FRT nor FPRF is written. -/
def frspSNaN (b : Dword) (f : Fpscr) : FpResult :=
  let f1 := (f.setVxsnan true).setFrFi false false
  { frt := if f.ve then none else some (msbSlice b 0 12 ++ 1#1 ++ msbSlice b 13 22 ++ 0#29)
    fpscr := if f.ve then f1 else f1.setFprf .qnan
    draws := 0
    raised := [.vxsnan] }

/-- FPRF of a result of Disabled Exponent Underflow, by the rounded significand (41_frsp.md R143). -/
def frspUnderflowClass (sign : Bool) (frac : BitVec 53) : Fprf :=
  if frac = 0#53 then .zero sign else if frac.getMsbD 0 then .normal sign else .denormalized sign

/-- Disabled Exponent Underflow (41_frsp.md R143): denormalize to exponent -126, round, normalize. -/
def frspDisabledUnderflow (b : Dword) (f : Fpscr) : FpResult :=
  let u := unpack b
  let passes := (-126 - u.exp).toNat
  let v := stickyShift passes (u.frac ++ 0#3)
  let inexact := msbSlice v 24 32 ≠ 0
  let r := roundSingle f.mode u.sign (u.exp + passes) v
  let normalized := normalizeFrac 53 r.exp r.frac
  { frt :=
      some (if r.frac = 0#53 then BitVec.ofBool u.sign ++ 0#63 else packSingle u.sign normalized.1 normalized.2)
    fpscr :=
      (((f.setUx inexact).setXx inexact).setFrFi r.inc r.inexact).setFprf (frspUnderflowClass u.sign r.frac)
    draws := 0
    raised := if inexact then [.ux] else [] }

/-- Enabled Exponent Underflow (41_frsp.md R144): round as if the exponent were unbounded, exponent raised by 192. -/
def frspEnabledUnderflow (b : Dword) (f : Fpscr) : FpResult :=
  let u := unpack b
  let normalized := normalizeFrac 53 u.exp u.frac
  let r := roundSingle f.mode u.sign normalized.1 (normalized.2 ++ 0#3)
  { frt := some (packSingle u.sign (r.exp + 192) r.frac)
    fpscr :=
      (((f.setUx true).setXx (msbSlice normalized.2 24 29 ≠ 0)).setFrFi r.inc r.inexact).setFprf (.normal u.sign)
    draws := 0
    raised := [.ux] }

/-- The largest single-precision number in double format, positive (41_frsp.md R145). -/
def maxSingle : Dword := 0x47EFFFFFE0000000#64

/-- The same, negative. -/
def negMaxSingle : Dword := 0xC7EFFFFFE0000000#64

/-- FRT and FPRF of Disabled Exponent Overflow, by RN and the sign of the operand (41_frsp.md R145). -/
def frspOverflowResult (mode : RoundMode) (sign : Bool) : Dword × Fprf :=
  match mode, sign with
  | .nearest, false => (0x7FF0000000000000#64, .posInfinity)
  | .nearest, true => (0xFFF0000000000000#64, .negInfinity)
  | .zero, false => (maxSingle, .posNormal)
  | .zero, true => (negMaxSingle, .negNormal)
  | .posInf, false => (0x7FF0000000000000#64, .posInfinity)
  | .posInf, true => (negMaxSingle, .negNormal)
  | .negInf, false => (maxSingle, .posNormal)
  | .negInf, true => (0xFFF0000000000000#64, .negInfinity)

/-- `inc` of Disabled Exponent Overflow, the printed statements with the comparisons read on bit strings as unsigned
numbers (41_frsp.md R145, 90_conflicts.md C7). -/
def frspOverflowInc (mode : RoundMode) (b : Dword) : Bool :=
  match mode with
  | .nearest => false
  | .zero => false
  | .posInf => dSign b && negMaxSingle.toNat < b.toNat
  | .negInf => (!dSign b && b.toNat < maxSingle.toNat) || dSign b

/-- Disabled Exponent Overflow (41_frsp.md R145); FR is a draw when `FRSP_OVF_FR_DRAW`. -/
def frspDisabledOverflow (p : Params) (b : Dword) (f : Fpscr) (n : Nat) : FpResult :=
  let out := frspOverflowResult f.mode (dSign b)
  let fr := if p.frspOvfFrDraw then Config.freeFr n else frspOverflowInc f.mode b
  { frt := some out.1
    fpscr := (((f.setOx true).setXx true).setFrFi fr true).setFprf out.2
    draws := if p.frspOvfFrDraw then 1 else 0
    raised := [.ox] }

/-- Enabled Overflow, the tail that Normal Operand enters with its rounded `r` (41_frsp.md R146). -/
def frspEnabledOverflowTail (sign : Bool) (r : Rounded) (f : Fpscr) : FpResult :=
  { frt := some (packSingle sign (r.exp - 192) r.frac)
    fpscr := (f.setOx true).setFprf (.normal sign)
    draws := 0
    raised := [.ox] }

/-- Unpack and Round Single, as Enabled Exponent Overflow and Normal Operand begin: the rounded operand, and the FPSCR
with XX, FR and FI written (41_frsp.md R146, R151). -/
def frspRound (b : Dword) (f : Fpscr) : Rounded × Fpscr :=
  let u := unpack b
  let r := roundSingle f.mode u.sign u.exp (u.frac ++ 0#3)
  (r, (f.setXx (msbSlice u.frac 24 29 ≠ 0)).setFrFi r.inc r.inexact)

/-- Enabled Exponent Overflow (41_frsp.md R146). -/
def frspEnabledOverflow (b : Dword) (f : Fpscr) : FpResult :=
  let rf := frspRound b f
  frspEnabledOverflowTail (dSign b) rf.1 rf.2

/-- Normal Operand (41_frsp.md R151). -/
def frspNormal (p : Params) (b : Dword) (f : Fpscr) (n : Nat) : FpResult :=
  let rf := frspRound b f
  if 127 < rf.1.exp then
    if f.oe then frspEnabledOverflowTail (dSign b) rf.1 rf.2 else frspDisabledOverflow p b rf.2 n
  else
    { frt := some (packSingle (dSign b) rf.1.exp rf.1.frac)
      fpscr := rf.2.setFprf (.normal (dSign b))
      draws := 0
      raised := [] }

/-- The dispatch on the operand (41_frsp.md R141). -/
def frspResult (p : Params) (b : Dword) (f : Fpscr) (n : Nat) : FpResult :=
  if dExp b < 897 ∧ msbSlice b 1 63 ≠ 0 then
    if f.ue then frspEnabledUnderflow b f else frspDisabledUnderflow b f
  else if 1150 < dExp b ∧ dExp b < 2047 then
    if f.oe then frspEnabledOverflow b f else frspDisabledOverflow p b f n
  else if 896 < dExp b ∧ dExp b < 1151 then frspNormal p b f n
  else if msbSlice b 1 63 = 0 then frspZero b f
  else if dFrac b = 0 then frspInfinity b f n
  else if dQuiet b then frspQNaN b f
  else frspSNaN b f

/-- `frsp FRT,FRB` (41_frsp.md R140). -/
def execFrsp (frt frb : FReg) (s : State) : Host.Outcome State Fault Refusal :=
  completeFp s frt (frspResult s.params (s.readF frb) s.fpscr s.draws)

end Sys2Proof.Machine
end

