-- ==== Sys2Proof/Machine/Integer.lean ====
section
/-! DEFINITION. The integer, storage and branch instructions of C.1 and C.2 (40 R103, R104, R108 to R111). -/

namespace Sys2Proof.Machine

/-- `add RT,RA,RB` (40 R108): modulo 2^`XLEN`, no flag. -/
def execAdd (rt ra rb : GReg) (s : State) : Host.Outcome State Fault Refusal :=
  sequential s (.next (s.writeX rt (s.readX ra + s.readX rb)).advance)

/-- An access of `n` bytes at `ea`: alignment, then mapping, then the effect (40 R103, R104; 60_exceptions.md
R255(d)); a failed access changes nothing (R257). -/
def access (s : State) (ea : Dword) (n : Nat) (effect : Out) : Out :=
  if ea.toNat % n ≠ 0 then .fault (.misaligned ea.toNat n)
  else if s.admits ea.toNat n then effect
  else .fault (.unmapped ea.toNat n)

/-- `stfd FRS,D(RA)` (40 R103): the 64 bits unchanged. -/
def execStfd (frs : FReg) (d : BitVec 16) (ra : GReg) (s : State) : Host.Outcome State Fault Refusal :=
  let ea := s.effectiveAddress ra d
  sequential s
    (access s ea 8 (.next (s.setMem (s.mem.writeDword ea.toNat (s.readF frs))).advance))

/-- `lwz RT,D(RA)` (40 R104): the address is computed before the write, the word zero-extended. -/
def execLwz (rt : GReg) (d : BitVec 16) (ra : GReg) (s : State) : Host.Outcome State Fault Refusal :=
  let ea := s.effectiveAddress ra d
  sequential s
    (access s ea 4 (.next (s.writeX rt ((s.mem.readWord ea.toNat).setWidth 64)).advance))

/-- A conditional branch: `pc <- target` when taken, else `pc <- pc + 4`; no delay slot, no link (40 R116). -/
def branch (s : State) (taken : Bool) (bd : BitVec 14) : Out :=
  if taken then .next (s.setPc (s.branchTarget bd)) else sequential s (.next s.advance)

/-- `bl crN,target`, branch if less than (40 R109). -/
def execBl (crn : CrIdx) (bd : BitVec 14) (s : State) : Host.Outcome State Fault Refusal :=
  branch s (s.readCr crn).lt bd

/-- `bgt crN,target` (40 R110). -/
def execBgt (crn : CrIdx) (bd : BitVec 14) (s : State) : Host.Outcome State Fault Refusal :=
  branch s (s.readCr crn).gt bd

/-- `bnl crN,target` (40 R111). -/
def execBnl (crn : CrIdx) (bd : BitVec 14) (s : State) : Host.Outcome State Fault Refusal :=
  branch s (!(s.readCr crn).lt) bd

end Sys2Proof.Machine
end

