-- ==== Sys2Proof/Machine/Dispatch.lean ====
section
/-! DEFINITION. One arm per constructor of `Instr`: the instruction's meaning. -/

namespace Sys2Proof.Machine

-- The meaning of an instruction in a state.
def exec (i : Instr) (s : State) : Host.Outcome State Fault Refusal :=
  match i with
  | .frsp frt frb => Sys2Proof.Machine.execFrsp frt frb s
  | .fctiw frt frb => Sys2Proof.Machine.execFctiw frt frb s
  | .fctiwz frt frb => Sys2Proof.Machine.execFctiwz frt frb s
  | .fctid frt frb => Sys2Proof.Machine.execFctid frt frb s
  | .fctidz frt frb => Sys2Proof.Machine.execFctidz frt frb s
  | .fcfid frt frb => Sys2Proof.Machine.execFcfid frt frb s
  | .fmr frt frb => Sys2Proof.Machine.execFmr frt frb s
  | .fcmpu bf fra frb => Sys2Proof.Machine.execFcmpu bf fra frb s
  | .fsub frt fra frb => Sys2Proof.Machine.execFsub frt fra frb s
  | .add rt ra rb => Sys2Proof.Machine.execAdd rt ra rb s
  | .stfd frs d ra => Sys2Proof.Machine.execStfd frs d ra s
  | .lwz rt d ra => Sys2Proof.Machine.execLwz rt d ra s
  | .bl crn bd => Sys2Proof.Machine.execBl crn bd s
  | .bgt crn bd => Sys2Proof.Machine.execBgt crn bd s
  | .bnl crn bd => Sys2Proof.Machine.execBnl crn bd s

end Sys2Proof.Machine
end

