-- ==== Sys2Proof/Machine/Step.lean ====
section
/-! DEFINITION. One step: fetch, decode, execute (60_exceptions.md R256). -/

namespace Sys2Proof.Machine

/-- Fetch the word at `pc`, decode it, execute the instruction. -/
def step (s : State) : Host.Outcome State Fault Refusal :=
  match s.fetch with
  | .fault r => .fault r
  | .refused r => .refused r
  | .next w =>
    match s.decode w with
    | .fault r => .fault r
    | .refused r => .refused r
    | .next i => exec i s

/-- `s` with the one-word program `w` (bit 0 least significant, bits from `nbits` up 0) where the next instruction is
fetched [log 7]. -/
def State.withFetchWord (s : State) (nbits w : Nat) : State :=
  s.placeWord (BitVec.ofNat 32 (w % 2 ^ nbits))

end Sys2Proof.Machine
end

