-- ==== Sys2Proof/Safety.lean ====
section
/-! DEFINITION. What claims are stated in terms of: the invariant of the machine, a well-formed launch
(70_reset_and_hazards.md R281), a run free of enabled exceptions (60_exceptions.md R252), the source's two sequences
with their launch premises (40 R100, R102; 70 R282), and rounding as a relation between numbers (10_state.md R27). -/

namespace Sys2Proof.Machine

/-! ### The invariant -/

/-- Every general register holds no bit above `XLEN` (10_state.md R23) [log 15]. -/
def State.registersFit (s : State) : Prop := ∀ r : GReg, s.params.xlen.trunc s.gpr[r] = s.gpr[r]

/-- `pc` is a multiple of 4 within the address space (10_state.md R24). -/
def State.pcFits (s : State) : Prop := s.pc.toNat % 4 = 0 ∧ s.pc.toNat < 2 ^ s.params.xlen.bits

/-- FPRF holds a class by its name, never by its bits [log 14]. -/
def Fprf.canonical (c : Fprf) : Prop := Fprf.ofBits c.bits = c

/-- What every step keeps, reachable or not. -/
structure State.Inv (s : State) : Prop where
  memoryCanonical : s.mem.wf = true
  registersFit : s.registersFit
  pcFits : s.pcFits
  fprfCanonical : s.fpscr.fprf.canonical

/-! ### Launch -/

/-- Two ranges have no byte in common. -/
def Region.disjoint (r q : Region) : Bool := r.base + r.size ≤ q.base || q.base + q.size ≤ r.base || r.size = 0 || q.size = 0

/-- A launch state (70 R281): a program of whole instructions from a multiple of 4, `pc` at its first, admitted ranges
disjoint from it, everything within the address space. -/
structure State.Launch (s : State) : Prop where
  programAligned : s.program.base % 4 = 0
  programWhole : s.program.size % 4 = 0
  programFits : s.program.base + s.program.size ≤ 2 ^ s.params.xlen.bits
  atFirst : s.pc.toNat = s.program.base
  admittedDisjoint : s.admitted.all (fun r => r.disjoint s.program) = true
  inv : s.Inv

/-- VE = OE = UE = 0: "A launch premise with VE = OE = UE = 0 never reaches" an enabled exception (60 R252). -/
def State.enablesOff (s : State) : Prop := s.fpscr.ve = false ∧ s.fpscr.oe = false ∧ s.fpscr.ue = false

/-- The step completed. -/
def Completes (o : Out) : Prop := ∃ t, o = .next t

/-! ### The source's sequences -/

/-- Both `disp` and `disp + 4` lie in the range of a displacement field, so that the 16-bit sum of the two sequences is
the sum of numbers (30_encoding.md R74: "in C.1 and C.2 both `disp` and `disp+4` must lie in that range"). -/
def dispFits (disp : BitVec 16) : Prop := disp.toInt + 4 ≤ 32767

/-- C.1 (40 R100) with `fctiw`, or with `fctiwz` when `z`; the scratch doubleword at displacement `disp`, which must
fit (`dispFits`, 30_encoding.md R74). -/
def sequenceC1 (z : Bool) (disp : BitVec 16) : List Instr :=
  [if z then .fctiwz 2 1 else .fctiw 2 1, .stfd 2 disp 1, .lwz 3 (disp + 4#16) 1]

/-- C.2 (40 R102), `disp` as in C.1, the label `store` on the `stfd` line (90_conflicts.md C1). -/
def sequenceC2 (z : Bool) (disp : BitVec 16) : List Instr :=
  [.fmr 2 0, .fcmpu 2 1 0, .bl 2 9#14, .fmr 2 4, .fcmpu 2 1 3, .bgt 2 6#14, .fsub 2 1 5, .fcmpu 2 1 5] ++
  [.bnl 2 2#14, .fmr 2 1, if z then .fctiwz 2 2 else .fctiw 2 2, .stfd 2 disp 1, .lwz 3 (disp + 4#16) 1,
   .bl 2 2#14, .add 3 3 5]

/-- The bytes of a sequence of instructions as a program text. -/
def programBytes (is : List Instr) : List Byte := is.flatMap (fun i => wordBytes (encode i))

/-- The launch premise of C.1 (40 R101; 70 R282; 30_encoding.md R74): the displacements are in range, the scratch
doubleword is aligned and admitted, VE = 0. -/
structure LaunchC1 (disp : BitVec 16) (s : State) : Prop where
  displacementsFit : dispFits disp
  scratchAligned : (s.effectiveAddress 1 disp).toNat % 8 = 0
  scratchAdmitted : s.admits (s.effectiveAddress 1 disp).toNat 8 = true
  invalidDisabled : s.fpscr.ve = false

/-- The launch premise of C.2 (40 R112, R114; 70 R282). -/
structure LaunchC2 (disp : BitVec 16) (s : State) : Prop where
  scratch : LaunchC1 disp s
  zero : s.readF 0 = 0x0000000000000000#64
  twoTo32 : s.readF 3 = 0x41F0000000000000#64
  maxPattern : s.readF 4 = 0x000000007FFFFFFF#64
  twoTo31 : s.readF 5 = 0x41E0000000000000#64
  wordTwoTo31 : s.readX 5 = 0x80000000#64

/-! ### Rounding as a relation -/

/-- `r` is the integer that rounding `x / unit` gives under `mode`: the mode's definition (10_state.md R27) on numbers,
with no significand in it. To nearest: no other integer is nearer, and a tie goes to the even one. -/
def RoundsTo (mode : RoundMode) (x : Int) (unit : Nat) (r : Int) : Prop :=
  match mode with
  | .nearest => 2 * (x - r * unit).natAbs ≤ unit ∧ (2 * (x - r * unit).natAbs = unit → r % 2 = 0)
  | .zero => (r * unit).natAbs ≤ x.natAbs ∧ (x - r * unit).natAbs < unit ∧ 0 ≤ x * r
  | .posInf => x ≤ r * unit ∧ r * unit < x + unit
  | .negInf => r * unit ≤ x ∧ x < r * unit + unit

/-- The exact value (in units of 2^-1074) of `r` units was not `x`: the rounding discarded something. -/
def inexact (x : Int) (unit : Nat) (r : Int) : Bool := decide (r * unit ≠ x)

/-- The rounding made the magnitude larger. -/
def grew (x : Int) (unit : Nat) (r : Int) : Bool := decide (x.natAbs < (r * unit).natAbs)

/-! ### Frames -/

/-- The launch parameters are untouched: the OPEN parameters, the program's place, the admitted ranges. -/
def SameLaunch (s t : State) : Prop := t.params = s.params ∧ t.program = s.program ∧ t.admitted = s.admitted

/-- Every byte of memory reads as before. -/
def SameMemory (s t : State) : Prop := ∀ a, t.mem.read a = s.mem.read a

/-- Everything but the program counter is untouched. -/
structure OnlyPcMoves (s t : State) : Prop where
  fpr : ∀ j, t.readF j = s.readF j
  gpr : ∀ j, t.readX j = s.readX j
  cr : ∀ j, t.readCr j = s.readCr j
  fpscr : t.fpscr = s.fpscr
  mem : SameMemory s t
  launch : SameLaunch s t

/-- The frame of an instruction that writes the floating-point register `frt` and FPSCR status: every other register,
the control fields of the FPSCR and all of memory are untouched. -/
structure FloatFrame (frt : FReg) (s t : State) : Prop where
  fpr : ∀ j, j ≠ frt → t.readF j = s.readF j
  gpr : ∀ j, t.readX j = s.readX j
  cr : ∀ j, t.readCr j = s.readCr j
  rn : t.fpscr.rn = s.fpscr.rn
  ve : t.fpscr.ve = s.fpscr.ve
  oe : t.fpscr.oe = s.fpscr.oe
  ue : t.fpscr.ue = s.fpscr.ue
  mem : SameMemory s t
  launch : SameLaunch s t

/-- The frame of an instruction that writes the general register `rt` only. -/
structure IntegerFrame (rt : GReg) (s t : State) : Prop where
  gpr : ∀ j, j ≠ rt → t.readX j = s.readX j
  fpr : ∀ j, t.readF j = s.readF j
  cr : ∀ j, t.readCr j = s.readCr j
  fpscr : t.fpscr = s.fpscr
  mem : SameMemory s t
  launch : SameLaunch s t

/-- A conditional branch (40 R109 to R111, R116): taken, `pc` becomes its own address plus 4 x BD modulo 2^`XLEN`;
not taken, `pc + 4`; nothing else changes. -/
def BranchesOn (taken : Bool) (bd : BitVec 14) (s : State) (o : Out) : Prop :=
  (taken = true → ∃ t, o = .next t ∧ OnlyPcMoves s t ∧
    (t.pc.toNat : Int) = (s.pc.toNat + 4 * bd.toInt) % 2 ^ s.params.xlen.bits) ∧
  (taken = false → s.canAdvance = true → ∃ t, o = .next t ∧ OnlyPcMoves s t ∧ t.pc = s.pc + 4#64)

/-! ### Conversions, by what they convert to -/

/-- The conversion to an integer of the target width, with round toward zero when `z` (42_fcti.md R180). -/
def IntTarget.instr (tgt : IntTarget) (z : Bool) (frt frb : FReg) : Instr :=
  match tgt, z with
  | .word, false => .fctiw frt frb
  | .word, true => .fctiwz frt frb
  | .doubleword, false => .fctid frt frb
  | .doubleword, true => .fctidz frt frb

/-- The rounding mode in force: RN, or toward zero (42_fcti.md R180). -/
def convertMode (z : Bool) (f : Fpscr) : RoundMode := if z then .zero else f.mode

/-- The integer an FPR holds for a target width: `[32:63]` or all 64 bits (10_state.md R21(b), (c)). -/
def IntTarget.read (tgt : IntTarget) (v : Dword) : Int :=
  match tgt with
  | .word => (msbSlice v 32 32).toInt
  | .doubleword => v.toInt

/-- The table of 41_frsp.md R145: FRT, FPRF and FR by RN and sign. -/
def overflowTable : RoundMode → Bool → Dword × Fprf × Bool
  | .nearest, false => (0x7FF0000000000000#64, .posInfinity, false)
  | .nearest, true => (0xFFF0000000000000#64, .negInfinity, false)
  | .zero, false => (0x47EFFFFFE0000000#64, .posNormal, false)
  | .zero, true => (0xC7EFFFFFE0000000#64, .negNormal, false)
  | .posInf, false => (0x7FF0000000000000#64, .posInfinity, false)
  | .posInf, true => (0xC7EFFFFFE0000000#64, .negNormal, true)
  | .negInf, false => (0x47EFFFFFE0000000#64, .posNormal, false)
  | .negInf, true => (0xFFF0000000000000#64, .negInfinity, true)

/-- What `fsub` delivers when the rounded difference is out of range, by mode and sign (IEEE 754) [log 26]. -/
def doubleOverflowTable : RoundMode → Bool → Dword
  | .nearest, false => 0x7FF0000000000000#64
  | .nearest, true => 0xFFF0000000000000#64
  | .zero, false => 0x7FEFFFFFFFFFFFFF#64
  | .zero, true => 0xFFEFFFFFFFFFFFFF#64
  | .posInf, false => 0x7FF0000000000000#64
  | .posInf, true => 0xFFEFFFFFFFFFFFFF#64
  | .negInf, false => 0x7FEFFFFFFFFFFFFF#64
  | .negInf, true => 0xFFF0000000000000#64

/-- How an `fsub` of finite operands with the exact difference `d`, which has left `t`, ends (40 R107;
60_exceptions.md R252): it completes, or the model stops for OX or UX, each only where R107 lets this instruction set it
and its enable is 1. So it completes with the enables 0, and wherever neither bit can be set. -/
def FsubEnds (o : Out) (s t : State) (d : Int) : Prop :=
  t.pc = s.pc ∧
  (o = .next (t.setPc (s.pc + 4#64)) ∨
    (s.fpscr.oe = true ∧ t.fpscr.ox = true ∧ 2 ^ 2098 - 2 ^ 2044 ≤ d.natAbs ∧
      o = .fault (.fpEnabledException .ox t)) ∨
    (s.fpscr.ue = true ∧ t.fpscr.ux = true ∧ 0 < d.natAbs ∧ d.natAbs < 2 ^ 52 ∧
      o = .fault (.fpEnabledException .ux t))) ∧
  ((s.fpscr.oe = false ∨ d.natAbs < 2 ^ 2098 - 2 ^ 2044) → (s.fpscr.ue = false ∨ d = 0 ∨ 2 ^ 52 ≤ d.natAbs) →
    o = .next (t.setPc (s.pc + 4#64)))

/-- The class of a single-precision result: zero, denormalized (below 2^-126, 2^948 units), normal. -/
def singleClass (sign : Bool) (magnitude : Nat) : Fprf :=
  if magnitude = 0 then .zero sign else if magnitude < 2 ^ 948 then .denormalized sign else .normal sign

/-- An FPR as a real double (10_state.md R21(a)): sign, biased exponent with bias 1023, fraction; exponent field 0 has
no implicit 1 and the exponent -1022. -/
def dRat (v : Dword) : Rat :=
  (if v.getMsbD 0 then -1 else 1) *
    (if dExp v = 0 then ((dFrac v).toNat : Rat) / 2 ^ 52 * 2 ^ (-1022 : Int)
     else (1 + ((dFrac v).toNat : Rat) / 2 ^ 52) * 2 ^ ((dExp v : Int) - 1023))

/-- `s` with other values of VE, OE and UE. -/
def State.withEnables (s : State) (ve oe ue : Bool) : State :=
  { s with fpscr := { s.fpscr with ve := ve, oe := oe, ue := ue } }

/-- `s` with another rounding mode in `FPSCR[RN]`. -/
def State.withRn (s : State) (rn : BitVec 2) : State := { s with fpscr := { s.fpscr with rn := rn } }

end Sys2Proof.Machine
end

