-- ==== Sys2Proof/Certificates/Slice0/Obligations.lean ====
section
/-! DEFINITION. The statements for the provers. Each docstring names the rule of spec/ it formalises. Values of doubles
are in units of 2^-1074 (`dValue`, `dOne`). -/

open Sys2Proof Sys2Proof.Machine

/-! ### Encoding and fetch -/

/-- Decode of encode gives the instruction back, every operand at every value (30_encoding.md R72 to R75). -/
def Obligations.DecodeOfEncodeIsTheInstruction : Prop :=
  ∀ (p : Params) (i : Instr), i.wf p = true → decodeWord p.hasFp64Int (encode i) = .instr i

/-- A word decodes to no instruction but the one it encodes, and only to one that exists (30_encoding.md R76, R77). -/
def Obligations.DecodedWordIsItsEncoding : Prop :=
  ∀ (p : Params) (w : Word) (i : Instr), decodeWord p.hasFp64Int w = .instr i → encode i = w ∧ i.wf p = true

/-- A word that matches a row of the opcode table decodes to an instruction when the doubleword conversions exist
(30_encoding.md R75). -/
def Obligations.TableWordsDecode : Prop :=
  ∀ (w : Word) (row : OpcodeRow), row ∈ opcodeTable → w &&& row.mask = row.value →
    ∃ i, decodeWord true w = .instr i

/-- A word that matches no row is refused, by the decoder and by the step that fetches it (30_encoding.md R76). -/
def Obligations.WordsOutsideTheTableAreRefused : Prop :=
  ∀ (s : State) (w : Word), (∀ row ∈ opcodeTable, w &&& row.mask ≠ row.value) →
    ∃ why, decodeWord s.params.hasFp64Int w = .refused why ∧
      (s.fetch = .next w → step s = .refused (.badWord w why))

/-- The refused forms (30_encoding.md R77): Rc = 1; OE = 1; AA = 1 or LK = 1; a reserved field that is not 0; another
BO; a BI that selects EQ or UN. -/
def Obligations.VariantFormsAreRefused : Prop :=
  ∀ (has : Bool) (w : Word),
    (msbSlice w 0 6 = 63#6 ∧ msbSlice w 31 1 = 1#1) ∨
    (msbSlice w 0 6 = 31#6 ∧ msbSlice w 22 9 = 266#9 ∧ (msbSlice w 21 1 = 1#1 ∨ msbSlice w 31 1 = 1#1)) ∨
    (msbSlice w 0 6 = 16#6 ∧ (msbSlice w 30 1 = 1#1 ∨ msbSlice w 31 1 = 1#1)) ∨
    (msbSlice w 0 6 = 63#6 ∧ msbSlice w 21 10 ∈ [12#10, 14#10, 15#10, 814#10, 815#10, 846#10, 72#10] ∧
      msbSlice w 11 5 ≠ 0#5) ∨
    (msbSlice w 0 6 = 63#6 ∧ msbSlice w 21 10 = 0#10 ∧ msbSlice w 9 2 ≠ 0#2) ∨
    (msbSlice w 0 6 = 63#6 ∧ msbSlice w 26 5 = 20#5 ∧ msbSlice w 21 5 ≠ 0#5) ∨
    (msbSlice w 0 6 = 16#6 ∧ msbSlice w 6 5 ≠ 0b01100#5 ∧ msbSlice w 6 5 ≠ 0b00100#5) ∨
    (msbSlice w 0 6 = 16#6 ∧ (msbSlice w 14 2 = 2#2 ∨ msbSlice w 14 2 = 3#2)) →
    ∃ why, decodeWord has w = .refused why

/-- Words of 95_test_vectors.md sections 6 and 7, one or more of each family, stand for their instructions. -/
def Obligations.SpecWordsDecode : Prop :=
  decodeWord true 0xD841FFF8#32 = .instr (.stfd 2 (-8) 1) ∧
  decodeWord true 0x8061000C#32 = .instr (.lwz 3 12 1) ∧
  decodeWord true 0xFC402090#32 = .instr (.fmr 2 4) ∧
  decodeWord true 0xFF811000#32 = .instr (.fcmpu 7 1 2) ∧
  decodeWord true 0xFC412828#32 = .instr (.fsub 2 1 5) ∧
  decodeWord true 0x7C632A14#32 = .instr (.add 3 3 5) ∧
  decodeWord true 0x41890018#32 = .instr (.bgt 2 6) ∧
  decodeWord true 0x40880008#32 = .instr (.bnl 2 2) ∧
  decodeWord true 0xFC40081E#32 = .instr (.fctiwz 2 1) ∧
  decodeWord true 0xFC60165E#32 = .instr (.fctidz 3 2) ∧
  decodeWord true 0xFC20069C#32 = .instr (.fcfid 1 0) ∧
  decodeWord true 0xFC400818#32 = .instr (.frsp 2 1)

/-- A step at an aligned `pc` inside the program runs the instruction the word there decodes to, and adds nothing
around it (60_exceptions.md R256; 20_memory.md R51). -/
def Obligations.StepRunsTheDecodedInstruction : Prop :=
  ∀ (s : State) (i : Instr), s.pc.toNat % 4 = 0 → s.inProgram = true →
    decodeWord s.params.hasFp64Int (s.mem.readWord s.pc.toNat) = .instr i → step s = exec i s

/-- The launch of a one-word program: the word placed at `pc` is the next one fetched (70 R281(a), (b) [log 7]). -/
def Obligations.PlacedWordIsFetched : Prop :=
  ∀ (s : State) (w : Word), s.mem.wf = true → (s.placeWord w).fetch = .next w ∧ (s.Inv → (s.placeWord w).Inv)

/-- At the address just past the last instruction the run ends; elsewhere outside the program the step is refused
(70 R285). -/
def Obligations.RunEndsOrIsRefusedOutsideTheProgram : Prop :=
  ∀ s : State, s.pc.toNat % 4 = 0 →
    (s.pc.toNat = s.program.base + s.program.size → step s = .fault .endOfRun) ∧
    (s.pc.toNat ≠ s.program.base + s.program.size →
      (s.pc.toNat < s.program.base ∨ s.program.base + s.program.size < s.pc.toNat + 4) →
      step s = .refused (.outsideProgram s.pc))

/-- A misaligned store, load or instruction address is a fault (20_memory.md R52). That a misaligned `pc` outside the
program, or at its end, is the fault and not the refusal is the model's order of the fetch checks [log 19]. -/
def Obligations.MisalignedAccessesFault : Prop :=
  ∀ (s : State) (r : FReg) (x ra : GReg) (d : BitVec 16),
    (s.canAdvance = true → (s.effectiveAddress ra d).toNat % 8 ≠ 0 →
      exec (.stfd r d ra) s = .fault (.misaligned (s.effectiveAddress ra d).toNat 8)) ∧
    (s.canAdvance = true → (s.effectiveAddress ra d).toNat % 4 ≠ 0 →
      exec (.lwz x d ra) s = .fault (.misaligned (s.effectiveAddress ra d).toNat 4)) ∧
    (s.pc.toNat % 4 ≠ 0 → step s = .fault (.misaligned s.pc.toNat 4))

/-- `pc + 4` past the top of the address space is refused before any effect (10_state.md R24, and the model's order
[log 10]). -/
def Obligations.WrappingAdvanceIsRefused : Prop :=
  ∀ (i : Instr) (s : State), s.canAdvance = false →
    (∀ n bd, i = .bl n bd → (s.readCr n).lt = false) →
    (∀ n bd, i = .bgt n bd → (s.readCr n).gt = false) →
    (∀ n bd, i = .bnl n bd → (s.readCr n).lt = true) →
    exec i s = .refused (.pcWraps s.pc)

/-! ### Integer, storage and branch instructions -/

/-- `add` (40 R108): the sum modulo 2^`XLEN`, no flag. -/
def Obligations.AddSumsModuloXlen : Prop :=
  ∀ (rt ra rb : GReg) (s : State), s.canAdvance = true →
    ∃ t, exec (.add rt ra rb) s = .next t ∧
      (t.readX rt).toNat = ((s.readX ra).toNat + (s.readX rb).toNat) % 2 ^ s.params.xlen.bits ∧
      IntegerFrame rt s t ∧ t.pc = s.pc + 4#64

/-- The D-form address (40 R117): base register 0 is the value 0, the displacement signed, modulo 2^`XLEN`. -/
def Obligations.EffectiveAddressIsBasePlusDisplacement : Prop :=
  ∀ (s : State) (ra : GReg) (d : BitVec 16),
    ((s.effectiveAddress ra d).toNat : Int) =
      ((if ra = 0 then 0 else ((s.readX ra).toNat : Int)) + d.toInt) % 2 ^ s.params.xlen.bits

/-- `stfd` (40 R103): alignment, then mapping, then the eight bytes, most significant at the lowest address; nothing
else changes. -/
def Obligations.StfdStoresTheDoubleword : Prop :=
  ∀ (frs : FReg) (d : BitVec 16) (ra : GReg) (s : State), s.canAdvance = true → s.mem.wf = true →
    let ea := (s.effectiveAddress ra d).toNat
    (ea % 8 ≠ 0 → exec (.stfd frs d ra) s = .fault (.misaligned ea 8)) ∧
    (ea % 8 = 0 → (∃ k < 8, s.admitsByte (ea + k) = false) →
      exec (.stfd frs d ra) s = .fault (.unmapped ea 8)) ∧
    (ea % 8 = 0 → (∀ k < 8, s.admitsByte (ea + k) = true) →
      ∃ t, exec (.stfd frs d ra) s = .next t ∧
        (∀ k < 8, t.mem.read (ea + k) = msbSlice (s.readF frs) (8 * k) 8) ∧
        (∀ a, (a < ea ∨ ea + 8 ≤ a) → t.mem.read a = s.mem.read a) ∧
        (∀ j, t.readF j = s.readF j) ∧ (∀ j, t.readX j = s.readX j) ∧ (∀ j, t.readCr j = s.readCr j) ∧
        t.fpscr = s.fpscr ∧ SameLaunch s t ∧ t.pc = s.pc + 4#64)

/-- `lwz` (40 R104): alignment, then mapping, then the big-endian word, zero-extended, from the address formed before
the write. -/
def Obligations.LwzLoadsTheWord : Prop :=
  ∀ (rt : GReg) (d : BitVec 16) (ra : GReg) (s : State), s.canAdvance = true →
    let ea := (s.effectiveAddress ra d).toNat
    (ea % 4 ≠ 0 → exec (.lwz rt d ra) s = .fault (.misaligned ea 4)) ∧
    (ea % 4 = 0 → (∃ k < 4, s.admitsByte (ea + k) = false) →
      exec (.lwz rt d ra) s = .fault (.unmapped ea 4)) ∧
    (ea % 4 = 0 → (∀ k < 4, s.admitsByte (ea + k) = true) →
      ∃ t, exec (.lwz rt d ra) s = .next t ∧
        (t.readX rt).toNat = (s.mem.read ea).toNat * 2 ^ 24 + (s.mem.read (ea + 1)).toNat * 2 ^ 16 +
          (s.mem.read (ea + 2)).toNat * 2 ^ 8 + (s.mem.read (ea + 3)).toNat ∧
        IntegerFrame rt s t ∧ t.pc = s.pc + 4#64)

/-- A word load after a doubleword store to bytes that include it returns the stored bytes (20_memory.md R56, R50). -/
def Obligations.LoadAfterStoreReturnsTheStoredWord : Prop :=
  ∀ (frs : FReg) (rt ra rb : GReg) (d e : BitVec 16) (s t u : State), s.mem.wf = true →
    exec (.stfd frs d ra) s = .next t → exec (.lwz rt e rb) t = .next u →
    ((t.effectiveAddress rb e).toNat = (s.effectiveAddress ra d).toNat →
      u.readX rt = (msbSlice (s.readF frs) 0 32).setWidth 64) ∧
    ((t.effectiveAddress rb e).toNat = (s.effectiveAddress ra d).toNat + 4 →
      u.readX rt = (msbSlice (s.readF frs) 32 32).setWidth 64)

/-- `bl`, branch if less than (40 R109). -/
def Obligations.BlBranchesIfLessThan : Prop :=
  ∀ (n : CrIdx) (bd : BitVec 14) (s : State), BranchesOn (s.readCr n).lt bd s (exec (.bl n bd) s)

/-- `bgt` (40 R110). -/
def Obligations.BgtBranchesIfGreaterThan : Prop :=
  ∀ (n : CrIdx) (bd : BitVec 14) (s : State), BranchesOn (s.readCr n).gt bd s (exec (.bgt n bd) s)

/-- `bnl`, branch if not less than (40 R111). -/
def Obligations.BnlBranchesIfNotLessThan : Prop :=
  ∀ (n : CrIdx) (bd : BitVec 14) (s : State), BranchesOn (!(s.readCr n).lt) bd s (exec (.bnl n bd) s)

/-! ### fmr, fcmpu, fsub -/

/-- `fmr` (40 R105): all 64 bits, the FPSCR untouched. -/
def Obligations.FmrCopiesAllBits : Prop :=
  ∀ (frt frb : FReg) (s : State), s.canAdvance = true →
    ∃ t, exec (.fmr frt frb) s = .next t ∧ t.readF frt = s.readF frb ∧ t.fpscr = s.fpscr ∧
      FloatFrame frt s t ∧ t.pc = s.pc + 4#64

/-- The value the model compares, subtracts and rounds is the double of 10_state.md R21(a), in units of 2^-1074. -/
def Obligations.DoubleValueIsTheDouble : Prop :=
  ∀ v : Dword, isFinite v = true → ((dValue v : Int) : Rat) = dRat v * 2 ^ 1074

/-- `fcmpu` (40 R106): the relation of the operands as doubles, an infinity beyond every finite value; FPRF is drawn,
VXSNAN set for an SNaN, the fault when VE = 1. -/
def Obligations.FcmpuRecordsTheRelation : Prop :=
  ∀ (bf : CrIdx) (fra frb : FReg) (s : State), s.canAdvance = true →
    let a := s.readF fra
    let b := s.readF frb
    let snan := isSNaN a || isSNaN b
    ∃ t, (∀ j, j ≠ bf → t.readCr j = s.readCr j) ∧
      ((isNaN a = true ∨ isNaN b = true) → t.readCr bf = ⟨false, false, false, true⟩) ∧
      (isNaN a = false → isNaN b = false → dValue a < dValue b → t.readCr bf = ⟨true, false, false, false⟩) ∧
      (isNaN a = false → isNaN b = false → dValue b < dValue a → t.readCr bf = ⟨false, true, false, false⟩) ∧
      (isNaN a = false → isNaN b = false → dValue a = dValue b → t.readCr bf = ⟨false, false, true, false⟩) ∧
      t.fpscr = { s.fpscr with vxsnan := s.fpscr.vxsnan || snan, fprf := t.fpscr.fprf } ∧
      (∀ j, t.readF j = s.readF j) ∧ (∀ j, t.readX j = s.readX j) ∧ SameMemory s t ∧ SameLaunch s t ∧
      ((s.fpscr.ve && snan) = false → exec (.fcmpu bf fra frb) s = .next (t.setPc (s.pc + 4#64))) ∧
      ((s.fpscr.ve && snan) = true →
        exec (.fcmpu bf fra frb) s = .fault (.fpEnabledException .vxsnan t) ∧ t.pc = s.pc)

/-- `fsub` of finite operands rounds the exact difference to 53 bits under RN, and to a multiple of 2^-1074; XX, OX, UX
change only from 0 to 1, each under its condition (40 R107). A bit that is set while its enable is 1 stops the model. -/
def Obligations.FsubRoundsTheExactDifference : Prop :=
  ∀ (frt fra frb : FReg) (s : State) (r : Int), s.canAdvance = true →
    isFinite (s.readF fra) = true → isFinite (s.readF frb) = true →
    let d := dValue (s.readF fra) - dValue (s.readF frb)
    let unit := 2 ^ (d.natAbs.log2 - 52)
    d ≠ 0 → RoundsTo s.fpscr.mode d unit r → (r * unit).natAbs < 2 ^ 2098 →
    ∃ t, isFinite (t.readF frt) = true ∧ dValue (t.readF frt) = r * unit ∧ dSign (t.readF frt) = decide (d < 0) ∧
      t.fpscr = { s.fpscr with xx := t.fpscr.xx, ox := t.fpscr.ox, ux := t.fpscr.ux, fr := t.fpscr.fr,
                               fi := t.fpscr.fi, fprf := t.fpscr.fprf } ∧
      (t.fpscr.xx ≠ s.fpscr.xx → t.fpscr.xx = true ∧ inexact d unit r = true) ∧
      (t.fpscr.ox ≠ s.fpscr.ox → t.fpscr.ox = true ∧ 2 ^ 2098 - 2 ^ 2044 ≤ d.natAbs) ∧
      (t.fpscr.ux ≠ s.fpscr.ux → t.fpscr.ux = true ∧ d.natAbs < 2 ^ 52) ∧
      FloatFrame frt s t ∧ FsubEnds (exec (.fsub frt fra frb) s) s t d

/-- `fsub` whose rounded difference is out of range: an infinity, or the largest double of the sign, by RN
(40 R107: "IEEE 754 double" [log 26]). -/
def Obligations.FsubOutOfRange : Prop :=
  ∀ (frt fra frb : FReg) (s : State) (r : Int), s.canAdvance = true →
    isFinite (s.readF fra) = true → isFinite (s.readF frb) = true →
    let d := dValue (s.readF fra) - dValue (s.readF frb)
    let unit := 2 ^ (d.natAbs.log2 - 52)
    RoundsTo s.fpscr.mode d unit r → 2 ^ 2098 ≤ (r * unit).natAbs →
    ∃ t, t.readF frt = doubleOverflowTable s.fpscr.mode (decide (d < 0)) ∧
      t.fpscr = { s.fpscr with xx := t.fpscr.xx, ox := t.fpscr.ox, fr := t.fpscr.fr, fi := t.fpscr.fi,
                               fprf := t.fpscr.fprf } ∧
      (t.fpscr.xx ≠ s.fpscr.xx → t.fpscr.xx = true) ∧
      (t.fpscr.ox ≠ s.fpscr.ox → t.fpscr.ox = true ∧ 2 ^ 2098 - 2 ^ 2044 ≤ d.natAbs) ∧
      FloatFrame frt s t ∧ FsubEnds (exec (.fsub frt fra frb) s) s t d

/-- `fsub` whose exact difference is itself a double in the normal range delivers it, whatever RN and the enables, and
changes no sticky bit (40 R107). -/
def Obligations.FsubExactDifferenceChangesNoStickyBit : Prop :=
  ∀ (frt fra frb : FReg) (s : State) (c : Dword), s.canAdvance = true →
    isFinite (s.readF fra) = true → isFinite (s.readF frb) = true → isFinite c = true →
    dValue c = dValue (s.readF fra) - dValue (s.readF frb) → 2 ^ 52 ≤ (dValue c).natAbs →
    ∃ t, exec (.fsub frt fra frb) s = .next t ∧ t.readF frt = c ∧
      t.fpscr = { s.fpscr with fr := t.fpscr.fr, fi := t.fpscr.fi, fprf := t.fpscr.fprf } ∧
      FloatFrame frt s t ∧ t.pc = s.pc + 4#64

/-- `fsub` of equal finite values: +0, or -0 under RN = 0b11; no sticky bit changes (40 R107, 93 G8). The sign for
zeros of opposite signs is the spec's words, not IEEE 754's [log 13]. -/
def Obligations.FsubExactZero : Prop :=
  ∀ (frt fra frb : FReg) (s : State), s.canAdvance = true →
    isFinite (s.readF fra) = true → isFinite (s.readF frb) = true →
    dValue (s.readF fra) = dValue (s.readF frb) →
    ∃ t, exec (.fsub frt fra frb) s = .next t ∧
      t.readF frt = (if s.fpscr.rn = 0b11#2 then 0x8000000000000000#64 else 0#64) ∧
      t.fpscr = { s.fpscr with fr := t.fpscr.fr, fi := t.fpscr.fi, fprf := t.fpscr.fprf } ∧
      FloatFrame frt s t ∧ t.pc = s.pc + 4#64

/-- `fsub` with a NaN or an infinite operand (40 R107): the first NaN quieted, VXSNAN for an SNaN, the fault when
VE = 1; infinity minus the same infinity; an infinity decides otherwise. -/
def Obligations.FsubSpecialOperands : Prop :=
  ∀ (frt fra frb : FReg) (s : State), s.canAdvance = true →
    let a := s.readF fra
    let b := s.readF frb
    let snan := isSNaN a || isSNaN b
    (isFinite a && isFinite b) = false →
    ∃ t, (isNaN a = true → t.readF frt = a ||| 0x0008000000000000#64) ∧
      (isNaN a = false → isNaN b = true → t.readF frt = b ||| 0x0008000000000000#64) ∧
      (isInf a = true → isInf b = true → dSign a = dSign b → t.readF frt = 0x7FF8000000000000#64) ∧
      (isInf a = true → isNaN b = false → (isInf b = true → dSign a ≠ dSign b) → t.readF frt = a) ∧
      (isFinite a = true → isInf b = true → isInf (t.readF frt) = true ∧ dSign (t.readF frt) = !dSign b) ∧
      t.fpscr = { s.fpscr with vxsnan := s.fpscr.vxsnan || snan, fr := t.fpscr.fr, fi := t.fpscr.fi,
                               fprf := t.fpscr.fprf } ∧
      FloatFrame frt s t ∧
      ((s.fpscr.ve && snan) = false → exec (.fsub frt fra frb) s = .next (t.setPc (s.pc + 4#64))) ∧
      ((s.fpscr.ve && snan) = true →
        exec (.fsub frt fra frb) s = .fault (.fpEnabledException .vxsnan t) ∧ t.pc = s.pc)

/-! ### frsp -/

/-- Zero Operand (41_frsp.md R147). -/
def Obligations.FrspOfZero : Prop :=
  ∀ (frt frb : FReg) (s : State), s.canAdvance = true → msbSlice (s.readF frb) 1 63 = 0#63 →
    ∃ t, exec (.frsp frt frb) s = .next t ∧ t.readF frt = s.readF frb ∧
      t.fpscr = { s.fpscr with fprf := if dSign (s.readF frb) then .negZero else .posZero, fr := false, fi := false } ∧
      FloatFrame frt s t ∧ t.pc = s.pc + 4#64

/-- Infinity Operand (41_frsp.md R148): FR and FI both unchanged or both 0. -/
def Obligations.FrspOfInfinity : Prop :=
  ∀ (frt frb : FReg) (s : State), s.canAdvance = true → isInf (s.readF frb) = true →
    let cls : Fprf := if dSign (s.readF frb) then .negInfinity else .posInfinity
    ∃ t, exec (.frsp frt frb) s = .next t ∧ t.readF frt = s.readF frb ∧
      (t.fpscr = { s.fpscr with fprf := cls } ∨ t.fpscr = { s.fpscr with fprf := cls, fr := false, fi := false }) ∧
      FloatFrame frt s t ∧ t.pc = s.pc + 4#64

/-- QNaN Operand (41_frsp.md R149). -/
def Obligations.FrspOfQuietNaN : Prop :=
  ∀ (frt frb : FReg) (s : State), s.canAdvance = true → isNaN (s.readF frb) = true → dQuiet (s.readF frb) = true →
    ∃ t, exec (.frsp frt frb) s = .next t ∧ msbSlice (t.readF frt) 0 35 = msbSlice (s.readF frb) 0 35 ∧
      msbSlice (t.readF frt) 35 29 = 0#29 ∧
      t.fpscr = { s.fpscr with fprf := .qnan, fr := false, fi := false } ∧
      FloatFrame frt s t ∧ t.pc = s.pc + 4#64

/-- SNaN Operand (41_frsp.md R150): quieted and truncated when VE = 0; not written, then the fault, when VE = 1. -/
def Obligations.FrspOfSignallingNaN : Prop :=
  ∀ (frt frb : FReg) (s : State), s.canAdvance = true → isSNaN (s.readF frb) = true →
    (s.fpscr.ve = false →
      ∃ t, exec (.frsp frt frb) s = .next t ∧ msbSlice (t.readF frt) 0 12 = msbSlice (s.readF frb) 0 12 ∧
        (t.readF frt).getMsbD 12 = true ∧ msbSlice (t.readF frt) 13 22 = msbSlice (s.readF frb) 13 22 ∧
        msbSlice (t.readF frt) 35 29 = 0#29 ∧
        t.fpscr = { s.fpscr with vxsnan := true, fprf := .qnan, fr := false, fi := false } ∧
        FloatFrame frt s t ∧ t.pc = s.pc + 4#64) ∧
    (s.fpscr.ve = true →
      ∃ t, exec (.frsp frt frb) s = .fault (.fpEnabledException .vxsnan t) ∧ t.readF frt = s.readF frt ∧
        t.fpscr = { s.fpscr with vxsnan := true, fr := false, fi := false } ∧
        FloatFrame frt s t ∧ t.pc = s.pc)

/-- `frsp` of a finite operand whose rounded value is in range is correctly rounded (41_frsp.md R143, R151 to R154):
to 24 bits under RN, or to a multiple of 2^-149 below 2^-126 when UE = 0; XX and (below 2^-126) UX if inexact. -/
def Obligations.FrspRoundsCorrectly : Prop :=
  ∀ (frt frb : FReg) (s : State) (r : Int), s.canAdvance = true → isFinite (s.readF frb) = true →
    let x := dValue (s.readF frb)
    let unit := 2 ^ max 925 (x.natAbs.log2 - 23)
    let tiny := decide (x.natAbs < 2 ^ 948)
    x ≠ 0 → (s.fpscr.ue && tiny) = false → RoundsTo s.fpscr.mode x unit r → (r * unit).natAbs < 2 ^ 1202 →
    ∃ t, exec (.frsp frt frb) s = .next t ∧ isFinite (t.readF frt) = true ∧ dValue (t.readF frt) = r * unit ∧
      dSign (t.readF frt) = dSign (s.readF frb) ∧
      t.fpscr = { s.fpscr with fr := grew x unit r, fi := inexact x unit r, xx := s.fpscr.xx || inexact x unit r,
                               ux := s.fpscr.ux || (tiny && inexact x unit r),
                               fprf := singleClass (dSign (s.readF frb)) (r * unit).natAbs } ∧
      FloatFrame frt s t ∧ t.pc = s.pc + 4#64

/-- Disabled Exponent Overflow (41_frsp.md R145): rounded magnitude at or beyond 2^128 with OE = 0, the printed table;
FR is the table's unless `FRSP_OVF_FR_DRAW`. -/
def Obligations.FrspDisabledOverflowTable : Prop :=
  ∀ (frt frb : FReg) (s : State) (r : Int), s.canAdvance = true → isFinite (s.readF frb) = true →
    s.fpscr.oe = false →
    let x := dValue (s.readF frb)
    let unit := 2 ^ (x.natAbs.log2 - 23)
    let row := overflowTable s.fpscr.mode (dSign (s.readF frb))
    -- an operand at or beyond 2^128 before rounding, or one that rounds up to it
    (2 ^ 1202 ≤ x.natAbs ∨ (RoundsTo s.fpscr.mode x unit r ∧ 2 ^ 1202 ≤ (r * unit).natAbs)) →
    ∃ t, exec (.frsp frt frb) s = .next t ∧ t.readF frt = row.1 ∧
      t.fpscr = { s.fpscr with ox := true, xx := true, fi := true, fr := t.fpscr.fr, fprf := row.2.1 } ∧
      (s.params.frspOvfFrDraw = false → t.fpscr.fr = row.2.2) ∧
      FloatFrame frt s t ∧ t.pc = s.pc + 4#64

/-- Enabled Exponent Underflow (41_frsp.md R144): rounded to 24 bits, exponent raised by 192, UX always; then the fault
of R155 with that state. -/
def Obligations.FrspEnabledUnderflowScalesUp : Prop :=
  ∀ (frt frb : FReg) (s : State) (r : Int), s.canAdvance = true → isFinite (s.readF frb) = true →
    s.fpscr.ue = true →
    let x := dValue (s.readF frb)
    let unit := 2 ^ (x.natAbs.log2 - 23)
    x ≠ 0 → x.natAbs < 2 ^ 948 → RoundsTo s.fpscr.mode x unit r →
    ∃ t, exec (.frsp frt frb) s = .fault (.fpEnabledException .ux t) ∧
      dValue (t.readF frt) = r * unit * 2 ^ 192 ∧
      t.fpscr = { s.fpscr with ux := true, xx := s.fpscr.xx || inexact x unit r, fr := grew x unit r,
                               fi := inexact x unit r, fprf := .normal (dSign (s.readF frb)) } ∧
      FloatFrame frt s t ∧ t.pc = s.pc

/-- Enabled Exponent Overflow (41_frsp.md R146): rounded to 24 bits, exponent lowered by 192, OX always; then the fault
of R155 with that state. -/
def Obligations.FrspEnabledOverflowScalesDown : Prop :=
  ∀ (frt frb : FReg) (s : State) (r : Int), s.canAdvance = true → isFinite (s.readF frb) = true →
    s.fpscr.oe = true →
    let x := dValue (s.readF frb)
    let unit := 2 ^ (x.natAbs.log2 - 23)
    RoundsTo s.fpscr.mode x unit r → 2 ^ 1202 ≤ (r * unit).natAbs →
    ∃ t, exec (.frsp frt frb) s = .fault (.fpEnabledException .ox t) ∧
      dValue (t.readF frt) * 2 ^ 192 = r * unit ∧
      t.fpscr = { s.fpscr with ox := true, xx := s.fpscr.xx || inexact x unit r, fr := grew x unit r,
                               fi := inexact x unit r, fprf := .normal (dSign (s.readF frb)) } ∧
      FloatFrame frt s t ∧ t.pc = s.pc

/-- Every `frsp` that completes leaves a pattern whose low 29 fraction bits are 0 (41_frsp.md R140, 10_state.md R22). -/
def Obligations.FrspResultHasSingleFraction : Prop :=
  ∀ (frt frb : FReg) (s t : State), exec (.frsp frt frb) s = .next t → msbSlice (t.readF frt) 35 29 = 0#29

/-- `frsp` of what a completed `frsp` delivered, in the same rounding mode, delivers it again (41_frsp.md R143: an
operand that is a single-precision number is returned unchanged; R151): every field of the FPSCR but FR and FI keeps its
value, FPRF among them, and FR = FI = 0 unless the pattern is an infinity (R148). -/
def Obligations.FrspIsIdempotent : Prop :=
  ∀ (f g h : FReg) (s t : State), exec (.frsp g f) s = .next t → t.canAdvance = true → t.fpscr.ue = false →
    ∃ u, exec (.frsp h g) t = .next u ∧ u.readF h = t.readF g ∧
      u.fpscr = { t.fpscr with fr := u.fpscr.fr, fi := u.fpscr.fi } ∧
      (isInf (t.readF g) = false → u.fpscr.fr = false ∧ u.fpscr.fi = false) ∧
      FloatFrame h t u ∧ u.pc = t.pc + 4#64

/-! ### Conversions to integer -/

/-- The four conversions to integer round the operand to an integer and deliver it when it fits (42_fcti.md R182 to
R187, R194): `fctiw`, `fctiwz` in `[32:63]`, `fctid`, `fctidz` in all 64 bits. -/
def Obligations.ConvertToIntegerRounds : Prop :=
  ∀ (tgt : IntTarget) (z : Bool) (frt frb : FReg) (s : State) (r : Int), s.canAdvance = true →
    isFinite (s.readF frb) = true →
    let x := dValue (s.readF frb)
    RoundsTo (convertMode z s.fpscr) x dOne r → tgt.min ≤ r → r ≤ tgt.max →
    ∃ t, exec (tgt.instr z frt frb) s = .next t ∧ tgt.read (t.readF frt) = r ∧
      t.fpscr = { s.fpscr with xx := s.fpscr.xx || inexact x dOne r, fr := grew x dOne r, fi := inexact x dOne r,
                               fprf := t.fpscr.fprf } ∧
      FloatFrame frt s t ∧ t.pc = s.pc + 4#64

/-- Large Operand with VE = 0 (42_fcti.md R186, R191, R183): an operand that rounds outside the target range gives the
nearest end of the range, FR = FI = 0, VXCVI; XX too when its magnitude is below 2^64 and it is no integer. -/
def Obligations.ConvertToIntegerSaturates : Prop :=
  ∀ (tgt : IntTarget) (z : Bool) (frt frb : FReg) (s : State) (r : Int), s.canAdvance = true →
    s.fpscr.ve = false → isFinite (s.readF frb) = true →
    let x := dValue (s.readF frb)
    RoundsTo (convertMode z s.fpscr) x dOne r → (r < tgt.min ∨ tgt.max < r) →
    ∃ t, exec (tgt.instr z frt frb) s = .next t ∧
      tgt.read (t.readF frt) = (if r < tgt.min then tgt.min else tgt.max) ∧
      t.fpscr = { s.fpscr with vxcvi := true, fr := false, fi := false,
                               xx := s.fpscr.xx || (decide (x.natAbs < 2 ^ 64 * dOne) && inexact x dOne r),
                               fprf := t.fpscr.fprf } ∧
      FloatFrame frt s t ∧ t.pc = s.pc + 4#64

/-- Infinity Operand with VE = 0 (42_fcti.md R188): the end of the range by the sign. -/
def Obligations.ConvertInfinitySaturates : Prop :=
  ∀ (tgt : IntTarget) (z : Bool) (frt frb : FReg) (s : State), s.canAdvance = true → s.fpscr.ve = false →
    isInf (s.readF frb) = true →
    ∃ t, exec (tgt.instr z frt frb) s = .next t ∧
      tgt.read (t.readF frt) = (if dSign (s.readF frb) then tgt.min else tgt.max) ∧
      t.fpscr = { s.fpscr with vxcvi := true, fr := false, fi := false, fprf := t.fpscr.fprf } ∧
      FloatFrame frt s t ∧ t.pc = s.pc + 4#64

/-- SNaN and QNaN Operand with VE = 0 (42_fcti.md R189, R190): the least integer, whatever the sign; VXSNAN only for an
SNaN. -/
def Obligations.ConvertNaNGivesTheLeastInteger : Prop :=
  ∀ (tgt : IntTarget) (z : Bool) (frt frb : FReg) (s : State), s.canAdvance = true → s.fpscr.ve = false →
    isNaN (s.readF frb) = true →
    ∃ t, exec (tgt.instr z frt frb) s = .next t ∧ tgt.read (t.readF frt) = tgt.min ∧
      t.fpscr = { s.fpscr with vxcvi := true, vxsnan := s.fpscr.vxsnan || !dQuiet (s.readF frb), fr := false,
                               fi := false, fprf := t.fpscr.fprf } ∧
      FloatFrame frt s t ∧ t.pc = s.pc + 4#64

/-- The invalid operands with VE = 1 (42_fcti.md R199, R200; 60_exceptions.md R255(a)): FRT and FPRF keep their values,
FR = FI = 0, XX as R183 leaves it, and the model stops with the fault that names VXCVI. -/
def Obligations.ConvertInvalidEnabledStops : Prop :=
  ∀ (tgt : IntTarget) (z : Bool) (frt frb : FReg) (s : State), s.canAdvance = true → s.fpscr.ve = true →
    let x := dValue (s.readF frb)
    (isFinite (s.readF frb) = false ∨ ∃ r, RoundsTo (convertMode z s.fpscr) x dOne r ∧ (r < tgt.min ∨ tgt.max < r)) →
    ∃ t, exec (tgt.instr z frt frb) s = .fault (.fpEnabledException .vxcvi t) ∧
      (∀ j, t.readF j = s.readF j) ∧
      t.fpscr = { s.fpscr with vxcvi := true, vxsnan := s.fpscr.vxsnan || isSNaN (s.readF frb), fr := false,
                               fi := false,
                               xx := s.fpscr.xx || (isFinite (s.readF frb) && decide (x.natAbs < 2 ^ 64 * dOne) &&
                                 decide (x % dOne ≠ 0)) } ∧
      FloatFrame frt s t ∧ t.pc = s.pc

/-- `fctiwz` and `fctidz` do not read RN, and always write FR = 0 (42_fcti.md R196, R198). -/
def Obligations.ConvertTowardZeroIgnoresRn : Prop :=
  ∀ (tgt : IntTarget) (frt frb : FReg) (rn : BitVec 2) (s t : State), exec (tgt.instr true frt frb) s = .next t →
    exec (tgt.instr true frt frb) (s.withRn rn) = .next (t.withRn rn) ∧ t.fpscr.fr = false

/-! ### fcfid -/

/-- Zero Operand (43_fcfid.md R222). -/
def Obligations.FcfidOfZero : Prop :=
  ∀ (frt frb : FReg) (s : State), s.canAdvance = true → s.readF frb = 0#64 →
    ∃ t, exec (.fcfid frt frb) s = .next t ∧ t.readF frt = 0x0000000000000000#64 ∧
      t.fpscr = { s.fpscr with fr := false, fi := false, fprf := .posZero } ∧
      FloatFrame frt s t ∧ t.pc = s.pc + 4#64

/-- `fcfid` of a non-zero integer delivers it rounded to 53 significant bits under RN, whatever the enables
(43_fcfid.md R221, R223, R224). -/
def Obligations.FcfidRoundsTheInteger : Prop :=
  ∀ (frt frb : FReg) (s : State) (r : Int), s.canAdvance = true →
    let n := (s.readF frb).toInt
    let unit := 2 ^ (n.natAbs.log2 - 52)
    n ≠ 0 → RoundsTo s.fpscr.mode n unit r →
    ∃ t, exec (.fcfid frt frb) s = .next t ∧ isFinite (t.readF frt) = true ∧
      dValue (t.readF frt) = r * unit * dOne ∧
      t.fpscr = { s.fpscr with fr := grew n unit r, fi := inexact n unit r, xx := s.fpscr.xx || inexact n unit r,
                               fprf := if n < 0 then .negNormal else .posNormal } ∧
      FloatFrame frt s t ∧ t.pc = s.pc + 4#64

/-- No execution of `fcfid` faults (43_fcfid.md R220). -/
def Obligations.FcfidAlwaysCompletes : Prop :=
  ∀ (frt frb : FReg) (s : State), s.canAdvance = true → Completes (exec (.fcfid frt frb) s)

/-! ### The whole machine -/

/-- The state after reset meets the invariant. The reset values are the model's choice [log 1, 2, 3]. -/
def Obligations.ResetMeetsTheInvariant : Prop := State.reset.Inv

/-- Every step keeps the invariant: canonical memory, registers and `pc` within `XLEN`, `pc` a multiple of 4, FPRF a
class by name or bits of none (10_state.md R23, R24, R31). -/
def Obligations.StepKeepsTheInvariant : Prop := ∀ s t : State, s.Inv → step s = .next t → t.Inv

/-- No step changes an exception bit from 1 to 0, nor do the writes before an enabled-exception fault
(10_state.md R28). -/
def Obligations.StickyBitsAreNeverCleared : Prop :=
  ∀ (i : Instr) (s t : State),
    (exec i s = .next t ∨ ∃ b, exec i s = .fault (.fpEnabledException b t)) →
    (s.fpscr.ox = true → t.fpscr.ox = true) ∧ (s.fpscr.ux = true → t.fpscr.ux = true) ∧
    (s.fpscr.xx = true → t.fpscr.xx = true) ∧ (s.fpscr.vxsnan = true → t.fpscr.vxsnan = true) ∧
    (s.fpscr.vxcvi = true → t.fpscr.vxcvi = true)

/-- The FPSCR changes only under the six conversions, `fsub` and `fcmpu`, and its control fields never
(10_state.md R32). -/
def Obligations.ControlFieldsAreConstant : Prop :=
  ∀ (i : Instr) (s t : State), exec i s = .next t →
    (t.fpscr.rn = s.fpscr.rn ∧ t.fpscr.ve = s.fpscr.ve ∧ t.fpscr.oe = s.fpscr.oe ∧ t.fpscr.ue = s.fpscr.ue) ∧
    (t.fpscr ≠ s.fpscr →
      (∃ a b, i = .frsp a b ∨ i = .fctiw a b ∨ i = .fctiwz a b ∨ i = .fctid a b ∨ i = .fctidz a b ∨ i = .fcfid a b) ∨
      (∃ a b c, i = .fsub a b c) ∨ ∃ a b c, i = .fcmpu a b c)

/-- Each status field changes only under the instructions the rules name as its writers (10_state.md R26 for the
conversions; 40 R106, R107 for `fcmpu` and `fsub`). -/
def Obligations.StatusFieldsHaveTheirWriters : Prop :=
  ∀ (i : Instr) (s t : State), exec i s = .next t →
    let convertsToInteger := ∃ tgt z a b, i = IntTarget.instr tgt z a b
    let rounds := ∃ a b, i = .frsp a b
    let convertsFromInteger := ∃ a b, i = .fcfid a b
    let subtracts := ∃ a b c, i = .fsub a b c
    let compares := ∃ n a b, i = .fcmpu n a b
    (t.fpscr.vxcvi ≠ s.fpscr.vxcvi → convertsToInteger) ∧
    (t.fpscr.ox ≠ s.fpscr.ox ∨ t.fpscr.ux ≠ s.fpscr.ux → rounds ∨ subtracts) ∧
    (t.fpscr.xx ≠ s.fpscr.xx ∨ t.fpscr.fr ≠ s.fpscr.fr ∨ t.fpscr.fi ≠ s.fpscr.fi →
      rounds ∨ convertsToInteger ∨ convertsFromInteger ∨ subtracts) ∧
    (t.fpscr.vxsnan ≠ s.fpscr.vxsnan → rounds ∨ convertsToInteger ∨ subtracts ∨ compares) ∧
    (t.fpscr.fprf ≠ s.fpscr.fprf → rounds ∨ convertsToInteger ∨ convertsFromInteger ∨ subtracts ∨ compares)

/-- Only `fcmpu` writes a condition-register field, its own, with exactly one bit 1 (10_state.md R25). -/
def Obligations.OnlyFcmpuWritesConditionFields : Prop :=
  ∀ (i : Instr) (s t : State), exec i s = .next t →
    (∀ n, t.readCr n ≠ s.readCr n → ∃ a b, i = .fcmpu n a b) ∧
    (∀ n a b, i = .fcmpu n a b →
      [(t.readCr n).lt, (t.readCr n).gt, (t.readCr n).eq, (t.readCr n).un].count true = 1)

/-- Only `stfd` changes memory, only `lwz` and `add` a general register, and no instruction the launch parameters
(20_memory.md R53; 10_state.md R23). -/
def Obligations.OnlyStfdWritesMemory : Prop :=
  ∀ (i : Instr) (s t : State), exec i s = .next t →
    (t.mem ≠ s.mem → ∃ f d a, i = .stfd f d a) ∧
    (∀ r, t.readX r ≠ s.readX r → (∃ d a, i = .lwz r d a) ∨ ∃ a b, i = .add r a b) ∧
    SameLaunch s t

/-- The program's text is immutable: a store that overlaps it faults, and no step changes a byte of it
(20_memory.md R58). -/
def Obligations.ProgramTextIsImmutable : Prop :=
  (∀ (s t : State) (a : Nat), s.mem.wf = true → step s = .next t → s.program.contains a = true →
    t.program = s.program ∧ t.mem.read a = s.mem.read a) ∧
  (∀ (s : State) (f : FReg) (d : BitVec 16) (ra : GReg), s.canAdvance = true →
    (s.effectiveAddress ra d).toNat % 8 = 0 →
    (∃ k < 8, s.program.contains ((s.effectiveAddress ra d).toNat + k) = true) →
    exec (.stfd f d ra) s = .fault (.unmapped (s.effectiveAddress ra d).toNat 8))

/-- After every step `pc` is the next address or the target of a branch (10_state.md R24; 40 R116). -/
def Obligations.ProgramCounterAdvancesOrBranches : Prop :=
  ∀ (i : Instr) (s t : State), exec i s = .next t →
    t.pc = s.pc + 4#64 ∨
      ∃ n bd, (i = .bl n bd ∨ i = .bgt n bd ∨ i = .bnl n bd) ∧ t.pc = s.branchTarget bd

/-- With VE = OE = UE = 0 no step stops with an enabled exception, and the enables stay 0 (60_exceptions.md R252). -/
def Obligations.DisabledExceptionsNeverStop : Prop :=
  ∀ s : State, s.enablesOff →
    (∀ b t, step s ≠ .fault (.fpEnabledException b t)) ∧ ∀ t, step s = .next t → t.enablesOff

/-- With VE = OE = UE = 0 every floating-point instruction that can advance completes, on every operand
(60_exceptions.md R251; 40 R105). -/
def Obligations.DisabledFloatingPointCompletes : Prop :=
  ∀ (s : State) (a b c : FReg) (n : CrIdx), s.canAdvance = true → s.enablesOff →
    Completes (exec (.frsp a b) s) ∧ Completes (exec (.fctiw a b) s) ∧ Completes (exec (.fctiwz a b) s) ∧
    Completes (exec (.fctid a b) s) ∧ Completes (exec (.fctidz a b) s) ∧ Completes (exec (.fcfid a b) s) ∧
    Completes (exec (.fmr a b) s) ∧ Completes (exec (.fsub a b c) s) ∧ Completes (exec (.fcmpu n b c) s)

/-- A stop for an enabled exception names a bit that is set and whose enable is 1, and holds the state the instruction's
writes left, with `pc` the instruction's own; general registers, memory and the control fields are untouched
(60_exceptions.md R252, R257). The writes: a conversion to integer, and `frsp` of an SNaN, withhold FRT and FPRF and
clear FR and FI (42_fcti.md R200; 41_frsp.md R150); `frsp` that stops for UX or OX has delivered the rounded operand
times 2^192 or 2^-192 (R144, R146); `fsub` and `fcmpu` have written what they write with the enables 0 (40 R106, R107
[log 24], at the same draw counter [log 11]). -/
def Obligations.EnabledExceptionHoldsTheWrites : Prop :=
  ∀ (i : Instr) (s t : State) (b : FpBit), exec i s = .fault (.fpEnabledException b t) →
    t.pc = s.pc ∧ s.fpscr.enables b = true ∧
    (match b with
      | .vxsnan => t.fpscr.vxsnan
      | .vxcvi => t.fpscr.vxcvi
      | .ox => t.fpscr.ox
      | .ux => t.fpscr.ux) = true ∧
    (∀ j, t.readX j = s.readX j) ∧ SameMemory s t ∧ SameLaunch s t ∧
    (t.fpscr.rn = s.fpscr.rn ∧ t.fpscr.ve = s.fpscr.ve ∧ t.fpscr.oe = s.fpscr.oe ∧ t.fpscr.ue = s.fpscr.ue) ∧
    ((∃ tgt z frt frb, i = IntTarget.instr tgt z frt frb) ∨ ((∃ frt frb, i = .frsp frt frb) ∧ b = .vxsnan) →
      (∀ j, t.readF j = s.readF j) ∧ t.fpscr.fprf = s.fpscr.fprf ∧ t.fpscr.fr = false ∧ t.fpscr.fi = false) ∧
    (∀ frt frb r, i = .frsp frt frb → b ≠ .vxsnan →
      let x := dValue (s.readF frb)
      let unit := 2 ^ (x.natAbs.log2 - 23)
      RoundsTo s.fpscr.mode x unit r →
      (b = .ux → dValue (t.readF frt) = r * unit * 2 ^ 192) ∧ (b = .ox → dValue (t.readF frt) * 2 ^ 192 = r * unit) ∧
      t.fpscr.fprf = .normal (dSign (s.readF frb)) ∧ t.fpscr.fr = grew x unit r ∧ t.fpscr.fi = inexact x unit r ∧
      t.fpscr.xx = (s.fpscr.xx || inexact x unit r)) ∧
    ((∃ frt fra frb, i = .fsub frt fra frb) ∨ (∃ n fra frb, i = .fcmpu n fra frb) →
      ∃ u, exec i (s.withEnables false false false) = .next u ∧
        t = (u.withEnables s.fpscr.ve s.fpscr.oe s.fpscr.ue).setPc s.pc)

/-- The words of `fctid`, `fctidz` and `fcfid` when the doubleword conversions do not exist: refused by the decoder, and
by the step that fetches one, with the word (42_fcti.md R197, R198; 43_fcfid.md R220; 93 U9). -/
def Obligations.AbsentConversionsAreRefused : Prop :=
  ∀ (s : State) (w : Word) (row : OpcodeRow), s.params.hasFp64Int = false → row ∈ opcodeTable →
    row.mnemonic ∈ ["fctid", "fctidz", "fcfid"] → w &&& row.mask = row.value →
    decodeWord s.params.hasFp64Int w = .refused .absentInstruction ∧
      (s.fetch = .next w → step s = .refused (.badWord w .absentInstruction))
end

