-- ==== Sys2Proof/Laws/State.lean ====
section
/-! SUPPORT. One lemma per field per update of State and of the FPSCR, each true by rfl, and read-after-write for the
register files. -/

namespace Sys2Proof.Machine

/-! ### State, field by field -/

@[simp] theorem State.writeF_params (s : State) (i : FReg) (v : Dword) : (s.writeF i v).params = s.params := rfl
@[simp] theorem State.writeF_fpr (s : State) (i : FReg) (v : Dword) : (s.writeF i v).fpr = s.fpr.set i v := rfl
@[simp] theorem State.writeF_gpr (s : State) (i : FReg) (v : Dword) : (s.writeF i v).gpr = s.gpr := rfl
@[simp] theorem State.writeF_pc (s : State) (i : FReg) (v : Dword) : (s.writeF i v).pc = s.pc := rfl
@[simp] theorem State.writeF_cr (s : State) (i : FReg) (v : Dword) : (s.writeF i v).cr = s.cr := rfl
@[simp] theorem State.writeF_fpscr (s : State) (i : FReg) (v : Dword) : (s.writeF i v).fpscr = s.fpscr := rfl
@[simp] theorem State.writeF_mem (s : State) (i : FReg) (v : Dword) : (s.writeF i v).mem = s.mem := rfl
@[simp] theorem State.writeF_program (s : State) (i : FReg) (v : Dword) : (s.writeF i v).program = s.program := rfl
@[simp] theorem State.writeF_admitted (s : State) (i : FReg) (v : Dword) : (s.writeF i v).admitted = s.admitted := rfl
@[simp] theorem State.writeF_draws (s : State) (i : FReg) (v : Dword) : (s.writeF i v).draws = s.draws := rfl

@[simp] theorem State.writeX_params (s : State) (i : GReg) (v : Dword) : (s.writeX i v).params = s.params := rfl
@[simp] theorem State.writeX_fpr (s : State) (i : GReg) (v : Dword) : (s.writeX i v).fpr = s.fpr := rfl
@[simp] theorem State.writeX_gpr (s : State) (i : GReg) (v : Dword) : (s.writeX i v).gpr = s.gpr.set i (s.params.xlen.trunc v) := rfl
@[simp] theorem State.writeX_pc (s : State) (i : GReg) (v : Dword) : (s.writeX i v).pc = s.pc := rfl
@[simp] theorem State.writeX_cr (s : State) (i : GReg) (v : Dword) : (s.writeX i v).cr = s.cr := rfl
@[simp] theorem State.writeX_fpscr (s : State) (i : GReg) (v : Dword) : (s.writeX i v).fpscr = s.fpscr := rfl
@[simp] theorem State.writeX_mem (s : State) (i : GReg) (v : Dword) : (s.writeX i v).mem = s.mem := rfl
@[simp] theorem State.writeX_program (s : State) (i : GReg) (v : Dword) : (s.writeX i v).program = s.program := rfl
@[simp] theorem State.writeX_admitted (s : State) (i : GReg) (v : Dword) : (s.writeX i v).admitted = s.admitted := rfl
@[simp] theorem State.writeX_draws (s : State) (i : GReg) (v : Dword) : (s.writeX i v).draws = s.draws := rfl

@[simp] theorem State.writeCr_params (s : State) (n : CrIdx) (c : CrField) : (s.writeCr n c).params = s.params := rfl
@[simp] theorem State.writeCr_fpr (s : State) (n : CrIdx) (c : CrField) : (s.writeCr n c).fpr = s.fpr := rfl
@[simp] theorem State.writeCr_gpr (s : State) (n : CrIdx) (c : CrField) : (s.writeCr n c).gpr = s.gpr := rfl
@[simp] theorem State.writeCr_pc (s : State) (n : CrIdx) (c : CrField) : (s.writeCr n c).pc = s.pc := rfl
@[simp] theorem State.writeCr_cr (s : State) (n : CrIdx) (c : CrField) : (s.writeCr n c).cr = s.cr.set n c := rfl
@[simp] theorem State.writeCr_fpscr (s : State) (n : CrIdx) (c : CrField) : (s.writeCr n c).fpscr = s.fpscr := rfl
@[simp] theorem State.writeCr_mem (s : State) (n : CrIdx) (c : CrField) : (s.writeCr n c).mem = s.mem := rfl
@[simp] theorem State.writeCr_program (s : State) (n : CrIdx) (c : CrField) : (s.writeCr n c).program = s.program := rfl
@[simp] theorem State.writeCr_admitted (s : State) (n : CrIdx) (c : CrField) : (s.writeCr n c).admitted = s.admitted := rfl
@[simp] theorem State.writeCr_draws (s : State) (n : CrIdx) (c : CrField) : (s.writeCr n c).draws = s.draws := rfl

@[simp] theorem State.setFpscr_params (s : State) (f : Fpscr) : (s.setFpscr f).params = s.params := rfl
@[simp] theorem State.setFpscr_fpr (s : State) (f : Fpscr) : (s.setFpscr f).fpr = s.fpr := rfl
@[simp] theorem State.setFpscr_gpr (s : State) (f : Fpscr) : (s.setFpscr f).gpr = s.gpr := rfl
@[simp] theorem State.setFpscr_pc (s : State) (f : Fpscr) : (s.setFpscr f).pc = s.pc := rfl
@[simp] theorem State.setFpscr_cr (s : State) (f : Fpscr) : (s.setFpscr f).cr = s.cr := rfl
@[simp] theorem State.setFpscr_fpscr (s : State) (f : Fpscr) : (s.setFpscr f).fpscr = f := rfl
@[simp] theorem State.setFpscr_mem (s : State) (f : Fpscr) : (s.setFpscr f).mem = s.mem := rfl
@[simp] theorem State.setFpscr_program (s : State) (f : Fpscr) : (s.setFpscr f).program = s.program := rfl
@[simp] theorem State.setFpscr_admitted (s : State) (f : Fpscr) : (s.setFpscr f).admitted = s.admitted := rfl
@[simp] theorem State.setFpscr_draws (s : State) (f : Fpscr) : (s.setFpscr f).draws = s.draws := rfl

@[simp] theorem State.countDraws_params (s : State) (n : Nat) : (s.countDraws n).params = s.params := rfl
@[simp] theorem State.countDraws_fpr (s : State) (n : Nat) : (s.countDraws n).fpr = s.fpr := rfl
@[simp] theorem State.countDraws_gpr (s : State) (n : Nat) : (s.countDraws n).gpr = s.gpr := rfl
@[simp] theorem State.countDraws_pc (s : State) (n : Nat) : (s.countDraws n).pc = s.pc := rfl
@[simp] theorem State.countDraws_cr (s : State) (n : Nat) : (s.countDraws n).cr = s.cr := rfl
@[simp] theorem State.countDraws_fpscr (s : State) (n : Nat) : (s.countDraws n).fpscr = s.fpscr := rfl
@[simp] theorem State.countDraws_mem (s : State) (n : Nat) : (s.countDraws n).mem = s.mem := rfl
@[simp] theorem State.countDraws_program (s : State) (n : Nat) : (s.countDraws n).program = s.program := rfl
@[simp] theorem State.countDraws_admitted (s : State) (n : Nat) : (s.countDraws n).admitted = s.admitted := rfl
@[simp] theorem State.countDraws_draws (s : State) (n : Nat) : (s.countDraws n).draws = s.draws + n := rfl

@[simp] theorem State.setMem_params (s : State) (m : Memory) : (s.setMem m).params = s.params := rfl
@[simp] theorem State.setMem_fpr (s : State) (m : Memory) : (s.setMem m).fpr = s.fpr := rfl
@[simp] theorem State.setMem_gpr (s : State) (m : Memory) : (s.setMem m).gpr = s.gpr := rfl
@[simp] theorem State.setMem_pc (s : State) (m : Memory) : (s.setMem m).pc = s.pc := rfl
@[simp] theorem State.setMem_cr (s : State) (m : Memory) : (s.setMem m).cr = s.cr := rfl
@[simp] theorem State.setMem_fpscr (s : State) (m : Memory) : (s.setMem m).fpscr = s.fpscr := rfl
@[simp] theorem State.setMem_mem (s : State) (m : Memory) : (s.setMem m).mem = m := rfl
@[simp] theorem State.setMem_program (s : State) (m : Memory) : (s.setMem m).program = s.program := rfl
@[simp] theorem State.setMem_admitted (s : State) (m : Memory) : (s.setMem m).admitted = s.admitted := rfl
@[simp] theorem State.setMem_draws (s : State) (m : Memory) : (s.setMem m).draws = s.draws := rfl

@[simp] theorem State.setPc_params (s : State) (t : Dword) : (s.setPc t).params = s.params := rfl
@[simp] theorem State.setPc_fpr (s : State) (t : Dword) : (s.setPc t).fpr = s.fpr := rfl
@[simp] theorem State.setPc_gpr (s : State) (t : Dword) : (s.setPc t).gpr = s.gpr := rfl
@[simp] theorem State.setPc_pc (s : State) (t : Dword) : (s.setPc t).pc = t := rfl
@[simp] theorem State.setPc_cr (s : State) (t : Dword) : (s.setPc t).cr = s.cr := rfl
@[simp] theorem State.setPc_fpscr (s : State) (t : Dword) : (s.setPc t).fpscr = s.fpscr := rfl
@[simp] theorem State.setPc_mem (s : State) (t : Dword) : (s.setPc t).mem = s.mem := rfl
@[simp] theorem State.setPc_program (s : State) (t : Dword) : (s.setPc t).program = s.program := rfl
@[simp] theorem State.setPc_admitted (s : State) (t : Dword) : (s.setPc t).admitted = s.admitted := rfl
@[simp] theorem State.setPc_draws (s : State) (t : Dword) : (s.setPc t).draws = s.draws := rfl

@[simp] theorem State.advance_params (s : State) : s.advance.params = s.params := rfl
@[simp] theorem State.advance_fpr (s : State) : s.advance.fpr = s.fpr := rfl
@[simp] theorem State.advance_gpr (s : State) : s.advance.gpr = s.gpr := rfl
@[simp] theorem State.advance_pc (s : State) : s.advance.pc = s.pc + 4#64 := rfl
@[simp] theorem State.advance_cr (s : State) : s.advance.cr = s.cr := rfl
@[simp] theorem State.advance_fpscr (s : State) : s.advance.fpscr = s.fpscr := rfl
@[simp] theorem State.advance_mem (s : State) : s.advance.mem = s.mem := rfl
@[simp] theorem State.advance_program (s : State) : s.advance.program = s.program := rfl
@[simp] theorem State.advance_admitted (s : State) : s.advance.admitted = s.admitted := rfl
@[simp] theorem State.advance_draws (s : State) : s.advance.draws = s.draws := rfl

@[simp] theorem State.writeTarget_params (s : State) (i : FReg) (o : Option Dword) : (s.writeTarget i o).params = s.params := by cases o <;> rfl
@[simp] theorem State.writeTarget_gpr (s : State) (i : FReg) (o : Option Dword) : (s.writeTarget i o).gpr = s.gpr := by cases o <;> rfl
@[simp] theorem State.writeTarget_pc (s : State) (i : FReg) (o : Option Dword) : (s.writeTarget i o).pc = s.pc := by cases o <;> rfl
@[simp] theorem State.writeTarget_cr (s : State) (i : FReg) (o : Option Dword) : (s.writeTarget i o).cr = s.cr := by cases o <;> rfl
@[simp] theorem State.writeTarget_fpscr (s : State) (i : FReg) (o : Option Dword) : (s.writeTarget i o).fpscr = s.fpscr := by cases o <;> rfl
@[simp] theorem State.writeTarget_mem (s : State) (i : FReg) (o : Option Dword) : (s.writeTarget i o).mem = s.mem := by cases o <;> rfl
@[simp] theorem State.writeTarget_program (s : State) (i : FReg) (o : Option Dword) : (s.writeTarget i o).program = s.program := by cases o <;> rfl
@[simp] theorem State.writeTarget_admitted (s : State) (i : FReg) (o : Option Dword) : (s.writeTarget i o).admitted = s.admitted := by cases o <;> rfl
@[simp] theorem State.writeTarget_draws (s : State) (i : FReg) (o : Option Dword) : (s.writeTarget i o).draws = s.draws := by cases o <;> rfl

@[simp] theorem State.writeTarget_none (s : State) (i : FReg) : s.writeTarget i none = s := rfl

@[simp] theorem State.writeTarget_some (s : State) (i : FReg) (v : Dword) : s.writeTarget i (some v) = s.writeF i v := rfl

/-! ### Read after write -/

@[simp] theorem State.readF_writeF_same (s : State) (i : FReg) (v : Dword) : (s.writeF i v).readF i = v := by
  simp [State.readF]

theorem State.readF_writeF_other (s : State) (i j : FReg) (v : Dword) (h : i ≠ j) :
    (s.writeF i v).readF j = s.readF j := by
  have : i.val ≠ j.val := fun e => h (Fin.ext e)
  simp [State.readF, Vector.getElem_set_ne, this]

theorem State.readF_writeTarget_other (s : State) (i j : FReg) (o : Option Dword) (h : i ≠ j) :
    (s.writeTarget i o).readF j = s.readF j := by
  cases o
  · rfl
  · exact State.readF_writeF_other s i j _ h

@[simp] theorem xlen_trunc_trunc (x : Xlen) (v : Dword) : x.trunc (x.trunc v) = x.trunc v := by
  cases x <;> simp [Xlen.trunc]

/-- Truncation is reduction modulo 2^`XLEN`. -/
theorem xlen_toNat_trunc (x : Xlen) (v : Dword) : (x.trunc v).toNat = v.toNat % 2 ^ x.bits := by
  cases x
  · simp only [Xlen.trunc, Xlen.bits, BitVec.toNat_setWidth]
    omega
  · simp only [Xlen.trunc, Xlen.bits]
    omega

theorem xlen_trunc_lt (x : Xlen) (v : Dword) : (x.trunc v).toNat < 2 ^ x.bits := by
  rw [xlen_toNat_trunc]
  exact Nat.mod_lt _ (Nat.two_pow_pos _)

@[simp] theorem State.readX_writeX_same (s : State) (i : GReg) (v : Dword) :
    (s.writeX i v).readX i = s.params.xlen.trunc v := by
  simp [State.readX]

theorem State.readX_writeX_other (s : State) (i j : GReg) (v : Dword) (h : i ≠ j) :
    (s.writeX i v).readX j = s.readX j := by
  have : i.val ≠ j.val := fun e => h (Fin.ext e)
  simp [State.readX, Vector.getElem_set_ne, this]

@[simp] theorem State.readCr_writeCr_same (s : State) (n : CrIdx) (c : CrField) : (s.writeCr n c).readCr n = c := by
  simp [State.readCr]

theorem State.readCr_writeCr_other (s : State) (n m : CrIdx) (c : CrField) (h : n ≠ m) :
    (s.writeCr n c).readCr m = s.readCr m := by
  have : n.val ≠ m.val := fun e => h (Fin.ext e)
  simp [State.readCr, Vector.getElem_set_ne, this]

/-! ### FPSCR, field by field -/

@[simp] theorem Fpscr.setXx_rn (f : Fpscr) (c : Bool) : (f.setXx c).rn = f.rn := rfl
@[simp] theorem Fpscr.setXx_ve (f : Fpscr) (c : Bool) : (f.setXx c).ve = f.ve := rfl
@[simp] theorem Fpscr.setXx_oe (f : Fpscr) (c : Bool) : (f.setXx c).oe = f.oe := rfl
@[simp] theorem Fpscr.setXx_ue (f : Fpscr) (c : Bool) : (f.setXx c).ue = f.ue := rfl
@[simp] theorem Fpscr.setXx_ox (f : Fpscr) (c : Bool) : (f.setXx c).ox = f.ox := rfl
@[simp] theorem Fpscr.setXx_ux (f : Fpscr) (c : Bool) : (f.setXx c).ux = f.ux := rfl
@[simp] theorem Fpscr.setXx_xx (f : Fpscr) (c : Bool) : (f.setXx c).xx = (f.xx || c) := rfl
@[simp] theorem Fpscr.setXx_vxsnan (f : Fpscr) (c : Bool) : (f.setXx c).vxsnan = f.vxsnan := rfl
@[simp] theorem Fpscr.setXx_vxcvi (f : Fpscr) (c : Bool) : (f.setXx c).vxcvi = f.vxcvi := rfl
@[simp] theorem Fpscr.setXx_fr (f : Fpscr) (c : Bool) : (f.setXx c).fr = f.fr := rfl
@[simp] theorem Fpscr.setXx_fi (f : Fpscr) (c : Bool) : (f.setXx c).fi = f.fi := rfl
@[simp] theorem Fpscr.setXx_fprf (f : Fpscr) (c : Bool) : (f.setXx c).fprf = f.fprf := rfl

@[simp] theorem Fpscr.setUx_rn (f : Fpscr) (c : Bool) : (f.setUx c).rn = f.rn := rfl
@[simp] theorem Fpscr.setUx_ve (f : Fpscr) (c : Bool) : (f.setUx c).ve = f.ve := rfl
@[simp] theorem Fpscr.setUx_oe (f : Fpscr) (c : Bool) : (f.setUx c).oe = f.oe := rfl
@[simp] theorem Fpscr.setUx_ue (f : Fpscr) (c : Bool) : (f.setUx c).ue = f.ue := rfl
@[simp] theorem Fpscr.setUx_ox (f : Fpscr) (c : Bool) : (f.setUx c).ox = f.ox := rfl
@[simp] theorem Fpscr.setUx_ux (f : Fpscr) (c : Bool) : (f.setUx c).ux = (f.ux || c) := rfl
@[simp] theorem Fpscr.setUx_xx (f : Fpscr) (c : Bool) : (f.setUx c).xx = f.xx := rfl
@[simp] theorem Fpscr.setUx_vxsnan (f : Fpscr) (c : Bool) : (f.setUx c).vxsnan = f.vxsnan := rfl
@[simp] theorem Fpscr.setUx_vxcvi (f : Fpscr) (c : Bool) : (f.setUx c).vxcvi = f.vxcvi := rfl
@[simp] theorem Fpscr.setUx_fr (f : Fpscr) (c : Bool) : (f.setUx c).fr = f.fr := rfl
@[simp] theorem Fpscr.setUx_fi (f : Fpscr) (c : Bool) : (f.setUx c).fi = f.fi := rfl
@[simp] theorem Fpscr.setUx_fprf (f : Fpscr) (c : Bool) : (f.setUx c).fprf = f.fprf := rfl

@[simp] theorem Fpscr.setOx_rn (f : Fpscr) (c : Bool) : (f.setOx c).rn = f.rn := rfl
@[simp] theorem Fpscr.setOx_ve (f : Fpscr) (c : Bool) : (f.setOx c).ve = f.ve := rfl
@[simp] theorem Fpscr.setOx_oe (f : Fpscr) (c : Bool) : (f.setOx c).oe = f.oe := rfl
@[simp] theorem Fpscr.setOx_ue (f : Fpscr) (c : Bool) : (f.setOx c).ue = f.ue := rfl
@[simp] theorem Fpscr.setOx_ox (f : Fpscr) (c : Bool) : (f.setOx c).ox = (f.ox || c) := rfl
@[simp] theorem Fpscr.setOx_ux (f : Fpscr) (c : Bool) : (f.setOx c).ux = f.ux := rfl
@[simp] theorem Fpscr.setOx_xx (f : Fpscr) (c : Bool) : (f.setOx c).xx = f.xx := rfl
@[simp] theorem Fpscr.setOx_vxsnan (f : Fpscr) (c : Bool) : (f.setOx c).vxsnan = f.vxsnan := rfl
@[simp] theorem Fpscr.setOx_vxcvi (f : Fpscr) (c : Bool) : (f.setOx c).vxcvi = f.vxcvi := rfl
@[simp] theorem Fpscr.setOx_fr (f : Fpscr) (c : Bool) : (f.setOx c).fr = f.fr := rfl
@[simp] theorem Fpscr.setOx_fi (f : Fpscr) (c : Bool) : (f.setOx c).fi = f.fi := rfl
@[simp] theorem Fpscr.setOx_fprf (f : Fpscr) (c : Bool) : (f.setOx c).fprf = f.fprf := rfl

@[simp] theorem Fpscr.setVxsnan_rn (f : Fpscr) (c : Bool) : (f.setVxsnan c).rn = f.rn := rfl
@[simp] theorem Fpscr.setVxsnan_ve (f : Fpscr) (c : Bool) : (f.setVxsnan c).ve = f.ve := rfl
@[simp] theorem Fpscr.setVxsnan_oe (f : Fpscr) (c : Bool) : (f.setVxsnan c).oe = f.oe := rfl
@[simp] theorem Fpscr.setVxsnan_ue (f : Fpscr) (c : Bool) : (f.setVxsnan c).ue = f.ue := rfl
@[simp] theorem Fpscr.setVxsnan_ox (f : Fpscr) (c : Bool) : (f.setVxsnan c).ox = f.ox := rfl
@[simp] theorem Fpscr.setVxsnan_ux (f : Fpscr) (c : Bool) : (f.setVxsnan c).ux = f.ux := rfl
@[simp] theorem Fpscr.setVxsnan_xx (f : Fpscr) (c : Bool) : (f.setVxsnan c).xx = f.xx := rfl
@[simp] theorem Fpscr.setVxsnan_vxsnan (f : Fpscr) (c : Bool) : (f.setVxsnan c).vxsnan = (f.vxsnan || c) := rfl
@[simp] theorem Fpscr.setVxsnan_vxcvi (f : Fpscr) (c : Bool) : (f.setVxsnan c).vxcvi = f.vxcvi := rfl
@[simp] theorem Fpscr.setVxsnan_fr (f : Fpscr) (c : Bool) : (f.setVxsnan c).fr = f.fr := rfl
@[simp] theorem Fpscr.setVxsnan_fi (f : Fpscr) (c : Bool) : (f.setVxsnan c).fi = f.fi := rfl
@[simp] theorem Fpscr.setVxsnan_fprf (f : Fpscr) (c : Bool) : (f.setVxsnan c).fprf = f.fprf := rfl

@[simp] theorem Fpscr.setVxcvi_rn (f : Fpscr) (c : Bool) : (f.setVxcvi c).rn = f.rn := rfl
@[simp] theorem Fpscr.setVxcvi_ve (f : Fpscr) (c : Bool) : (f.setVxcvi c).ve = f.ve := rfl
@[simp] theorem Fpscr.setVxcvi_oe (f : Fpscr) (c : Bool) : (f.setVxcvi c).oe = f.oe := rfl
@[simp] theorem Fpscr.setVxcvi_ue (f : Fpscr) (c : Bool) : (f.setVxcvi c).ue = f.ue := rfl
@[simp] theorem Fpscr.setVxcvi_ox (f : Fpscr) (c : Bool) : (f.setVxcvi c).ox = f.ox := rfl
@[simp] theorem Fpscr.setVxcvi_ux (f : Fpscr) (c : Bool) : (f.setVxcvi c).ux = f.ux := rfl
@[simp] theorem Fpscr.setVxcvi_xx (f : Fpscr) (c : Bool) : (f.setVxcvi c).xx = f.xx := rfl
@[simp] theorem Fpscr.setVxcvi_vxsnan (f : Fpscr) (c : Bool) : (f.setVxcvi c).vxsnan = f.vxsnan := rfl
@[simp] theorem Fpscr.setVxcvi_vxcvi (f : Fpscr) (c : Bool) : (f.setVxcvi c).vxcvi = (f.vxcvi || c) := rfl
@[simp] theorem Fpscr.setVxcvi_fr (f : Fpscr) (c : Bool) : (f.setVxcvi c).fr = f.fr := rfl
@[simp] theorem Fpscr.setVxcvi_fi (f : Fpscr) (c : Bool) : (f.setVxcvi c).fi = f.fi := rfl
@[simp] theorem Fpscr.setVxcvi_fprf (f : Fpscr) (c : Bool) : (f.setVxcvi c).fprf = f.fprf := rfl

@[simp] theorem Fpscr.setFrFi_rn (f : Fpscr) (a b : Bool) : (f.setFrFi a b).rn = f.rn := rfl
@[simp] theorem Fpscr.setFrFi_ve (f : Fpscr) (a b : Bool) : (f.setFrFi a b).ve = f.ve := rfl
@[simp] theorem Fpscr.setFrFi_oe (f : Fpscr) (a b : Bool) : (f.setFrFi a b).oe = f.oe := rfl
@[simp] theorem Fpscr.setFrFi_ue (f : Fpscr) (a b : Bool) : (f.setFrFi a b).ue = f.ue := rfl
@[simp] theorem Fpscr.setFrFi_ox (f : Fpscr) (a b : Bool) : (f.setFrFi a b).ox = f.ox := rfl
@[simp] theorem Fpscr.setFrFi_ux (f : Fpscr) (a b : Bool) : (f.setFrFi a b).ux = f.ux := rfl
@[simp] theorem Fpscr.setFrFi_xx (f : Fpscr) (a b : Bool) : (f.setFrFi a b).xx = f.xx := rfl
@[simp] theorem Fpscr.setFrFi_vxsnan (f : Fpscr) (a b : Bool) : (f.setFrFi a b).vxsnan = f.vxsnan := rfl
@[simp] theorem Fpscr.setFrFi_vxcvi (f : Fpscr) (a b : Bool) : (f.setFrFi a b).vxcvi = f.vxcvi := rfl
@[simp] theorem Fpscr.setFrFi_fr (f : Fpscr) (a b : Bool) : (f.setFrFi a b).fr = a := rfl
@[simp] theorem Fpscr.setFrFi_fi (f : Fpscr) (a b : Bool) : (f.setFrFi a b).fi = b := rfl
@[simp] theorem Fpscr.setFrFi_fprf (f : Fpscr) (a b : Bool) : (f.setFrFi a b).fprf = f.fprf := rfl

@[simp] theorem Fpscr.setFprf_rn (f : Fpscr) (c : Fprf) : (f.setFprf c).rn = f.rn := rfl
@[simp] theorem Fpscr.setFprf_ve (f : Fpscr) (c : Fprf) : (f.setFprf c).ve = f.ve := rfl
@[simp] theorem Fpscr.setFprf_oe (f : Fpscr) (c : Fprf) : (f.setFprf c).oe = f.oe := rfl
@[simp] theorem Fpscr.setFprf_ue (f : Fpscr) (c : Fprf) : (f.setFprf c).ue = f.ue := rfl
@[simp] theorem Fpscr.setFprf_ox (f : Fpscr) (c : Fprf) : (f.setFprf c).ox = f.ox := rfl
@[simp] theorem Fpscr.setFprf_ux (f : Fpscr) (c : Fprf) : (f.setFprf c).ux = f.ux := rfl
@[simp] theorem Fpscr.setFprf_xx (f : Fpscr) (c : Fprf) : (f.setFprf c).xx = f.xx := rfl
@[simp] theorem Fpscr.setFprf_vxsnan (f : Fpscr) (c : Fprf) : (f.setFprf c).vxsnan = f.vxsnan := rfl
@[simp] theorem Fpscr.setFprf_vxcvi (f : Fpscr) (c : Fprf) : (f.setFprf c).vxcvi = f.vxcvi := rfl
@[simp] theorem Fpscr.setFprf_fr (f : Fpscr) (c : Fprf) : (f.setFprf c).fr = f.fr := rfl
@[simp] theorem Fpscr.setFprf_fi (f : Fpscr) (c : Fprf) : (f.setFprf c).fi = f.fi := rfl
@[simp] theorem Fpscr.setFprf_fprf (f : Fpscr) (c : Fprf) : (f.setFprf c).fprf = c := rfl

end Sys2Proof.Machine
end

