-- ==== Sys2Proof/Laws/Memory.lean ====
section
/-! SUPPORT. Memory: read after write, the canonical form, equal reads are equal memories, big-endian words and
doublewords. -/

namespace Sys2Proof.Machine

/-! ### One byte -/

theorem Memory.read_cons (a : Nat) (b : Byte) (rest : Memory) (x : Nat) (h : ∀ c ∈ rest, a < c.1) :
    Memory.read (Memory.cons a b rest) x = if x = a then b else Memory.read rest x := by
  have hrest : ∀ m : Memory, (∀ c ∈ m, a < c.1) → Memory.read m a = unlistedByte := by
    intro m
    induction m with
    | nil => intro _; rfl
    | cons c m ih =>
      intro hm
      have := hm c (by simp)
      rw [Memory.read, if_neg (by omega)]
      exact ih fun d hd => hm d (by simp [hd])
  unfold Memory.cons
  split
  · next hb =>
    split
    · next hx => rw [hx, hrest rest h, hb]
    · rfl
  · rw [Memory.read]
    by_cases hx : x = a
    · simp [hx]
    · rw [if_neg (fun e => hx e.symm), if_neg hx]

/-- In a canonical memory the cells after the first lie above it. -/
theorem Memory.wf_tail {c : Host.Cell} {m : Memory} (h : Memory.wf (c :: m) = true) :
    (∀ d ∈ m, c.1 < d.1) ∧ c.2 ≠ unlistedByte ∧ Memory.wf m = true := by
  obtain ⟨a, b⟩ := c
  simpa [Memory.wf, Bool.and_eq_true, and_assoc] using h

theorem Memory.wf_of_tail {a : Nat} {b : Byte} {m : Memory} (h1 : ∀ d ∈ m, a < d.1) (h2 : b ≠ unlistedByte)
    (h3 : Memory.wf m = true) : Memory.wf ((a, b) :: m) = true := by
  simp only [Memory.wf, Bool.and_eq_true, List.all_eq_true, decide_eq_true_eq, bne_iff_ne, ne_eq]
  exact ⟨⟨h1, h2⟩, h3⟩

/-- A read after a write: the byte written at its address, the old byte at every other. -/
theorem Memory.read_write (m : Memory) (a : Nat) (b : Byte) (x : Nat) (h : Memory.wf m = true) :
    Memory.read (Memory.write m a b) x = if x = a then b else Memory.read m x := by
  induction m with
  | nil => exact Memory.read_cons a b [] x (by simp)
  | cons c m ih =>
    obtain ⟨k, v⟩ := c
    obtain ⟨habove, -, hm⟩ := Memory.wf_tail h
    rw [Memory.write]
    split
    · next hak =>
      refine Memory.read_cons a b _ x fun d hd => ?_
      rcases List.mem_cons.mp hd with rfl | hd
      · exact hak
      · exact Nat.lt_trans hak (habove d hd)
    · split
      · next hak =>
        subst hak
        rw [Memory.read_cons a b m x habove]
        by_cases hx : x = a
        · simp [hx]
        · rw [if_neg hx, if_neg hx, Memory.read, if_neg (fun e => hx e.symm)]
      · next hak =>
        rw [Memory.read, ih hm, Memory.read]
        by_cases hx : x = a
        · subst hx
          rw [if_neg (fun e => hak e.symm)]
          simp
        · simp [hx]

theorem Memory.mem_write {m : Memory} {a : Nat} {b : Byte} {c : Host.Cell} (h : c ∈ Memory.write m a b) :
    c.1 = a ∨ c ∈ m := by
  have hcons : ∀ rest : Memory, c ∈ Memory.cons a b rest → c.1 = a ∨ c ∈ rest := by
    intro rest hc
    unfold Memory.cons at hc
    split at hc
    · exact .inr hc
    · rcases List.mem_cons.mp hc with rfl | hc
      · exact .inl rfl
      · exact .inr hc
  induction m with
  | nil => exact hcons _ h
  | cons d m ih =>
    obtain ⟨k, v⟩ := d
    rw [Memory.write] at h
    split at h
    · exact hcons _ h
    · split at h
      · rcases hcons _ h with h | h
        · exact .inl h
        · exact .inr (List.mem_cons_of_mem _ h)
      · rcases List.mem_cons.mp h with rfl | h
        · exact .inr (List.mem_cons_self ..)
        · rcases ih h with h | h
          · exact .inl h
          · exact .inr (List.mem_cons_of_mem _ h)

/-- A write keeps the canonical form. -/
theorem Memory.wf_write (m : Memory) (a : Nat) (b : Byte) (h : Memory.wf m = true) :
    Memory.wf (Memory.write m a b) = true := by
  have hcons : ∀ rest : Memory, (∀ d ∈ rest, a < d.1) → Memory.wf rest = true →
      Memory.wf (Memory.cons a b rest) = true := by
    intro rest h1 h3
    unfold Memory.cons
    split
    · exact h3
    · next hb => exact Memory.wf_of_tail h1 hb h3
  induction m with
  | nil => exact hcons [] (by simp) rfl
  | cons c m ih =>
    obtain ⟨k, v⟩ := c
    obtain ⟨habove, hv, hm⟩ := Memory.wf_tail h
    rw [Memory.write]
    split
    · next hak =>
      refine hcons _ (fun d hd => ?_) h
      rcases List.mem_cons.mp hd with rfl | hd
      · exact hak
      · exact Nat.lt_trans hak (habove d hd)
    · split
      · next hak => exact hcons _ (fun d hd => hak ▸ habove d hd) hm
      · next hlt hne =>
        refine Memory.wf_of_tail (fun d hd => ?_) hv (ih hm)
        rcases Memory.mem_write hd with hd | hd
        · have : k < a := by omega
          omega
        · exact habove d hd

/-- Canonical memories that read alike are equal. -/
theorem Memory.ext_read (m n : Memory) (hm : Memory.wf m = true) (hn : Memory.wf n = true)
    (h : ∀ a, Memory.read m a = Memory.read n a) : m = n := by
  have above : ∀ (p : Memory) (a : Nat), (∀ d ∈ p, a < d.1) → Memory.read p a = unlistedByte := by
    intro p a
    induction p with
    | nil => intro _; rfl
    | cons c p ih =>
      intro hp
      have := hp c (by simp)
      rw [Memory.read, if_neg (by omega)]
      exact ih fun d hd => hp d (by simp [hd])
  induction m generalizing n with
  | nil =>
    cases n with
    | nil => rfl
    | cons d n =>
      obtain ⟨-, hd, -⟩ := Memory.wf_tail hn
      have := h d.1
      simp only [Memory.read, ↓reduceIte] at this
      exact absurd this.symm hd
  | cons c m ih =>
    obtain ⟨k, v⟩ := c
    obtain ⟨hk, hv, hm'⟩ := Memory.wf_tail hm
    cases n with
    | nil =>
      have := h k
      simp only [Memory.read, ↓reduceIte] at this
      exact absurd this hv
    | cons d n =>
      obtain ⟨l, w⟩ := d
      obtain ⟨hl, hw, hn'⟩ := Memory.wf_tail hn
      have hkl : k = l := by
        rcases Nat.lt_trichotomy k l with hlt | heq | hgt
        · have := h k
          rw [Memory.read, if_pos rfl, above ((l, w) :: n) k] at this
          · exact absurd this hv
          · intro d hd
            rcases List.mem_cons.mp hd with rfl | hd
            · exact hlt
            · exact Nat.lt_trans hlt (hl d hd)
        · exact heq
        · have := h l
          rw [above ((k, v) :: m) l, Memory.read, if_pos rfl] at this
          · exact absurd this.symm hw
          · intro d hd
            rcases List.mem_cons.mp hd with rfl | hd
            · exact hgt
            · exact Nat.lt_trans hgt (hk d hd)
      subst hkl
      have hvw : v = w := by
        have := h k
        simpa [Memory.read] using this
      subst hvw
      congr 1
      refine ih n hm' hn' fun a => ?_
      by_cases ha : a = k
      · rw [ha, above m k hk, above n k hl]
      · have := h a
        rwa [Memory.read, if_neg (fun e => ha e.symm), Memory.read, if_neg (fun e => ha e.symm)] at this

/-! ### Runs of bytes -/

theorem Memory.wf_writeBytes (bs : List Byte) (m : Memory) (a : Nat) (h : Memory.wf m = true) :
    Memory.wf (Memory.writeBytes m a bs) = true := by
  induction bs generalizing m a with
  | nil => exact h
  | cons b bs ih => exact ih _ _ (Memory.wf_write m a b h)

/-- A run of written bytes: the byte at its place inside the run, the old byte outside. -/
theorem Memory.read_writeBytes (bs : List Byte) (m : Memory) (a x : Nat) (h : Memory.wf m = true) :
    Memory.read (Memory.writeBytes m a bs) x =
      if hx : a ≤ x ∧ x < a + bs.length then bs[x - a]'(by omega) else Memory.read m x := by
  induction bs generalizing m a with
  | nil =>
    rw [Memory.writeBytes, dif_neg (by simp)]
  | cons b bs ih =>
    rw [Memory.writeBytes, ih _ _ (Memory.wf_write m a b h), Memory.read_write m a b x h]
    by_cases h1 : a + 1 ≤ x ∧ x < a + 1 + bs.length
    · rw [dif_pos h1, dif_pos (by simp; omega)]
      have : x - a = (x - (a + 1)) + 1 := by omega
      simp [this]
    · rw [dif_neg h1]
      by_cases h2 : x = a
      · subst h2
        rw [if_pos rfl, dif_pos (by simp)]
        simp
      · rw [if_neg h2, dif_neg (by simp; omega)]

@[simp] theorem dwordBytes_length (v : Dword) : (dwordBytes v).length = 8 := rfl

theorem Memory.wf_writeDword (m : Memory) (a : Nat) (v : Dword) (h : Memory.wf m = true) :
    Memory.wf (m.writeDword a v) = true := Memory.wf_writeBytes _ m a h

/-- Outside the eight bytes of a stored doubleword every address reads as before. -/
theorem Memory.read_writeDword_outside (m : Memory) (a : Nat) (v : Dword) (x : Nat) (h : Memory.wf m = true)
    (hx : x < a ∨ a + 8 ≤ x) : Memory.read (m.writeDword a v) x = Memory.read m x := by
  rw [Memory.writeDword, Memory.read_writeBytes _ _ _ _ h, dif_neg]
  simp
  omega

/-- Byte `k` of a stored doubleword is its bits `[8k : 8k+7]` (20_memory.md R51). -/
theorem Memory.read_writeDword (m : Memory) (a : Nat) (v : Dword) (k : Nat) (h : Memory.wf m = true) (hk : k < 8) :
    Memory.read (m.writeDword a v) (a + k) = msbSlice v (8 * k) 8 := by
  rw [Memory.writeDword, Memory.read_writeBytes _ _ _ _ h, dif_pos (by simp; omega)]
  have : a + k - a = k := by omega
  simp only [this]
  match k, hk with
  | 0, _ | 1, _ | 2, _ | 3, _ | 4, _ | 5, _ | 6, _ | 7, _ => rfl

/-- Four consecutive bytes of a doubleword, most significant first, are its slice of 32 bits. -/
theorem wordOfBytes_slices (v : Dword) (i : Nat) (hi : i + 32 ≤ 64) :
    wordOfBytes (msbSlice v i 8) (msbSlice v (i + 8) 8) (msbSlice v (i + 16) 8) (msbSlice v (i + 24) 8) =
      msbSlice v i 32 := by
  apply BitVec.eq_of_getLsbD_eq
  intro j hj
  simp only [wordOfBytes, msbSlice, BitVec.getLsbD_append, BitVec.getLsbD_extractLsb']
  by_cases h1 : j < 8
  · simp only [h1, decide_true, Bool.true_and, ↓reduceIte, hj]
    congr 1
  · by_cases h2 : j - 8 < 8
    · simp only [h1, h2, decide_true, Bool.true_and, ↓reduceIte, hj]
      congr 1; omega
    · by_cases h3 : j - 8 - 8 < 8
      · simp only [h1, h2, h3, decide_true, Bool.true_and, ↓reduceIte, hj]
        congr 1; omega
      · have h4 : j - 8 - 8 - 8 < 8 := by omega
        simp only [h1, h2, h3, h4, decide_true, Bool.true_and, ↓reduceIte, hj]
        congr 1; omega

/-- The low word of a stored doubleword stands four bytes up (20_memory.md R50, R56). -/
theorem Memory.readWord_writeDword_low (m : Memory) (a : Nat) (v : Dword) (h : Memory.wf m = true) :
    Memory.readWord (m.writeDword a v) (a + 4) = msbSlice v 32 32 := by
  have e := fun k hk => Memory.read_writeDword m a v k h hk
  rw [Memory.readWord, show a + 4 + 1 = a + 5 from rfl, show a + 4 + 2 = a + 6 from rfl,
    show a + 4 + 3 = a + 7 from rfl, e 4 (by omega), e 5 (by omega), e 6 (by omega), e 7 (by omega)]
  exact wordOfBytes_slices v 32 (by omega)

/-- The high word of a stored doubleword stands at its address (20_memory.md R50). -/
theorem Memory.readWord_writeDword_high (m : Memory) (a : Nat) (v : Dword) (h : Memory.wf m = true) :
    Memory.readWord (m.writeDword a v) a = msbSlice v 0 32 := by
  have e := fun k hk => Memory.read_writeDword m a v k h hk
  have e0 := e 0 (by omega)
  rw [Nat.add_zero] at e0
  rw [Memory.readWord, e0, e 1 (by omega), e 2 (by omega), e 3 (by omega)]
  exact wordOfBytes_slices v 0 (by omega)

end Sys2Proof.Machine
end

