-- ==== Sys2Proof/Laws/Ops.lean ====
section
/-! SUPPORT. For each shared operation, once, everything it can answer. -/

namespace Sys2Proof.Machine

theorem sequential_eq_next {s t : State} {o : Out} :
    sequential s o = .next t ↔ s.canAdvance = true ∧ o = .next t := by
  unfold sequential
  split <;> simp_all

theorem sequential_eq_fault {s : State} {o : Out} {r : Fault} :
    sequential s o = .fault r ↔ s.canAdvance = true ∧ o = .fault r := by
  unfold sequential
  split <;> simp_all

theorem sequential_eq_refused {s : State} {o : Out} {r : Refusal} :
    sequential s o = .refused r ↔
      (s.canAdvance = true ∧ o = .refused r) ∨ (s.canAdvance = false ∧ r = .pcWraps s.pc) := by
  unfold sequential
  split
  · next h => simp [h]
  · next h => simp [h, eq_comm]

theorem raiseOrAdvance_eq_next {s t : State} {raised : List FpBit} :
    raiseOrAdvance s raised = .next t ↔ (∀ b ∈ raised, s.fpscr.enables b = false) ∧ t = s.advance := by
  unfold raiseOrAdvance
  split
  · next b h =>
    have hm := List.mem_of_find?_eq_some h
    have hb := List.find?_some h
    constructor
    · intro h; cases h
    · intro h; exact absurd hb (by simp [h.1 b hm])
  · next h =>
    have h := List.find?_eq_none.mp h
    constructor
    · intro e; cases e; exact ⟨fun b hb => by simpa using h b hb, rfl⟩
    · intro e; rw [e.2]

/-- A stop names a raised bit whose enable is 1 and holds the state the writes left. -/
theorem raiseOrAdvance_eq_fault {s : State} {raised : List FpBit} {r : Fault}
    (h : raiseOrAdvance s raised = .fault r) :
    ∃ b ∈ raised, s.fpscr.enables b = true ∧ r = .fpEnabledException b s := by
  unfold raiseOrAdvance at h
  split at h
  · next b hf =>
    cases h
    exact ⟨b, List.mem_of_find?_eq_some hf, List.find?_some hf, rfl⟩
  · cases h

theorem raiseOrAdvance_ne_refused {s : State} {raised : List FpBit} {r : Refusal} :
    raiseOrAdvance s raised ≠ .refused r := by
  unfold raiseOrAdvance
  split <;> simp

/-- What a floating-point instruction that completes leaves. -/
theorem completeFp_eq_next {s t : State} {frt : FReg} {r : FpResult} :
    completeFp s frt r = .next t ↔
      s.canAdvance = true ∧ (∀ b ∈ r.raised, r.fpscr.enables b = false) ∧
        t = (((s.writeTarget frt r.frt).setFpscr r.fpscr).countDraws r.draws).advance := by
  rw [completeFp, sequential_eq_next, raiseOrAdvance_eq_next]
  simp

theorem access_eq_next {s t : State} {ea : Dword} {n : Nat} {o : Out} :
    access s ea n o = .next t ↔ ea.toNat % n = 0 ∧ s.admits ea.toNat n = true ∧ o = .next t := by
  unfold access
  split
  · simp_all
  · split <;> simp_all

theorem branch_eq_next {s t : State} {taken : Bool} {bd : BitVec 14} :
    branch s taken bd = .next t ↔
      (taken = true ∧ t = s.setPc (s.branchTarget bd)) ∨
        (taken = false ∧ s.canAdvance = true ∧ t = s.advance) := by
  unfold branch
  cases taken
  · simp only [Bool.false_eq_true, ↓reduceIte, sequential_eq_next, false_and, true_and, false_or,
      Host.Outcome.next.injEq, eq_comm (a := s.advance)]
  · simp only [↓reduceIte, Host.Outcome.next.injEq, true_and, Bool.true_eq_false, false_and, or_false,
      eq_comm (a := s.setPc _)]

/-- Every byte of an admitted access is admitted, and lies outside the program. -/
theorem State.admits_iff (s : State) (a n : Nat) :
    s.admits a n = true ↔ ∀ k < n, s.admitsByte (a + k) = true := by
  induction n generalizing a with
  | zero => simp [State.admits]
  | succ n ih =>
    rw [State.admits, Bool.and_eq_true, ih]
    constructor
    · rintro ⟨h0, h⟩ k hk
      cases k with
      | zero => exact h0
      | succ k => simpa [Nat.add_assoc, Nat.add_comm 1] using h k (by omega)
    · intro h
      refine ⟨by simpa using h 0 (by omega), fun k hk => ?_⟩
      have := h (k + 1) (by omega)
      simpa [Nat.add_assoc, Nat.add_comm 1] using this

/-- A step that answers a next state fetched a word, decoded it and executed the instruction. -/
theorem step_eq_next {s t : State} (h : step s = .next t) :
    ∃ w i, s.fetch = .next w ∧ decodeWord s.params.hasFp64Int w = .instr i ∧ exec i s = .next t := by
  unfold step at h
  split at h
  · cases h
  · cases h
  · next w hw =>
    unfold State.decode at h
    split at h
    · cases h
    · cases h
    · next i hi =>
      split at hi
      · next j hj => cases hi; exact ⟨w, i, hw, hj, h⟩
      · cases hi

theorem fetch_eq_next {s : State} {w : Word} :
    s.fetch = .next w ↔
      s.pc.toNat % 4 = 0 ∧ s.atEnd = false ∧ s.inProgram = true ∧ w = s.mem.readWord s.pc.toNat := by
  unfold State.fetch
  split
  · simp_all
  · split
    · simp_all
    · split
      · next h1 h2 h3 =>
        simp only [Host.Outcome.next.injEq, h3, true_and]
        constructor
        · intro h; exact ⟨by omega, by simpa using h2, h.symm⟩
        · intro h; exact h.2.2.symm
      · simp_all

end Sys2Proof.Machine
end

