-- ==== Sys2Proof/Laws/Decode.lean ====
section
/-! SUPPORT. Fields of a word: what a slice of a placed field reads, registers as fields, a word as four bytes. -/

namespace Sys2Proof

@[simp] theorem msbSlice_or {w : Nat} (v u : BitVec w) (i n : Nat) :
    msbSlice (v ||| u) i n = msbSlice v i n ||| msbSlice u i n := by
  apply BitVec.eq_of_getLsbD_eq
  intro j hj
  simp [msbSlice, hj]

@[simp] theorem msbSlice_and {w : Nat} (v u : BitVec w) (i n : Nat) :
    msbSlice (v &&& u) i n = msbSlice v i n &&& msbSlice u i n := by
  apply BitVec.eq_of_getLsbD_eq
  intro j hj
  simp [msbSlice, hj]

/-- A field read where it was placed. -/
theorem msbSlice_place_same {n : Nat} (x : BitVec n) (i : Nat) (h : i + n ≤ 32) : msbSlice (place x i) i n = x := by
  apply BitVec.eq_of_getLsbD_eq
  intro j hj
  simp only [msbSlice, place, BitVec.getLsbD_extractLsb', BitVec.getLsbD_shiftLeft, BitVec.getLsbD_setWidth, hj,
    decide_true, Bool.true_and]
  have h1 : 32 - i - n + j < 32 := by omega
  have h2 : ¬ 32 - i - n + j < 32 - i - n := by omega
  have h3 : j < 32 := by omega
  rw [show 32 - i - n + j - (32 - i - n) = j by omega]
  simp [h1, h2, h3]

/-- A field read where another was placed is 0. -/
theorem msbSlice_place_apart {n m : Nat} (x : BitVec n) (i f : Nat) (h : f + m ≤ i ∨ i + n ≤ f) (hf : f + m ≤ 32) (hi : i + n ≤ 32) :
    msbSlice (place x i) f m = 0#m := by
  apply BitVec.eq_of_getLsbD_eq
  intro j hj
  simp only [msbSlice, place, BitVec.getLsbD_extractLsb', BitVec.getLsbD_shiftLeft, BitVec.getLsbD_setWidth, hj,
    decide_true, Bool.true_and, BitVec.getLsbD_zero]
  rcases h with h | h
  · rw [BitVec.getLsbD_of_ge x _ (by omega)]
    simp
  · have : 32 - f - m + j < 32 - i - n := by omega
    simp [this]

/-- A slice that lies inside a placed field is a slice of the field. -/
theorem msbSlice_place_inside {n m : Nat} (x : BitVec n) (i f : Nat) (h : i ≤ f) (hf : f + m ≤ i + n) (hi : i + n ≤ 32) :
    msbSlice (place x i) f m = msbSlice x (f - i) m := by
  apply BitVec.eq_of_getLsbD_eq
  intro j hj
  simp only [msbSlice, place, BitVec.getLsbD_extractLsb', BitVec.getLsbD_shiftLeft, BitVec.getLsbD_setWidth, hj,
    decide_true, Bool.true_and]
  have h1 : 32 - f - m + j < 32 := by omega
  have h2 : ¬ 32 - f - m + j < 32 - i - n := by omega
  have h3 : n - (f - i) - m + j < 32 := by omega
  rw [show 32 - f - m + j - (32 - i - n) = n - (f - i) - m + j by omega]
  simp [h1, h2, h3]

@[simp] theorem reg5_toNat (r : Fin 32) : (reg5 r).toNat = r.val := by
  simp [reg5]

@[simp] theorem cr3_toNat (n : CrIdx) : (cr3 n).toNat = n.val := by
  simp [cr3]

/-- A register field read from a word that holds `reg5 r` there. -/
theorem regField_of_slice (w : Word) (i : Nat) (r : Fin 32) (h : msbSlice w i 5 = reg5 r) : regField w i = r := by
  apply Fin.ext
  simp [regField, h]

theorem crField_of_slice (w : Word) (i : Nat) (n : CrIdx) (h : msbSlice w i 3 = cr3 n) : crField w i = n := by
  apply Fin.ext
  simp [crField, h]

/-- Four bytes of a word put together again. -/
theorem wordOfBytes_wordBytes (w : Word) :
    wordOfBytes (msbSlice w 0 8) (msbSlice w 8 8) (msbSlice w 16 8) (msbSlice w 24 8) = w := by
  apply BitVec.eq_of_getLsbD_eq
  intro j hj
  simp only [wordOfBytes, msbSlice, BitVec.getLsbD_append, BitVec.getLsbD_extractLsb']
  by_cases h1 : j < 8
  · simp [h1]
  · by_cases h2 : j - 8 < 8
    · simp only [h1, h2, decide_true, Bool.true_and, ↓reduceIte]
      congr 1; omega
    · by_cases h3 : j - 8 - 8 < 8
      · simp only [h1, h2, h3, decide_true, Bool.true_and, ↓reduceIte]
        congr 1; omega
      · have h4 : j - 8 - 8 - 8 < 8 := by omega
        simp only [h1, h2, h3, h4, decide_true, Bool.true_and, ↓reduceIte]
        congr 1; omega

namespace Machine

/-- A word written big-endian is read back. -/
theorem Memory.readWord_writeBytes (m : Memory) (a : Nat) (w : Word) (h : Memory.wf m = true) :
    Memory.readWord (Memory.writeBytes m a (wordBytes w)) a = w := by
  have hl : (wordBytes w).length = 4 := rfl
  have e : ∀ k (hk : k < 4), Memory.read (Memory.writeBytes m a (wordBytes w)) (a + k) = (wordBytes w)[k]'(by omega) := by
    intro k hk
    rw [Memory.read_writeBytes _ _ _ _ h, dif_pos (by omega)]
    congr 1; omega
  have e0 := e 0 (by omega)
  rw [Nat.add_zero] at e0
  rw [Memory.readWord, e0, e 1 (by omega), e 2 (by omega), e 3 (by omega)]
  exact wordOfBytes_wordBytes w

end Machine

/-! ### Slices of a concatenation -/

theorem msbSlice_append_left {a b : Nat} (x : BitVec a) (y : BitVec b) (i n : Nat) (h : i + n ≤ a) :
    msbSlice (x ++ y) i n = msbSlice x i n := by
  apply BitVec.eq_of_getLsbD_eq
  intro j hj
  simp only [msbSlice, BitVec.getLsbD_extractLsb', BitVec.getLsbD_append, hj, decide_true, Bool.true_and]
  rw [if_neg (by omega)]
  congr 1; omega

theorem msbSlice_append_right {a b : Nat} (x : BitVec a) (y : BitVec b) (i n : Nat) (h : a ≤ i) (h2 : i + n ≤ a + b) :
    msbSlice (x ++ y) i n = msbSlice y (i - a) n := by
  apply BitVec.eq_of_getLsbD_eq
  intro j hj
  simp only [msbSlice, BitVec.getLsbD_extractLsb', BitVec.getLsbD_append, hj, decide_true, Bool.true_and]
  rw [if_pos (by omega)]
  congr 1; omega

theorem msbSlice_self {a : Nat} (x : BitVec a) : msbSlice x 0 a = x := by
  apply BitVec.eq_of_getLsbD_eq
  intro j hj
  simp [msbSlice, hj]

/-! ### The opcode table -/

/-- Two rows of the table have a fixed bit in common on which they differ. -/
theorem opcodeTable_apart :
    opcodeTable.Pairwise (fun a b => a.value &&& (a.mask &&& b.mask) ≠ b.value &&& (a.mask &&& b.mask)) := by
  decide

/-- No word matches two rows. -/
theorem opcodeTable_disjoint :
    opcodeTable.Pairwise (fun a b => ∀ w : Word, ¬ (w &&& a.mask = a.value ∧ w &&& b.mask = b.value)) := by
  refine opcodeTable_apart.imp ?_
  intro a b hab w hw
  apply hab
  rw [← hw.1, ← hw.2]
  ac_rfl

end Sys2Proof
end

