-- ==== Sys2Proof/Laws/Launch.lean ====
section
/-! SUPPORT. The launch premises of C.1 and C.2: the word that `lwz r3,disp+4(r1)` loads stands 4 above the scratch
doubleword (40 R101, R103, R104; 30_encoding.md R74). And what a change of the FPSCR's control
fields leaves alone. -/

namespace Sys2Proof.Machine

/-- Displacements in range add as numbers. -/
theorem dispFits.signExtend_add {disp : BitVec 16} (h : dispFits disp) :
    (disp + 4#16).signExtend 64 = disp.signExtend 64 + 4#64 := by
  unfold dispFits at h
  apply BitVec.eq_of_toInt_eq
  rw [BitVec.toInt_signExtend_of_le (by omega), BitVec.toInt_add, BitVec.toInt_add,
    BitVec.toInt_signExtend_of_le (by omega)]
  have := BitVec.two_mul_toInt_lt (x := disp)
  have := BitVec.le_two_mul_toInt (x := disp)
  simp only [show (4#16).toInt = 4 from rfl, show (4#64).toInt = 4 from rfl, Int.bmod_def]
  omega

/-- An aligned doubleword's upper word does not wrap. -/
theorem effectiveAddress_scratchWord {disp : BitVec 16} {s : State} (h : LaunchC1 disp s) :
    (s.effectiveAddress 1 (disp + 4#16)).toNat = (s.effectiveAddress 1 disp).toNat + 4 := by
  have ha := h.scratchAligned
  unfold State.effectiveAddress at ha ⊢
  rw [h.displacementsFit.signExtend_add, ← BitVec.add_assoc]
  generalize s.baseX 1 + disp.signExtend 64 = v at ha ⊢
  have hv := v.isLt
  cases hx : s.params.xlen <;> simp [Xlen.trunc, hx, BitVec.toNat_add] at ha ⊢ <;> omega

/-! ### Other control fields, as statements compare two runs -/

@[simp] theorem State.withEnables_params (s : State) (ve oe ue : Bool) : (s.withEnables ve oe ue).params = s.params := rfl
@[simp] theorem State.withEnables_fpr (s : State) (ve oe ue : Bool) : (s.withEnables ve oe ue).fpr = s.fpr := rfl
@[simp] theorem State.withEnables_gpr (s : State) (ve oe ue : Bool) : (s.withEnables ve oe ue).gpr = s.gpr := rfl
@[simp] theorem State.withEnables_pc (s : State) (ve oe ue : Bool) : (s.withEnables ve oe ue).pc = s.pc := rfl
@[simp] theorem State.withEnables_cr (s : State) (ve oe ue : Bool) : (s.withEnables ve oe ue).cr = s.cr := rfl
@[simp] theorem State.withEnables_mem (s : State) (ve oe ue : Bool) : (s.withEnables ve oe ue).mem = s.mem := rfl
@[simp] theorem State.withEnables_program (s : State) (ve oe ue : Bool) : (s.withEnables ve oe ue).program = s.program := rfl
@[simp] theorem State.withEnables_admitted (s : State) (ve oe ue : Bool) : (s.withEnables ve oe ue).admitted = s.admitted := rfl
@[simp] theorem State.withEnables_draws (s : State) (ve oe ue : Bool) : (s.withEnables ve oe ue).draws = s.draws := rfl
@[simp] theorem State.withEnables_readF (s : State) (ve oe ue : Bool) (i : FReg) : (s.withEnables ve oe ue).readF i = s.readF i := rfl
@[simp] theorem State.withEnables_readX (s : State) (ve oe ue : Bool) (i : GReg) : (s.withEnables ve oe ue).readX i = s.readX i := rfl
@[simp] theorem State.withEnables_readCr (s : State) (ve oe ue : Bool) (n : CrIdx) : (s.withEnables ve oe ue).readCr n = s.readCr n := rfl
@[simp] theorem State.withEnables_canAdvance (s : State) (ve oe ue : Bool) : (s.withEnables ve oe ue).canAdvance = s.canAdvance := rfl
@[simp] theorem State.withRn_params (s : State) (rn : BitVec 2) : (s.withRn rn).params = s.params := rfl
@[simp] theorem State.withRn_fpr (s : State) (rn : BitVec 2) : (s.withRn rn).fpr = s.fpr := rfl
@[simp] theorem State.withRn_gpr (s : State) (rn : BitVec 2) : (s.withRn rn).gpr = s.gpr := rfl
@[simp] theorem State.withRn_pc (s : State) (rn : BitVec 2) : (s.withRn rn).pc = s.pc := rfl
@[simp] theorem State.withRn_cr (s : State) (rn : BitVec 2) : (s.withRn rn).cr = s.cr := rfl
@[simp] theorem State.withRn_mem (s : State) (rn : BitVec 2) : (s.withRn rn).mem = s.mem := rfl
@[simp] theorem State.withRn_program (s : State) (rn : BitVec 2) : (s.withRn rn).program = s.program := rfl
@[simp] theorem State.withRn_admitted (s : State) (rn : BitVec 2) : (s.withRn rn).admitted = s.admitted := rfl
@[simp] theorem State.withRn_draws (s : State) (rn : BitVec 2) : (s.withRn rn).draws = s.draws := rfl
@[simp] theorem State.withRn_readF (s : State) (rn : BitVec 2) (i : FReg) : (s.withRn rn).readF i = s.readF i := rfl
@[simp] theorem State.withRn_readX (s : State) (rn : BitVec 2) (i : GReg) : (s.withRn rn).readX i = s.readX i := rfl
@[simp] theorem State.withRn_readCr (s : State) (rn : BitVec 2) (n : CrIdx) : (s.withRn rn).readCr n = s.readCr n := rfl
@[simp] theorem State.withRn_canAdvance (s : State) (rn : BitVec 2) : (s.withRn rn).canAdvance = s.canAdvance := rfl
@[simp] theorem State.withEnables_fpscr (s : State) (ve oe ue : Bool) :
    (s.withEnables ve oe ue).fpscr = { s.fpscr with ve := ve, oe := oe, ue := ue } := rfl
@[simp] theorem State.withRn_fpscr (s : State) (rn : BitVec 2) : (s.withRn rn).fpscr = { s.fpscr with rn := rn } := rfl

end Sys2Proof.Machine
end

