-- ==== Sys2Proof/Laws/PerInstr.lean ====
section
/-! SUPPORT. Statements made for every instruction, one lemma per constructor. TableRow: the instruction's word matches
its own row of spec/opcode_table.json. -/

namespace Sys2Proof.Laws

/-- The place of an instruction's row in `opcodeTable`. -/
def rowIndex : Instr → Nat
  | .frsp _ _ => 0
  | .fctiw _ _ => 1
  | .fctiwz _ _ => 2
  | .fctid _ _ => 3
  | .fctidz _ _ => 4
  | .fcfid _ _ => 5
  | .fmr _ _ => 6
  | .fcmpu _ _ _ => 7
  | .fsub _ _ _ => 8
  | .add _ _ _ => 9
  | .stfd _ _ _ => 10
  | .lwz _ _ _ => 11
  | .bl _ _ => 12
  | .bgt _ _ => 13
  | .bnl _ _ => 14

theorem or_and (a b m : Word) : (a ||| b) &&& m = (a &&& m) ||| (b &&& m) := by
  apply BitVec.eq_of_getLsbD_eq
  intro j hj
  simp only [BitVec.getLsbD_and, BitVec.getLsbD_or]
  cases a.getLsbD j <;> cases b.getLsbD j <;> simp

/-- A field where the mask holds no bit leaves nothing under the mask. -/
theorem place_and_zero {n : Nat} (x : BitVec n) (i : Nat) (m : Word)
    (h : place (BitVec.allOnes n) i &&& m = 0#32) : place x i &&& m = 0#32 := by
  apply BitVec.eq_of_getLsbD_eq
  intro j hj
  have hm := congrArg (fun v : Word => v.getLsbD j) h
  simp only [place, BitVec.getLsbD_and, BitVec.getLsbD_shiftLeft, BitVec.getLsbD_setWidth, BitVec.getLsbD_allOnes,
    BitVec.getLsbD_zero] at hm ⊢
  by_cases hn : j - (32 - i - n) < n
  · simp only [hn, decide_true] at hm
    cases hx : x.getLsbD (j - (32 - i - n)) <;> simp_all
  · rw [BitVec.getLsbD_of_ge x _ (by omega)]
    simp

namespace TableRow

/-- The word of the instruction matches the mask and value of its row. -/
def Statement (i : Instr) : Prop :=
  ∃ row, opcodeTable[rowIndex i]? = some row ∧ encode i &&& row.mask = row.value

theorem frsp (frt frb : FReg) : Statement (.frsp frt frb) := by
  refine ⟨_, rfl, ?_⟩
  simp (disch := decide) only [encode, encodeUnary, or_and, place_and_zero]
  decide

theorem fctiw (frt frb : FReg) : Statement (.fctiw frt frb) := by
  refine ⟨_, rfl, ?_⟩
  simp (disch := decide) only [encode, encodeUnary, or_and, place_and_zero]
  decide

theorem fctiwz (frt frb : FReg) : Statement (.fctiwz frt frb) := by
  refine ⟨_, rfl, ?_⟩
  simp (disch := decide) only [encode, encodeUnary, or_and, place_and_zero]
  decide

theorem fctid (frt frb : FReg) : Statement (.fctid frt frb) := by
  refine ⟨_, rfl, ?_⟩
  simp (disch := decide) only [encode, encodeUnary, or_and, place_and_zero]
  decide

theorem fctidz (frt frb : FReg) : Statement (.fctidz frt frb) := by
  refine ⟨_, rfl, ?_⟩
  simp (disch := decide) only [encode, encodeUnary, or_and, place_and_zero]
  decide

theorem fcfid (frt frb : FReg) : Statement (.fcfid frt frb) := by
  refine ⟨_, rfl, ?_⟩
  simp (disch := decide) only [encode, encodeUnary, or_and, place_and_zero]
  decide

theorem fmr (frt frb : FReg) : Statement (.fmr frt frb) := by
  refine ⟨_, rfl, ?_⟩
  simp (disch := decide) only [encode, encodeUnary, or_and, place_and_zero]
  decide

theorem fcmpu (bf : CrIdx) (fra frb : FReg) : Statement (.fcmpu bf fra frb) := by
  refine ⟨_, rfl, ?_⟩
  simp (disch := decide) only [encode, or_and, place_and_zero]
  decide

theorem fsub (frt fra frb : FReg) : Statement (.fsub frt fra frb) := by
  refine ⟨_, rfl, ?_⟩
  simp (disch := decide) only [encode, or_and, place_and_zero]
  decide

theorem add (rt ra rb : GReg) : Statement (.add rt ra rb) := by
  refine ⟨_, rfl, ?_⟩
  simp (disch := decide) only [encode, or_and, place_and_zero]
  decide

theorem stfd (frs : FReg) (d : BitVec 16) (ra : GReg) : Statement (.stfd frs d ra) := by
  refine ⟨_, rfl, ?_⟩
  simp (disch := decide) only [encode, encodeD, or_and, place_and_zero]
  decide

theorem lwz (rt : GReg) (d : BitVec 16) (ra : GReg) : Statement (.lwz rt d ra) := by
  refine ⟨_, rfl, ?_⟩
  simp (disch := decide) only [encode, encodeD, or_and, place_and_zero]
  decide

theorem bl (crn : CrIdx) (bd : BitVec 14) : Statement (.bl crn bd) := by
  refine ⟨_, rfl, ?_⟩
  simp (disch := decide) only [encode, encodeB, or_and, place_and_zero]
  decide

theorem bgt (crn : CrIdx) (bd : BitVec 14) : Statement (.bgt crn bd) := by
  refine ⟨_, rfl, ?_⟩
  simp (disch := decide) only [encode, encodeB, or_and, place_and_zero]
  decide

theorem bnl (crn : CrIdx) (bd : BitVec 14) : Statement (.bnl crn bd) := by
  refine ⟨_, rfl, ?_⟩
  simp (disch := decide) only [encode, encodeB, or_and, place_and_zero]
  decide

end TableRow
end Sys2Proof.Laws
end

