-- ==== Sys2Proof/Laws/Rounding.lean ====
section
/-! SUPPORT. The loops of the algorithms in closed form, and the rounding increment as rounding of numbers. -/

namespace Sys2Proof.Machine

/-! ### The sticky right shift -/

theorem toNat_stickyPass {w : Nat} (v : BitVec w) :
    (stickyPass v).toNat = if v.toNat % 2 = 0 then v.toNat / 2 else 2 * (v.toNat / 4) + 1 := by
  have hlt := v.isLt
  have h1 : (v &&& BitVec.ofNat w 1).toNat = v.toNat % 2 := by
    cases w with
    | zero => simp [BitVec.eq_nil v]
    | succ w =>
      rw [BitVec.toNat_and, BitVec.toNat_ofNat, Nat.mod_eq_of_lt (Nat.one_lt_two_pow (by omega)),
        Nat.and_one_is_mod]
  rw [stickyPass, BitVec.toNat_or, h1, BitVec.toNat_ushiftRight, Nat.shiftRight_eq_div_pow, Nat.pow_one]
  split
  · next h => rw [h, Nat.or_zero]
  · next h =>
    have h2 : v.toNat % 2 = 1 := by omega
    rw [h2]
    have key : v.toNat / 2 ||| 1 = 2 * (v.toNat / 2 / 2) + 1 := by
      apply Nat.eq_of_testBit_eq
      intro i
      cases i with
      | zero => simp [Nat.testBit_zero]
      | succ i =>
        rw [Nat.testBit_or, Nat.testBit_succ, Nat.testBit_succ, Nat.testBit_succ]
        rw [show (2 * (v.toNat / 2 / 2) + 1) / 2 = v.toNat / 2 / 2 by omega]
        simp
    rw [key, Nat.div_div_eq_div_mul]

/-- `n` passes divide by 2^n; a bit shifted out sets the last bit (41_frsp.md R143, 42_fcti.md R182). -/
theorem toNat_stickyShift {w : Nat} (n : Nat) (v : BitVec w) :
    (stickyShift n v).toNat =
      if v.toNat % 2 ^ n = 0 then v.toNat / 2 ^ n else 2 * (v.toNat / 2 ^ (n + 1)) + 1 := by
  induction n generalizing v with
  | zero => simp [stickyShift, Nat.mod_one]
  | succ n ih =>
    rw [stickyShift, ih, toNat_stickyPass]
    have hp : 0 < 2 ^ n := Nat.two_pow_pos n
    have e1 : 2 ^ (n + 1) = 2 * 2 ^ n := by rw [Nat.pow_succ, Nat.mul_comm]
    have e2 : 2 ^ (n + 1 + 1) = 4 * 2 ^ n := by rw [Nat.pow_succ, e1]; omega
    by_cases hpar : v.toNat % 2 = 0
    · rw [if_pos hpar, e1, e2]
      have hmod : v.toNat / 2 % 2 ^ n = 0 ↔ v.toNat % (2 * 2 ^ n) = 0 := by
        rw [Nat.mod_mul, hpar]; omega
      rw [Nat.div_div_eq_div_mul, Nat.div_div_eq_div_mul, show 2 * (2 * 2 ^ n) = 4 * 2 ^ n by omega]
      by_cases hm : v.toNat % (2 * 2 ^ n) = 0
      · rw [if_pos (hmod.mpr hm), if_pos hm]
      · rw [if_neg (fun h => hm (hmod.mp h)), if_neg hm]
    · rw [if_neg hpar, e1, e2]
      have hodd : v.toNat % (2 * 2 ^ n) ≠ 0 := by
        intro h
        apply hpar
        have := Nat.mod_mul_right_mod v.toNat 2 (2 ^ n)
        rw [h] at this
        omega
      rw [if_neg hodd]
      cases n with
      | zero => simp [Nat.mod_one]
      | succ n =>
        have hodd2 : (2 * (v.toNat / 4) + 1) % 2 ^ (n + 1) ≠ 0 := by
          intro h
          have h2 : (2 * (v.toNat / 4) + 1) % 2 = 0 := by
            have := Nat.mod_mul_right_mod (2 * (v.toNat / 4) + 1) 2 (2 ^ n)
            rw [show 2 * 2 ^ n = 2 ^ (n + 1) by rw [Nat.pow_succ, Nat.mul_comm], h] at this
            omega
          omega
        rw [if_neg hodd2]
        have e3 : 2 * 2 ^ (n + 1) = 2 * (2 * 2 ^ n) := by rw [Nat.pow_succ]; omega
        have e4 : 4 * 2 ^ (n + 1) = 4 * (2 * 2 ^ n) := by rw [Nat.pow_succ]; omega
        rw [e3, e4, ← Nat.div_div_eq_div_mul (2 * (v.toNat / 4) + 1), ← Nat.div_div_eq_div_mul v.toNat 4,
          show (2 * (v.toNat / 4) + 1) / 2 = v.toNat / 4 by omega]

/-! ### Normalizing -/

/-- Normalizing a non-zero significand shifts it left, by as many places as the exponent drops, until its leading
bit is 1; no 1 is lost (41_frsp.md R143, R144; 43_fcfid.md R221). -/
theorem normalizeFrac_spec {w : Nat} (fuel : Nat) (exp : Int) (frac : BitVec w) (h0 : frac.toNat ≠ 0)
    (hf : 2 ^ w ≤ frac.toNat * 2 ^ (fuel + 1)) :
    ∃ k : Nat, (normalizeFrac fuel exp frac).1 = exp - k ∧
      (normalizeFrac fuel exp frac).2.toNat = frac.toNat * 2 ^ k ∧
      2 ^ w ≤ 2 * (frac.toNat * 2 ^ k) ∧ frac.toNat * 2 ^ k < 2 ^ w := by
  induction fuel generalizing exp frac with
  | zero =>
    refine ⟨0, by simp [normalizeFrac], by simp [normalizeFrac], ?_, by simpa using frac.isLt⟩
    simpa [Nat.mul_comm] using hf
  | succ fuel ih =>
    have hw : 0 < w := by
      cases w with
      | zero => exact absurd (by simp [BitVec.eq_nil frac]) h0
      | succ w => omega
    have hmsb : frac.getMsbD 0 = decide (2 ^ w ≤ 2 * frac.toNat) := by
      have := BitVec.msb_eq_decide frac
      rw [BitVec.msb] at this
      rw [this]
      have e : 2 ^ w = 2 * 2 ^ (w - 1) := by
        rw [← Nat.pow_succ']
        congr 1
        omega
      rw [e]
      congr 1
      exact propext (by omega)
    rw [normalizeFrac]
    by_cases hb : 2 ^ w ≤ 2 * frac.toNat
    · rw [hmsb, decide_eq_true hb, if_pos rfl]
      exact ⟨0, by simp, by simp, by simpa using hb, by simpa using frac.isLt⟩
    · rw [hmsb, decide_eq_false hb, if_neg (by simp)]
      have hs : (frac <<< 1).toNat = frac.toNat * 2 := by
        rw [BitVec.toNat_shiftLeft, Nat.shiftLeft_eq, Nat.pow_one, Nat.mod_eq_of_lt (by omega)]
      obtain ⟨k, h1, h2, h3, h4⟩ := ih (exp - 1) (frac <<< 1) (by omega) (by
        rw [hs]
        have : frac.toNat * 2 * 2 ^ (fuel + 1) = frac.toNat * 2 ^ (fuel + 1 + 1) := by
          rw [Nat.pow_succ 2 (fuel + 1), Nat.mul_assoc, Nat.mul_comm 2]
        omega)
      have e : frac.toNat * 2 * 2 ^ k = frac.toNat * 2 ^ (k + 1) := by
        rw [Nat.pow_succ, Nat.mul_assoc, Nat.mul_comm 2]
      rw [hs, e] at h2 h3 h4
      exact ⟨k + 1, by rw [h1]; omega, h2, h3, h4⟩

/-! ### Rounding -/

/-- A magnitude with a sign. -/
def applySign (sign : Bool) (n : Nat) : Int := if sign then -(n : Int) else (n : Int)

/-- The increment of the three rounding procedures rounds: `kept` units and a remainder below one unit, the guard bit
saying the remainder is at least half a unit, the bits below it that there is more (10_state.md R27). -/
theorem roundInc_roundsTo (mode : RoundMode) (sign gbit rbit xbit : Bool) (kept rem unit : Nat) (hrem : rem < unit)
    (hg : gbit = decide (unit ≤ 2 * rem))
    (hx : (rbit || xbit) = decide (if unit ≤ 2 * rem then unit ≠ 2 * rem else rem ≠ 0)) :
    RoundsTo mode (applySign sign (kept * unit + rem)) unit
      (applySign sign (kept + if roundInc mode sign (decide (kept % 2 = 1)) gbit rbit xbit then 1 else 0)) := by
  have hinc : (gbit || rbit || xbit) = decide (rem ≠ 0) := by
    rw [Bool.or_assoc, hx, hg]
    by_cases h : unit ≤ 2 * rem
    · simp [h]; omega
    · simp [h]
  have hpos : 0 ≤ (kept : Int) * unit := by positivity
  have e1 : ((kept + 1 : Nat) : Int) * unit = kept * unit + unit := by push_cast; ring
  have e2 : (-((kept : Int) + 1)) * unit = -(kept * unit) - unit := by ring
  have e3 : (-(kept : Int)) * unit = -(kept * unit) := by ring
  have e4 : ((kept : Int) + 1) * unit = kept * unit + unit := by ring
  cases mode with
  | zero =>
    have hz : roundInc .zero sign (decide (kept % 2 = 1)) gbit rbit xbit = false := rfl
    rw [hz]
    cases sign
    · simp only [RoundsTo, applySign, Bool.false_eq_true, ↓reduceIte, Nat.add_zero]
      push_cast
      refine ⟨by omega, by omega, by positivity⟩
    · simp only [RoundsTo, applySign, Bool.false_eq_true, ↓reduceIte, Nat.add_zero]
      push_cast
      refine ⟨by rw [e3]; omega, by rw [e3]; omega, ?_⟩
      rw [neg_mul_neg]
      positivity
  | nearest =>
    have hn : roundInc .nearest sign (decide (kept % 2 = 1)) gbit rbit xbit =
        decide (unit ≤ 2 * rem ∧ (kept % 2 = 1 ∨ unit ≠ 2 * rem)) := by
      have : roundInc .nearest sign (decide (kept % 2 = 1)) gbit rbit xbit =
          (gbit && (decide (kept % 2 = 1) || (rbit || xbit))) := by
        simp only [roundInc]
        cases gbit <;> cases rbit <;> cases xbit <;> cases decide (kept % 2 = 1) <;> rfl
      rw [this, hg, hx]
      by_cases h : unit ≤ 2 * rem <;> by_cases hk : kept % 2 = 1 <;> simp [h, hk]
    rw [hn]
    by_cases hc : unit ≤ 2 * rem ∧ (kept % 2 = 1 ∨ unit ≠ 2 * rem)
    · rw [decide_eq_true hc, if_pos rfl]
      cases sign
      · simp only [RoundsTo, applySign, Bool.false_eq_true, ↓reduceIte]
        push_cast
        rw [e4]
        exact ⟨by omega, by omega⟩
      · simp only [RoundsTo, applySign, ↓reduceIte]
        push_cast
        rw [e2]
        exact ⟨by omega, by omega⟩
    · rw [decide_eq_false hc]
      cases sign
      · simp only [RoundsTo, applySign, Bool.false_eq_true, ↓reduceIte, Nat.add_zero]
        push_cast
        exact ⟨by omega, by omega⟩
      · simp only [RoundsTo, applySign, Bool.false_eq_true, ↓reduceIte, Nat.add_zero]
        push_cast
        rw [e3]
        exact ⟨by omega, by omega⟩
  | posInf =>
    have hn : roundInc .posInf sign (decide (kept % 2 = 1)) gbit rbit xbit = (!sign && decide (rem ≠ 0)) := by
      rw [← hinc]
      simp only [roundInc]
      cases sign <;> cases gbit <;> cases rbit <;> cases xbit <;> rfl
    rw [hn]
    cases sign
    · by_cases hr : rem = 0
      · simp only [RoundsTo, applySign, hr, Bool.false_eq_true, ↓reduceIte, ne_eq, not_true_eq_false, decide_false,
          Bool.not_false, Bool.and_false, Nat.add_zero]
        push_cast
        omega
      · simp only [RoundsTo, applySign, hr, Bool.false_eq_true, ↓reduceIte, ne_eq, not_false_eq_true, decide_true,
          Bool.not_false, Bool.and_true]
        push_cast
        rw [e4]
        omega
    · simp only [RoundsTo, applySign, Bool.not_true, Bool.false_and, Bool.false_eq_true, ↓reduceIte, Nat.add_zero]
      push_cast
      rw [e3]
      omega
  | negInf =>
    have hn : roundInc .negInf sign (decide (kept % 2 = 1)) gbit rbit xbit = (sign && decide (rem ≠ 0)) := by
      rw [← hinc]
      simp only [roundInc]
      cases sign <;> cases gbit <;> cases rbit <;> cases xbit <;> rfl
    rw [hn]
    cases sign
    · simp only [RoundsTo, applySign, Bool.false_and, Bool.false_eq_true, ↓reduceIte, Nat.add_zero]
      push_cast
      omega
    · by_cases hr : rem = 0
      · simp only [RoundsTo, applySign, hr, ↓reduceIte, ne_eq, not_true_eq_false, decide_false, Bool.and_false,
          Bool.false_eq_true, Nat.add_zero]
        push_cast
        rw [e3]
        omega
      · simp only [RoundsTo, applySign, hr, ↓reduceIte, ne_eq, not_false_eq_true, decide_true, Bool.and_true]
        push_cast
        rw [e2]
        omega

/-- Rounding has one result. -/
theorem RoundsTo.unique {mode : RoundMode} {x : Int} {unit : Nat} {r q : Int} (hu : 0 < unit)
    (hr : RoundsTo mode x unit r) (hq : RoundsTo mode x unit q) : r = q := by
  have hu' : (0 : Int) < unit := by exact_mod_cast hu
  have near : ∀ {a b : Int}, a * unit < b * unit + unit → a ≤ b := by
    intro a b h
    by_contra hc
    have hab : b + 1 ≤ a := by omega
    nlinarith
  cases mode with
  | posInf =>
    obtain ⟨h1, h2⟩ := hr
    obtain ⟨h3, h4⟩ := hq
    exact le_antisymm (near (by omega)) (near (by omega))
  | negInf =>
    obtain ⟨h1, h2⟩ := hr
    obtain ⟨h3, h4⟩ := hq
    exact le_antisymm (near (by omega)) (near (by omega))
  | nearest =>
    obtain ⟨h1, h2⟩ := hr
    obtain ⟨h3, h4⟩ := hq
    by_contra hne
    have gap : ∀ {a b : Int}, a < b → 2 * (x - a * unit).natAbs ≤ unit → 2 * (x - b * unit).natAbs ≤ unit →
        b = a + 1 ∧ 2 * (x - a * unit).natAbs = unit ∧ 2 * (x - b * unit).natAbs = unit := by
      intro a b hab ha hb
      have hle : b * unit ≤ a * unit + unit := by omega
      have hba : b = a + 1 := by
        have : b ≤ a + 1 := by
          by_contra hc
          have : a + 2 ≤ b := by omega
          nlinarith
        omega
      subst hba
      have e : (a + 1) * (unit : Int) = a * unit + unit := by ring
      rw [e] at hb ⊢
      omega
    rcases lt_or_gt_of_ne hne with h | h
    · obtain ⟨e, t1, t2⟩ := gap h h1 h3
      have := h2 t1
      have := h4 t2
      omega
    · obtain ⟨e, t1, t2⟩ := gap h h3 h1
      have := h4 t1
      have := h2 t2
      omega
  | zero =>
    obtain ⟨h1, h2, h3⟩ := hr
    obtain ⟨h4, h5, h6⟩ := hq
    rcases lt_trichotomy x 0 with hx | hx | hx
    · have hr0 : r ≤ 0 := by by_contra hc; nlinarith
      have hq0 : q ≤ 0 := by by_contra hc; nlinarith
      have hru : r * unit ≤ 0 := by nlinarith
      have hqu : q * unit ≤ 0 := by nlinarith
      exact le_antisymm (near (by omega)) (near (by omega))
    · subst hx
      have hru : r * unit = 0 := by omega
      have hqu : q * unit = 0 := by omega
      rw [mul_eq_zero] at hru hqu
      omega
    · have hr0 : 0 ≤ r := by by_contra hc; nlinarith
      have hq0 : 0 ≤ q := by by_contra hc; nlinarith
      have hru : 0 ≤ r * unit := by positivity
      have hqu : 0 ≤ q * unit := by positivity
      exact le_antisymm (near (by omega)) (near (by omega))

end Sys2Proof.Machine
end

