-- ==== Sys2Proof/Tests/Slice0.lean ====
section
/-! SUPPORT. Tests. Expected values are those of 95_test_vectors.md or of the rule a comment names; words are written
from 30_encoding.md R72 to R75. The second half shows, for each statement with hypotheses, a concrete state and operands
that meet them all. -/

namespace Sys2Proof.Tests

open Sys2Proof Sys2Proof.Machine

-- one theorem after another: so many at once ask for more threads than the memory limit gives stacks
set_option Elab.async false

/-! ### Helpers -/

/-- The step completed. -/
def isNext : Out → Bool
  | .next _ => true
  | .fault _ => false
  | .refused _ => false

/-- The state a step that completed left (`State.reset` if it did not). -/
def after : Out → State
  | .next t => t
  | .fault _ => State.reset
  | .refused _ => State.reset

/-- The state in a stop for an enabled exception (`State.reset` if there is none), and its bit. -/
def stopped : Out → Option FpBit × State
  | .fault (.fpEnabledException b t) => (some b, t)
  | .next _ => (none, State.reset)
  | .fault _ => (none, State.reset)
  | .refused _ => (none, State.reset)

theorem eq_next {o : Out} (h : isNext o = true) : o = .next (after o) := by
  cases o <;> simp_all [isNext, after]

theorem eq_fault {o : Out} {b : FpBit} (h : (stopped o).1 = some b) :
    o = .fault (.fpEnabledException b (stopped o).2) := by
  cases o with
  | fault r => cases r <;> simp_all [stopped]
  | next t => simp [stopped] at h
  | refused r => simp [stopped] at h

/-- `RoundsTo`, decided. -/
def rounds (mode : RoundMode) (x : Int) (unit : Nat) (r : Int) : Bool :=
  match mode with
  | .nearest => decide (2 * (x - r * unit).natAbs ≤ unit ∧ (2 * (x - r * unit).natAbs = unit → r % 2 = 0))
  | .zero => decide ((r * unit).natAbs ≤ x.natAbs ∧ (x - r * unit).natAbs < unit ∧ 0 ≤ x * r)
  | .posInf => decide (x ≤ r * unit ∧ r * unit < x + unit)
  | .negInf => decide (r * unit ≤ x ∧ x < r * unit + unit)

theorem roundsTo_of {mode : RoundMode} {x : Int} {unit : Nat} {r : Int} (h : rounds mode x unit r = true) :
    RoundsTo mode x unit r := by
  cases mode <;> simpa only [rounds, RoundsTo, decide_eq_true_eq] using h

/-- After reset, with `f[1]`, `f[2]` and `RN`. -/
def fp (f1 f2 : Dword) (rn : BitVec 2) : State := ((State.reset.writeF 1 f1).writeF 2 f2).withRn rn

/-- `fp` with VE = OE = UE = 1. -/
def trapping (f1 f2 : Dword) (rn : BitVec 2) : State :=
  let s := fp f1 f2 rn
  s.setFpscr { s.fpscr with ve := true, oe := true, ue := true }

/-- After reset, with `x[1]`, `x[3]`, `x[5]` and data accesses admitted from 0x1008 to 0x100F only. -/
def gp (xlen : Xlen) (x1 x3 x5 : Dword) : State :=
  let s := { State.reset with params := { State.reset.params with xlen := xlen }, admitted := [⟨0x1008, 8⟩] }
  ((s.writeX 1 x1).writeX 3 x3).writeX 5 x5

/-- After reset, with `CR[2]` and `pc`. -/
def cr2 (c : CrField) (pc : Dword) : State := (State.reset.writeCr 2 c).setPc pc

/-- LT, GT, EQ, UN. -/
def lt : CrField := ⟨true, false, false, false⟩
def gt : CrField := ⟨false, true, false, false⟩
def eq : CrField := ⟨false, false, true, false⟩
def un : CrField := ⟨false, false, false, true⟩

/-! ### WellFormed: the one check, and the term it refuses -/

theorem test_wf_refuses_fctid : (Instr.fctid 1 2).wf { Config.resetParams with hasFp64Int := false } = false := by decide
theorem test_wf_refuses_fctidz : (Instr.fctidz 1 2).wf { Config.resetParams with hasFp64Int := false } = false := by decide
theorem test_wf_refuses_fcfid : (Instr.fcfid 1 2).wf { Config.resetParams with hasFp64Int := false } = false := by decide
theorem test_wf_admits_fcfid : (Instr.fcfid 1 2).wf Config.resetParams = true := by decide
theorem test_wf_admits_fctiw : (Instr.fctiw 1 2).wf { Config.resetParams with hasFp64Int := false } = true := by decide

/-! ### Decode: every constructor from a word written out field by field, and the refused words of 95 section 6 -/

-- X: OPCD 63, FRT, 0, FRB, XO, Rc
theorem test_decode_frsp : decodeWord true (63#6 ++ 2#5 ++ 0#5 ++ 1#5 ++ 12#10 ++ 0#1) = .instr (.frsp 2 1) := by decide
theorem test_decode_fctiw : decodeWord false (63#6 ++ 2#5 ++ 0#5 ++ 1#5 ++ 14#10 ++ 0#1) = .instr (.fctiw 2 1) := by decide
theorem test_decode_fctiwz : decodeWord false (63#6 ++ 2#5 ++ 0#5 ++ 1#5 ++ 15#10 ++ 0#1) = .instr (.fctiwz 2 1) := by decide
theorem test_decode_fctid : decodeWord true (63#6 ++ 3#5 ++ 0#5 ++ 31#5 ++ 814#10 ++ 0#1) = .instr (.fctid 3 31) := by decide
theorem test_decode_fctidz : decodeWord true (63#6 ++ 3#5 ++ 0#5 ++ 2#5 ++ 815#10 ++ 0#1) = .instr (.fctidz 3 2) := by decide
theorem test_decode_fcfid : decodeWord true (63#6 ++ 1#5 ++ 0#5 ++ 0#5 ++ 846#10 ++ 0#1) = .instr (.fcfid 1 0) := by decide
theorem test_decode_fmr : decodeWord true (63#6 ++ 2#5 ++ 0#5 ++ 4#5 ++ 72#10 ++ 0#1) = .instr (.fmr 2 4) := by decide
-- X, compare: OPCD 63, BF, 0, FRA, FRB, XO, 0
theorem test_decode_fcmpu : decodeWord true (63#6 ++ 7#3 ++ 0#2 ++ 1#5 ++ 2#5 ++ 0#10 ++ 0#1) = .instr (.fcmpu 7 1 2) := by decide
-- A: OPCD 63, FRT, FRA, FRB, FRC, XO, Rc
theorem test_decode_fsub : decodeWord true (63#6 ++ 2#5 ++ 1#5 ++ 5#5 ++ 0#5 ++ 20#5 ++ 0#1) = .instr (.fsub 2 1 5) := by decide
-- XO: OPCD 31, RT, RA, RB, OE, XO, Rc
theorem test_decode_add : decodeWord true (31#6 ++ 3#5 ++ 4#5 ++ 5#5 ++ 0#1 ++ 266#9 ++ 0#1) = .instr (.add 3 4 5) := by decide
-- D: OPCD, FRS or RT, RA, D
theorem test_decode_stfd : decodeWord true (54#6 ++ 2#5 ++ 1#5 ++ 0xFFF8#16) = .instr (.stfd 2 (-8) 1) := by decide
theorem test_decode_lwz : decodeWord true (32#6 ++ 3#5 ++ 1#5 ++ 12#16) = .instr (.lwz 3 12 1) := by decide
-- B: OPCD 16, BO, BI, BD, AA, LK
theorem test_decode_bl : decodeWord true (16#6 ++ 0b01100#5 ++ 8#5 ++ 2#14 ++ 0#1 ++ 0#1) = .instr (.bl 2 2) := by decide
theorem test_decode_bgt : decodeWord true (16#6 ++ 0b01100#5 ++ 9#5 ++ 6#14 ++ 0#1 ++ 0#1) = .instr (.bgt 2 6) := by decide
theorem test_decode_bnl : decodeWord true (16#6 ++ 0b00100#5 ++ 8#5 ++ 0x3FFF#14 ++ 0#1 ++ 0#1) = .instr (.bnl 2 (-1)) := by decide

/-- 95 section 6, "Decode vectors". -/
theorem test_decode_refused :
    decodeWord true 0xFC400891#32 = .refused .recordForm ∧ decodeWord true 0x7C632E14#32 = .refused .overflowForm ∧
    decodeWord true 0x41880009#32 = .refused .linkForm ∧ decodeWord true 0x4188000A#32 = .refused .absoluteForm ∧
    decodeWord true 0x418A0008#32 = .refused .branchCondition ∧ decodeWord true 0xFC41081C#32 = .refused .reservedField ∧
    decodeWord true 0xFD610000#32 = .refused .reservedField ∧ decodeWord true 0xFC4129A8#32 = .refused .reservedField ∧
    decodeWord true 0#32 = .refused .unknownOpcode ∧ decodeWord true 0x60000000#32 = .refused .unknownOpcode := by decide

/-- 95 P3: without `HAS_FP64INT` the word of `fcfid` is refused. -/
theorem test_decode_absent : decodeWord false 0xFC20069C#32 = .refused .absentInstruction := by decide

/-- Fewer than four bytes are no instruction; bytes after the four are left. -/
theorem test_decode_bytes :
    decodeBytes true [0xFC, 0x40, 0x08] = (.refused .truncated, [0xFC, 0x40, 0x08]) ∧
    decodeBytes true [0xFC, 0x40, 0x08, 0x18, 0x7C] = (.instr (.frsp 2 1), [0x7C]) := by decide

/-- The words of 95 P1 (C.1 with `fctiwz`) and P2 (C.2 with `fctiw`), displacement 8. -/
theorem test_encode_sequences :
    (sequenceC1 true 8).map encode = [0xFC40081E#32, 0xD8410008#32, 0x8061000C#32] ∧
    (sequenceC2 false 8).map encode =
      [0xFC400090#32, 0xFD010000#32, 0x41880024#32, 0xFC402090#32, 0xFD011800#32, 0x41890018#32, 0xFC412828#32] ++
      [0xFD012800#32, 0x40880008#32, 0xFC400890#32, 0xFC40101C#32, 0xD8410008#32, 0x8061000C#32, 0x41880008#32] ++
      [0x7C632A14#32] := by decide

/-- 10_state.md R30: each named field stands at its bit (VE bit 24, RN bits 30:31, FPRF bits 15:19). -/
theorem test_fpscr_image :
    ({ Fpscr.reset with ve := true, rn := 2#2, ox := true, fprf := .posInfinity }).image = 0x10005082#32 := by decide

/-! ### One step of each instruction -/

-- 95 2.1: 1 + 3 x 2^-24 under RN = 0b00
theorem test_frsp_rounds :
    let t := after (exec (.frsp 2 1) (fp 0x3FF0000030000000#64 0 0))
    t.readF 2 = 0x3FF0000040000000#64 ∧ t.fpscr = { Fpscr.reset with xx := true, fr := true, fi := true, fprf := .posNormal } := by
  decide +kernel

-- 95 2.3: 2^-126 - 2^-179, denormalized, rounds up to the least normal number
theorem test_frsp_underflow :
    let t := after (exec (.frsp 2 1) (fp 0x380FFFFFFFFFFFFF#64 0 0))
    t.readF 2 = 0x3810000000000000#64 ∧
      t.fpscr = { Fpscr.reset with xx := true, ux := true, fr := true, fi := true, fprf := .posNormal } := by
  decide +kernel

/-- The low word of a word result is the integer, whatever the drawn high word (42_fcti.md R187). -/
theorem test_fctiw_low_word (i : Dword) (n : Nat) : msbSlice (IntTarget.word.frt i n) 32 32 = msbSlice i 32 32 := by
  simp only [IntTarget.frt]
  rw [msbSlice_append_right _ _ 32 32 (by decide) (by decide)]
  exact msbSlice_self _

-- 95 3: 2147483647.5 under RN = 0b00 saturates, XX and VXCVI both set; 2.5 is a tie to 2
theorem test_fctiw_flags :
    let t := after (exec (.fctiw 2 1) (fp 0x41DFFFFFFFE00000#64 0 0))
    (t.fpscr.xx, t.fpscr.vxcvi, t.fpscr.fr, t.fpscr.fi) = (true, true, false, false) ∧
      fctiRounded .nearest 0x4004000000000000#64 = (2#65, false, true) := by
  decide +kernel

-- 95 3: -1.5 toward zero is -1, whatever RN
theorem test_fctiwz_flags :
    let t := after (exec (.fctiwz 2 1) (fp 0xBFF8000000000000#64 0 0b11#2))
    (t.fpscr.xx, t.fpscr.vxcvi, t.fpscr.fr, t.fpscr.fi) = (true, false, false, true) ∧
      fctiRounded .zero 0xBFF8000000000000#64 = (-1#65, false, true) := by
  decide +kernel

-- 95 4: 2^52 + 1; 2^63 saturates
theorem test_fctid :
    (after (exec (.fctid 2 1) (fp 0x4330000000000001#64 0 0))).readF 2 = 0x0010000000000001#64 ∧
    (after (exec (.fctid 2 1) (fp 0x43E0000000000000#64 0 0))).readF 2 = 0x7FFFFFFFFFFFFFFF#64 := by
  decide +kernel

-- 95 4: -2.25 toward zero
theorem test_fctidz :
    let t := after (exec (.fctidz 2 1) (fp 0xC002000000000000#64 0 0b11#2))
    t.readF 2 = 0xFFFFFFFFFFFFFFFE#64 ∧ (t.fpscr.xx, t.fpscr.fr, t.fpscr.fi) = (true, false, true) := by
  decide +kernel

-- 95 5: 2^63 - 1 carries out of the significand; -2^63 needs no normalize pass
theorem test_fcfid :
    (after (exec (.fcfid 2 1) (fp 0x7FFFFFFFFFFFFFFF#64 0 0))).readF 2 = 0x43E0000000000000#64 ∧
    (after (exec (.fcfid 2 1) (fp 0x8000000000000000#64 0 0))).readF 2 = 0xC3E0000000000000#64 := by
  decide +kernel

-- 95 6: an SNaN is copied as it is
theorem test_fmr :
    let t := after (exec (.fmr 3 1) (fp 0x7FF0000000000001#64 0 0))
    t.readF 3 = 0x7FF0000000000001#64 ∧ t.fpscr = Fpscr.reset := by
  decide +kernel

-- 95 6: 1.0 against 1.0 into cr7; -1.5 against +0
theorem test_fcmpu :
    let t := after (exec (.fcmpu 7 1 2) (fp 0x3FF0000000000000#64 0x3FF0000000000000#64 0))
    t.readCr 7 = eq ∧ t.readCr 6 = State.reset.readCr 6 ∧
      (after (exec (.fcmpu 2 1 0) (fp 0xBFF8000000000000#64 0 0))).readCr 2 = lt := by
  decide +kernel

-- 95 6: 3 x 2^30 - 2^31; 2^31 - 2^31 under RN = 0b11
theorem test_fsub :
    (after (exec (.fsub 3 1 2) (fp 0x41E8000000000000#64 0x41E0000000000000#64 0))).readF 3 = 0x41D0000000000000#64 ∧
    (after (exec (.fsub 3 1 2) (fp 0x41E0000000000000#64 0x41E0000000000000#64 0b11#2))).readF 3 =
      0x8000000000000000#64 := by
  decide +kernel

-- 95 6: 0x80000000 + 0x80000000
theorem test_add :
    (after (exec (.add 3 3 5) (gp .x32 0 0x80000000#64 0x80000000#64))).readX 3 = 0#64 ∧
    (after (exec (.add 3 3 5) (gp .x64 0 0x80000000#64 0x80000000#64))).readX 3 = 0x100000000#64 := by
  decide +kernel

-- 95 6: stfd f2,-8(r1)
theorem test_stfd :
    let t := after (exec (.stfd 2 (-8) 1) ((gp .x64 0x1010#64 0 0).writeF 2 0x0123456789ABCDEF#64))
    t.mem = [(0x1008, 0x01), (0x1009, 0x23), (0x100A, 0x45), (0x100B, 0x67), (0x100C, 0x89), (0x100D, 0xAB),
      (0x100E, 0xCD), (0x100F, 0xEF)] := by
  decide +kernel

-- 95 6 and P5: misaligned, base register 0, unmapped
theorem test_access_faults :
    (match exec (.stfd 2 4 1) (gp .x32 0x1000#64 0 0) with
      | .fault r => decide (r = .misaligned 0x1004 8) | .next _ => false | .refused _ => false) = true ∧
    (match exec (.stfd 2 0 0) ((gp .x32 0x1000#64 0 0).writeX 0 0x55555550#64) with
      | .fault r => decide (r = .unmapped 0 8) | .next _ => false | .refused _ => false) = true ∧
    (match exec (.lwz 3 16 1) (gp .x32 0x1000#64 0 0) with
      | .fault r => decide (r = .unmapped 0x1010 4) | .next _ => false | .refused _ => false) = true := by
  decide +kernel

-- 95 6: lwz r1,0(r1), the address formed before the write; zero extension
theorem test_lwz :
    (after (exec (.lwz 1 0 1) { gp .x64 0x1008#64 0 0 with mem := [(0x100A, 0x20)] })).readX 1 = 0x2000#64 ∧
    (after (exec (.lwz 3 12 1) { gp .x64 0x1000#64 0 0 with
      mem := [(0x100C, 0xFF), (0x100D, 0xFF), (0x100E, 0xFF), (0x100F, 0xFE)] })).readX 3 = 0xFFFFFFFE#64 := by
  decide +kernel

-- 95 6: bl cr2,$+8 at 0x134; bgt cr2,$+24 at 0x114; bnl cr2,$+8 at 0x120
theorem test_bl : [lt, gt, eq, un].map (fun c => (after (exec (.bl 2 2) (cr2 c 0x134#64))).pc) =
    [0x13C#64, 0x138#64, 0x138#64, 0x138#64] := by decide +kernel
theorem test_bgt : [gt, lt, un].map (fun c => (after (exec (.bgt 2 6) (cr2 c 0x114#64))).pc) =
    [0x12C#64, 0x118#64, 0x118#64] := by decide +kernel
theorem test_bnl : [lt, gt, eq, un].map (fun c => (after (exec (.bnl 2 2) (cr2 c 0x120#64))).pc) =
    [0x124#64, 0x128#64, 0x128#64, 0x128#64] := by decide +kernel

/-! ### Reset and the step -/

theorem test_reset_memory : State.reset.mem.wf = true := by decide

theorem test_reset_inv : State.reset.Inv :=
  ⟨by decide, by unfold State.registersFit; decide +kernel, by unfold State.pcFits; decide, by unfold Fprf.canonical; decide⟩

/-- 70 R285: nothing is loaded after reset, so the run is at its end. -/
theorem test_reset_ends :
    (match step State.reset with
      | .fault r => decide (r = .endOfRun) | .next _ => false | .refused _ => false) = true := by decide +kernel

/-- The word of each row of the table, operands 0, runs as the first instruction after reset. -/
theorem test_every_row_runs :
    opcodeTable.all (fun row => isNext (step (State.reset.withFetchWord 32 row.value.toNat)) &&
      (decodeTableWord 32 row.value.toNat).isSome) = true := by decide +kernel

/-- 95 P5: `fmr.` is refused with its word. -/
theorem test_step_refuses :
    (match step (State.reset.withFetchWord 32 0xFC400891) with
      | .refused r => decide (r = .badWord 0xFC400891#32 .recordForm) | .next _ => false | .fault _ => false) = true := by
  decide +kernel

/-! ### Witnesses: for each statement with hypotheses, a state and operands that meet them, clause by clause -/

/-- After reset with an `add` placed at 0x100, and every sticky bit set. -/
def placed : State :=
  (State.reset.setFpscr { Fpscr.reset with ox := true, ux := true, xx := true, vxsnan := true, vxcvi := true }).placeWord
    0x7C632A14#32

/-- After reset with `pc` in the last word of the address space. -/
def atTop : State := State.reset.setPc 0xFFFFFFFFFFFFFFFC#64

theorem test_witness_DecodeOfEncodeIsTheInstruction :
    (Instr.fctid 31 0).wf Config.resetParams = true ∧ (Instr.stfd 31 0x8000#16 0).wf Config.resetParams = true := by decide

theorem test_witness_DecodedWordIsItsEncoding :
    decodeWord Config.resetParams.hasFp64Int 0xFC60165E#32 = .instr (.fctidz 3 2) := by decide

theorem test_witness_TableWordsDecode :
    ∃ row ∈ opcodeTable, 0x40880008#32 &&& row.mask = row.value := by decide

theorem test_witness_WordsOutsideTheTableAreRefused :
    (∀ row ∈ opcodeTable, 0x60000000#32 &&& row.mask ≠ row.value) ∧
    (match (State.reset.placeWord 0x60000000#32).fetch with
      | .next w => decide (w = 0x60000000#32) | .fault _ => false | .refused _ => false) = true := by
  decide +kernel

/-- One word for each clause, in the order of the statement. -/
theorem test_witness_VariantFormsAreRefused :
    (msbSlice 0xFC400891#32 0 6 = 63#6 ∧ msbSlice 0xFC400891#32 31 1 = 1#1) ∧
    (msbSlice 0x7C632E14#32 0 6 = 31#6 ∧ msbSlice 0x7C632E14#32 22 9 = 266#9 ∧ msbSlice 0x7C632E14#32 21 1 = 1#1) ∧
    (msbSlice 0x4188000A#32 0 6 = 16#6 ∧ msbSlice 0x4188000A#32 30 1 = 1#1 ∧ msbSlice 0x41880009#32 31 1 = 1#1) ∧
    (msbSlice 0xFC41081C#32 0 6 = 63#6 ∧ msbSlice 0xFC41081C#32 21 10 = 14#10 ∧ msbSlice 0xFC41081C#32 11 5 ≠ 0#5) ∧
    (msbSlice 0xFD610000#32 0 6 = 63#6 ∧ msbSlice 0xFD610000#32 21 10 = 0#10 ∧ msbSlice 0xFD610000#32 9 2 ≠ 0#2) ∧
    (msbSlice 0xFC4129A8#32 0 6 = 63#6 ∧ msbSlice 0xFC4129A8#32 26 5 = 20#5 ∧ msbSlice 0xFC4129A8#32 21 5 ≠ 0#5) ∧
    (msbSlice 0x42800008#32 0 6 = 16#6 ∧ msbSlice 0x42800008#32 6 5 ≠ 0b01100#5 ∧ msbSlice 0x42800008#32 6 5 ≠ 0b00100#5) ∧
    (msbSlice 0x418A0008#32 0 6 = 16#6 ∧ msbSlice 0x418A0008#32 14 2 = 2#2 ∧ msbSlice 0x418B0008#32 14 2 = 3#2) := by
  decide

theorem test_witness_StepRunsTheDecodedInstruction :
    placed.pc.toNat % 4 = 0 ∧ placed.inProgram = true ∧
    decodeWord placed.params.hasFp64Int (placed.mem.readWord placed.pc.toNat) = .instr (.add 3 3 5) := by decide +kernel

theorem test_witness_PlacedWordIsFetched : State.reset.mem.wf = true ∧ State.reset.Inv := ⟨by decide, test_reset_inv⟩

/-- The end; below the program; the first word past the end; a word only half inside. -/
theorem test_witness_RunEndsOrIsRefusedOutsideTheProgram :
    State.reset.pc.toNat = State.reset.program.base + State.reset.program.size ∧
    (let s := placed.setPc 0xFC#64
     s.pc.toNat % 4 = 0 ∧ s.pc.toNat ≠ s.program.base + s.program.size ∧ s.pc.toNat < s.program.base) ∧
    (let s := placed.setPc 0x108#64
     s.pc.toNat % 4 = 0 ∧ s.pc.toNat ≠ s.program.base + s.program.size ∧
       s.program.base + s.program.size < s.pc.toNat + 4) := by decide +kernel

theorem test_witness_MisalignedAccessesFault :
    State.reset.canAdvance = true ∧ (State.reset.effectiveAddress 0 4).toNat % 8 ≠ 0 ∧
    (State.reset.effectiveAddress 0 7).toNat % 4 ≠ 0 ∧ (State.reset.setPc 0x102#64).pc.toNat % 4 ≠ 0 := by decide +kernel

/-- One instruction that never branches, and each branch when it is not taken. -/
theorem test_witness_WrappingAdvanceIsRefused :
    atTop.canAdvance = false ∧ (atTop.readCr 2).lt = false ∧ (atTop.readCr 2).gt = false ∧
    ((atTop.writeCr 2 lt).readCr 2).lt = true ∧ (atTop.writeCr 2 lt).canAdvance = false := by decide +kernel

theorem test_witness_AddSumsModuloXlen :
    (gp .x32 0 0x80000000#64 0x80000000#64).canAdvance = true ∧ State.reset.canAdvance = true := by decide +kernel

/-- Misaligned; the last byte not admitted; exactly the admitted bytes. -/
theorem test_witness_StfdStoresTheDoubleword :
    let s := gp .x64 0x1008#64 0 0
    let u := { s with admitted := [⟨0x1008, 7⟩] }
    s.canAdvance = true ∧ s.mem.wf = true ∧ (s.effectiveAddress 1 1).toNat % 8 ≠ 0 ∧
    (u.canAdvance = true ∧ u.mem.wf = true ∧ (u.effectiveAddress 1 0).toNat % 8 = 0 ∧
      ∃ k < 8, u.admitsByte ((u.effectiveAddress 1 0).toNat + k) = false) ∧
    ((s.effectiveAddress 1 0).toNat % 8 = 0 ∧
      ∀ k < 8, s.admitsByte ((s.effectiveAddress 1 0).toNat + k) = true) := by decide +kernel

theorem test_witness_LwzLoadsTheWord :
    let s := gp .x64 0x100C#64 0 0
    s.canAdvance = true ∧ (s.effectiveAddress 1 2).toNat % 4 ≠ 0 ∧
    ((s.effectiveAddress 1 4).toNat % 4 = 0 ∧ ∃ k < 4, s.admitsByte ((s.effectiveAddress 1 4).toNat + k) = false) ∧
    ((s.effectiveAddress 1 0).toNat % 4 = 0 ∧
      ∀ k < 4, s.admitsByte ((s.effectiveAddress 1 0).toNat + k) = true) := by decide +kernel

/-- The word at the store's address, and the word 4 above it. -/
theorem test_witness_LoadAfterStoreReturnsTheStoredWord :
    ∃ s t u u', s.mem.wf = true ∧ exec (.stfd 2 0 1) s = .next t ∧ exec (.lwz 3 0 1) t = .next u ∧
      (t.effectiveAddress 1 0).toNat = (s.effectiveAddress 1 0).toNat ∧ exec (.lwz 3 4 1) t = .next u' ∧
      (t.effectiveAddress 1 4).toNat = (s.effectiveAddress 1 0).toNat + 4 :=
  ⟨gp .x64 0x1008#64 0 0, _, _, _, by decide +kernel, eq_next (by decide +kernel), eq_next (by decide +kernel),
    by decide +kernel, eq_next (by decide +kernel), by decide +kernel⟩

/-- Taken, and not taken. -/
theorem test_witness_BlBranchesIfLessThan :
    ((cr2 lt 0x134#64).readCr 2).lt = true ∧ ((cr2 un 0x134#64).readCr 2).lt = false ∧
    (cr2 un 0x134#64).canAdvance = true := by decide +kernel
theorem test_witness_BgtBranchesIfGreaterThan :
    ((cr2 gt 0x114#64).readCr 2).gt = true ∧ ((cr2 un 0x114#64).readCr 2).gt = false ∧
    (cr2 un 0x114#64).canAdvance = true := by decide +kernel
theorem test_witness_BnlBranchesIfNotLessThan :
    (!((cr2 un 0x120#64).readCr 2).lt) = true ∧ (!((cr2 lt 0x120#64).readCr 2).lt) = false ∧
    (cr2 lt 0x120#64).canAdvance = true := by decide +kernel

theorem test_witness_FmrCopiesAllBits : State.reset.canAdvance = true := by decide

theorem test_witness_DoubleValueIsTheDouble :
    isFinite 0#64 = true ∧ isFinite 0x8000000000000001#64 = true ∧ isFinite 0x7FEFFFFFFFFFFFFF#64 = true := by decide

/-- An SNaN with VE 0 and 1; less; greater (an infinity); equal (-0 against +0). -/
theorem test_witness_FcmpuRecordsTheRelation :
    let a := 0x7FF0000000000001#64
    (fp a 0 0).canAdvance = true ∧ isNaN a = true ∧ ((fp a 0 0).fpscr.ve && isSNaN a) = false ∧
    (trapping a 0 0).canAdvance = true ∧ ((trapping a 0 0).fpscr.ve && isSNaN a) = true ∧
    dValue 0xBFF8000000000000#64 < dValue 0#64 ∧ isNaN 0xBFF8000000000000#64 = false ∧
    dValue 0x7FEFFFFFFFFFFFFF#64 < dValue 0x7FF0000000000000#64 ∧ isNaN 0x7FF0000000000000#64 = false ∧
    dValue 0x8000000000000000#64 = dValue 0#64 := by decide +kernel

/-- 1.0 less 2^-60 under round toward zero, all enables 1. -/
theorem test_witness_FsubRoundsTheExactDifference :
    let s := trapping 0x3FF0000000000000#64 0x3C30000000000000#64 0b01#2
    let d := dValue (s.readF 1) - dValue (s.readF 2)
    let r : Int := 2 ^ 53 - 1
    s.canAdvance = true ∧ isFinite (s.readF 1) = true ∧ isFinite (s.readF 2) = true ∧ d ≠ 0 ∧
      RoundsTo s.fpscr.mode d (2 ^ (d.natAbs.log2 - 52)) r ∧ (r * (2 ^ (d.natAbs.log2 - 52) : Nat)).natAbs < 2 ^ 2098 :=
  ⟨by decide +kernel, by decide +kernel, by decide +kernel, by decide +kernel, roundsTo_of (by decide +kernel),
    by decide +kernel⟩

/-- The largest double less its negative. -/
theorem test_witness_FsubOutOfRange :
    let s := fp 0x7FEFFFFFFFFFFFFF#64 0xFFEFFFFFFFFFFFFF#64 0
    let d := dValue (s.readF 1) - dValue (s.readF 2)
    let r : Int := 2 ^ 53 - 1
    s.canAdvance = true ∧ isFinite (s.readF 1) = true ∧ isFinite (s.readF 2) = true ∧
      RoundsTo s.fpscr.mode d (2 ^ (d.natAbs.log2 - 52)) r ∧ 2 ^ 2098 ≤ (r * (2 ^ (d.natAbs.log2 - 52) : Nat)).natAbs :=
  ⟨by decide +kernel, by decide +kernel, by decide +kernel, roundsTo_of (by decide +kernel), by decide +kernel⟩

/-- All enables 1, OX and UX left over from before, an inexact difference in the normal range. -/
theorem test_witness_FsubEnds_no_bit :
    let s := trapping 0x3FF0000000000000#64 0x3C30000000000000#64 0b01#2
    let d := dValue (s.readF 1) - dValue (s.readF 2)
    d.natAbs < 2 ^ 2098 - 2 ^ 2044 ∧ 2 ^ 52 ≤ d.natAbs ∧
      isNext (exec (.fsub 3 1 2) (s.setFpscr { s.fpscr with ox := true, ux := true })) = true := by decide +kernel

theorem test_witness_FsubExactDifferenceChangesNoStickyBit :
    let a := 0x41E8000000000000#64
    let b := 0x41E0000000000000#64
    let c := 0x41D0000000000000#64
    (trapping a b 0).canAdvance = true ∧ isFinite a = true ∧ isFinite b = true ∧ isFinite c = true ∧
      dValue c = dValue a - dValue b ∧ 2 ^ 52 ≤ (dValue c).natAbs := by decide +kernel

/-- Equal operands; zeros of opposite signs. -/
theorem test_witness_FsubExactZero :
    (fp 0 0 0).canAdvance = true ∧ isFinite 0x41E0000000000000#64 = true ∧ isFinite 0x8000000000000000#64 = true ∧
      dValue 0x8000000000000000#64 = dValue 0#64 := by decide +kernel

/-- First operand a NaN; only the second; the same infinity twice; an infinity first; an infinity second. -/
theorem test_witness_FsubSpecialOperands :
    let inf := 0x7FF0000000000000#64
    let snan := 0x7FF0000000000001#64
    (fp snan inf 0).canAdvance = true ∧ ((fp snan inf 0).fpscr.ve && isSNaN snan) = false ∧
    ((trapping snan inf 0).fpscr.ve && isSNaN snan) = true ∧
    (isNaN snan = true ∧ (isFinite snan && isFinite inf) = false) ∧ (isNaN inf = false ∧ isInf inf = true) ∧
    (isFinite 1#64 = true ∧ isNaN 1#64 = false ∧ dSign inf ≠ dSign 0xFFF0000000000000#64) := by decide +kernel

theorem test_witness_FrspOfZero :
    (fp 0x8000000000000000#64 0 0).canAdvance = true ∧ msbSlice ((fp 0x8000000000000000#64 0 0).readF 1) 1 63 = 0#63 := by
  decide +kernel

theorem test_witness_FrspOfInfinity :
    (fp 0xFFF0000000000000#64 0 0).canAdvance = true ∧ isInf ((fp 0xFFF0000000000000#64 0 0).readF 1) = true := by
  decide +kernel

theorem test_witness_FrspOfQuietNaN :
    let s := fp 0x7FF8000000000001#64 0 0
    s.canAdvance = true ∧ isNaN (s.readF 1) = true ∧ dQuiet (s.readF 1) = true := by decide +kernel

/-- VE = 0, and VE = 1. -/
theorem test_witness_FrspOfSignallingNaN :
    let a := 0xFFF4000012345678#64
    (fp a 0 0).canAdvance = true ∧ isSNaN ((fp a 0 0).readF 1) = true ∧ (fp a 0 0).fpscr.ve = false ∧
    (trapping a 0 0).canAdvance = true ∧ isSNaN ((trapping a 0 0).readF 1) = true ∧ (trapping a 0 0).fpscr.ve = true := by
  decide +kernel

/-- 2^-150 under round toward +infinity rounds to one unit of 2^-149. -/
theorem test_witness_FrspRoundsCorrectly :
    let s := fp 0x3690000000000000#64 0 0b10#2
    let x := dValue (s.readF 1)
    let unit := 2 ^ max 925 (x.natAbs.log2 - 23)
    s.canAdvance = true ∧ isFinite (s.readF 1) = true ∧ x ≠ 0 ∧
      (s.fpscr.ue && decide (x.natAbs < 2 ^ 948)) = false ∧ RoundsTo s.fpscr.mode x unit 1 ∧
      ((1 : Int) * (unit : Nat)).natAbs < 2 ^ 1202 :=
  ⟨by decide +kernel, by decide +kernel, by decide +kernel, by decide +kernel, roundsTo_of (by decide +kernel),
    by decide +kernel⟩

/-- 2^128, beyond the range before rounding; half a unit below it, which rounds up to it. -/
theorem test_witness_FrspDisabledOverflowTable :
    let s := fp 0x47EFFFFFF0000000#64 0 0
    let x := dValue (s.readF 1)
    let unit := 2 ^ (x.natAbs.log2 - 23)
    s.canAdvance = true ∧ isFinite (s.readF 1) = true ∧ s.fpscr.oe = false ∧
      2 ^ 1202 ≤ (dValue 0x47F0000000000000#64).natAbs ∧
      (RoundsTo s.fpscr.mode x unit (2 ^ 24) ∧ 2 ^ 1202 ≤ ((2 ^ 24 : Int) * (unit : Nat)).natAbs) :=
  ⟨by decide +kernel, by decide +kernel, by decide +kernel, by decide +kernel, roundsTo_of (by decide +kernel),
    by decide +kernel⟩

/-- The least denormalized double. -/
theorem test_witness_FrspEnabledUnderflowScalesUp :
    let s := trapping 1#64 0 0
    let x := dValue (s.readF 1)
    let unit := 2 ^ (x.natAbs.log2 - 23)
    s.canAdvance = true ∧ isFinite (s.readF 1) = true ∧ s.fpscr.ue = true ∧ x ≠ 0 ∧ x.natAbs < 2 ^ 948 ∧
      RoundsTo s.fpscr.mode x unit 1 :=
  ⟨by decide +kernel, by decide +kernel, by decide +kernel, by decide +kernel, by decide +kernel,
    roundsTo_of (by decide +kernel)⟩

/-- 2^128. -/
theorem test_witness_FrspEnabledOverflowScalesDown :
    let s := trapping 0x47F0000000000000#64 0 0
    let x := dValue (s.readF 1)
    let unit := 2 ^ (x.natAbs.log2 - 23)
    s.canAdvance = true ∧ isFinite (s.readF 1) = true ∧ s.fpscr.oe = true ∧ RoundsTo s.fpscr.mode x unit (2 ^ 23) ∧
      2 ^ 1202 ≤ ((2 ^ 23 : Int) * (unit : Nat)).natAbs :=
  ⟨by decide +kernel, by decide +kernel, by decide +kernel, roundsTo_of (by decide +kernel), by decide +kernel⟩

theorem test_witness_FrspResultHasSingleFraction : ∃ t, exec (.frsp 2 1) (fp 0x3FF0000030000000#64 0 0) = .next t :=
  ⟨_, eq_next (by decide +kernel)⟩

theorem test_witness_FrspIsIdempotent :
    ∃ t, exec (.frsp 2 1) (fp 0x3690000000000000#64 0 0b10#2) = .next t ∧ t.canAdvance = true ∧ t.fpscr.ue = false :=
  ⟨_, eq_next (by decide +kernel), by decide +kernel, by decide +kernel⟩

/-- Both widths at the ends of their ranges: -2^31 and 2^63 - 1024; a tie. -/
theorem test_witness_ConvertToIntegerRounds :
    let s := fp 0xC1E0000000000000#64 0x43DFFFFFFFFFFFFF#64 0
    s.canAdvance = true ∧ isFinite (s.readF 1) = true ∧ isFinite (s.readF 2) = true ∧
      (RoundsTo (convertMode false s.fpscr) (dValue (s.readF 1)) dOne (-2 ^ 31) ∧ IntTarget.word.min ≤ -2 ^ 31) ∧
      (RoundsTo (convertMode true s.fpscr) (dValue (s.readF 2)) dOne (2 ^ 63 - 1024) ∧
        2 ^ 63 - 1024 ≤ IntTarget.doubleword.max) ∧
      RoundsTo (convertMode false s.fpscr) (dValue 0x4004000000000000#64) dOne 2 :=
  ⟨by decide +kernel, by decide +kernel, by decide +kernel, ⟨roundsTo_of (by decide +kernel), by decide⟩,
    ⟨roundsTo_of (by decide +kernel), by decide⟩, roundsTo_of (by decide +kernel)⟩

/-- Above: 2147483647.5 under RN = 0b00. Below: -2^63 - 2048. -/
theorem test_witness_ConvertToIntegerSaturates :
    let s := fp 0x41DFFFFFFFE00000#64 0xC3E0000000000001#64 0
    s.canAdvance = true ∧ s.fpscr.ve = false ∧ isFinite (s.readF 1) = true ∧ isFinite (s.readF 2) = true ∧
      (RoundsTo (convertMode false s.fpscr) (dValue (s.readF 1)) dOne (2 ^ 31) ∧ IntTarget.word.max < 2 ^ 31) ∧
      (RoundsTo (convertMode true s.fpscr) (dValue (s.readF 2)) dOne (-2 ^ 63 - 2048) ∧
        -2 ^ 63 - 2048 < IntTarget.doubleword.min) :=
  ⟨by decide +kernel, by decide +kernel, by decide +kernel, by decide +kernel,
    ⟨roundsTo_of (by decide +kernel), by decide⟩, ⟨roundsTo_of (by decide +kernel), by decide⟩⟩

theorem test_witness_ConvertInfinitySaturates :
    let s := fp 0xFFF0000000000000#64 0 0
    s.canAdvance = true ∧ s.fpscr.ve = false ∧ isInf (s.readF 1) = true := by decide +kernel

theorem test_witness_ConvertNaNGivesTheLeastInteger :
    let s := fp 0x7FF0000000000001#64 0 0
    s.canAdvance = true ∧ s.fpscr.ve = false ∧ isNaN (s.readF 1) = true := by decide +kernel

/-- A NaN; an operand outside the range. -/
theorem test_witness_ConvertInvalidEnabledStops :
    let s := trapping 0x7FF8000000000000#64 0x41E0000000000000#64 0
    s.canAdvance = true ∧ s.fpscr.ve = true ∧ isFinite (s.readF 1) = false ∧
      ∃ r, RoundsTo (convertMode true s.fpscr) (dValue (s.readF 2)) dOne r ∧
        (r < IntTarget.word.min ∨ IntTarget.word.max < r) :=
  ⟨by decide +kernel, by decide +kernel, by decide +kernel, 2 ^ 31, roundsTo_of (by decide +kernel), by decide⟩

theorem test_witness_ConvertTowardZeroIgnoresRn :
    ∃ t, exec (IntTarget.doubleword.instr true 2 1) (fp 0xC002000000000000#64 0 0b11#2) = .next t :=
  ⟨_, eq_next (by decide +kernel)⟩

theorem test_witness_FcfidOfZero : (fp 0 0 0).canAdvance = true ∧ (fp 0 0 0).readF 1 = 0#64 := by decide +kernel

/-- 2^63 - 1 under RN = 0b00: 2^53 units of 2^10. -/
theorem test_witness_FcfidRoundsTheInteger :
    let s := fp 0x7FFFFFFFFFFFFFFF#64 0 0
    let n := (s.readF 1).toInt
    s.canAdvance = true ∧ n ≠ 0 ∧ RoundsTo s.fpscr.mode n (2 ^ (n.natAbs.log2 - 52)) (2 ^ 53) :=
  ⟨by decide +kernel, by decide +kernel, roundsTo_of (by decide +kernel)⟩

theorem test_witness_FcfidAlwaysCompletes : (trapping 1#64 0 0).canAdvance = true := by decide +kernel

theorem test_placed_inv : placed.Inv :=
  ⟨by decide +kernel, by unfold State.registersFit; decide +kernel, by unfold State.pcFits; decide +kernel,
    by unfold Fprf.canonical; decide +kernel⟩

theorem test_witness_StepKeepsTheInvariant : ∃ t, placed.Inv ∧ step placed = .next t :=
  ⟨_, test_placed_inv, eq_next (by decide +kernel)⟩

/-- A step from all five bits set; a stop. -/
theorem test_witness_StickyBitsAreNeverCleared :
    (∃ t, exec (.frsp 2 1) placed = .next t) ∧ placed.fpscr.ox = true ∧ placed.fpscr.ux = true ∧ placed.fpscr.xx = true ∧
      placed.fpscr.vxsnan = true ∧ placed.fpscr.vxcvi = true ∧
      ∃ b t, exec (.fctid 2 1) (trapping 0x7FF8000000000000#64 0 0) = .fault (.fpEnabledException b t) :=
  ⟨⟨_, eq_next (by decide +kernel)⟩, by decide +kernel, by decide +kernel, by decide +kernel, by decide +kernel,
    by decide +kernel, _, _, eq_fault (b := .vxcvi) (by decide +kernel)⟩

theorem test_witness_ControlFieldsAreConstant :
    ∃ t, exec (.frsp 2 1) (fp 0x3FF0000030000000#64 0 0) = .next t ∧ t.fpscr ≠ (fp 0x3FF0000030000000#64 0 0).fpscr :=
  ⟨_, eq_next (by decide +kernel), by decide +kernel⟩

/-- VXCVI by a conversion; OX, UX, XX, FI, FPRF by `frsp`; VXSNAN by `fcmpu`. -/
theorem test_witness_StatusFieldsHaveTheirWriters :
    (∃ t, exec (.fctid 2 1) (fp 0x7FF8000000000000#64 0 0) = .next t ∧ t.fpscr.vxcvi ≠ false) ∧
    (∃ t, exec (.frsp 2 1) (fp 0x47F0000000000000#64 0 0) = .next t ∧
      t.fpscr.ox ≠ false ∧ t.fpscr.xx ≠ false ∧ t.fpscr.fi ≠ false ∧ t.fpscr.fprf ≠ Fpscr.reset.fprf) ∧
    (∃ t, exec (.fcmpu 2 1 2) (fp 0x7FF0000000000001#64 0 0) = .next t ∧ t.fpscr.vxsnan ≠ false) :=
  ⟨⟨_, eq_next (by decide +kernel), by decide +kernel⟩,
    ⟨_, eq_next (by decide +kernel), by decide +kernel, by decide +kernel, by decide +kernel, by decide +kernel⟩,
    ⟨_, eq_next (by decide +kernel), by decide +kernel⟩⟩

theorem test_witness_OnlyFcmpuWritesConditionFields :
    ∃ t, exec (.fcmpu 7 1 2) (fp 0 0 0) = .next t ∧ t.readCr 7 ≠ (fp 0 0 0).readCr 7 :=
  ⟨_, eq_next (by decide +kernel), by decide +kernel⟩

theorem test_witness_OnlyStfdWritesMemory :
    (∃ t, exec (.stfd 1 0 0) (fp 1#64 0 0) = .next t ∧ t.mem ≠ (fp 1#64 0 0).mem) ∧
    (∃ t, exec (.add 3 1 5) (gp .x64 1#64 0 0) = .next t ∧ t.readX 3 ≠ (gp .x64 1#64 0 0).readX 3) :=
  ⟨⟨_, eq_next (by decide +kernel), by decide +kernel⟩, ⟨_, eq_next (by decide +kernel), by decide +kernel⟩⟩

/-- A step over a byte of the program; a store whose first four bytes lie in it. -/
theorem test_witness_ProgramTextIsImmutable :
    (∃ t, placed.mem.wf = true ∧ step placed = .next t ∧ placed.program.contains 0x103 = true) ∧
    (placed.canAdvance = true ∧ (placed.effectiveAddress 0 0x100).toNat % 8 = 0 ∧
      ∃ k < 8, placed.program.contains ((placed.effectiveAddress 0 0x100).toNat + k) = true) :=
  ⟨⟨_, by decide +kernel, eq_next (by decide +kernel), by decide +kernel⟩, by decide +kernel⟩

theorem test_witness_ProgramCounterAdvancesOrBranches :
    ∃ t, exec (.bl 2 2) (cr2 lt 0x134#64) = .next t ∧ t.pc ≠ 0x138#64 := ⟨_, eq_next (by decide +kernel), by decide +kernel⟩

theorem test_witness_DisabledExceptionsNeverStop : placed.enablesOff ∧ ∃ t, step placed = .next t :=
  ⟨by unfold State.enablesOff; decide +kernel, _, eq_next (by decide +kernel)⟩

theorem test_witness_DisabledFloatingPointCompletes : placed.canAdvance = true ∧ placed.enablesOff :=
  ⟨by decide +kernel, by unfold State.enablesOff; decide +kernel⟩

/-- A stop for each bit that a statement-independent run can show: VXSNAN, VXCVI, OX, UX. -/
theorem test_witness_EnabledExceptionHoldsTheWrites :
    (∃ t, exec (.fcmpu 2 1 2) (trapping 0x7FF0000000000001#64 0 0) = .fault (.fpEnabledException .vxsnan t)) ∧
    (∃ t, exec (.fctid 2 1) (trapping 0x7FF0000000000001#64 0 0) = .fault (.fpEnabledException .vxcvi t)) ∧
    (∃ t, exec (.frsp 2 1) (trapping 0x47F0000000000000#64 0 0) = .fault (.fpEnabledException .ox t)) ∧
    (∃ t, exec (.frsp 2 1) (trapping 1#64 0 0) = .fault (.fpEnabledException .ux t)) :=
  ⟨⟨_, eq_fault (by decide +kernel)⟩, ⟨_, eq_fault (by decide +kernel)⟩, ⟨_, eq_fault (by decide +kernel)⟩,
    ⟨_, eq_fault (by decide +kernel)⟩⟩

/-- The word of each of the three, fetched without `HAS_FP64INT`. -/
theorem test_witness_AbsentConversionsAreRefused :
    let s := { State.reset with params := { State.reset.params with hasFp64Int := false } }
    s.params.hasFp64Int = false ∧
    [0xFC60065C#32, 0xFC60165E#32, 0xFC20069C#32].all (fun w =>
      (opcodeTable.any (fun row => decide (row.mnemonic ∈ ["fctid", "fctidz", "fcfid"] ∧ w &&& row.mask = row.value))) &&
      (match (s.placeWord w).fetch with
        | .next u => decide (u = w) | .fault _ => false | .refused _ => false)) = true := by decide +kernel

/-- `fsub` of an SNaN with VE = 1 stops. -/
theorem test_witness_EnabledExceptionHoldsTheWrites_fsub :
    ∃ t, exec (.fsub 3 1 2) (trapping 0x7FF0000000000001#64 0 0) = .fault (.fpEnabledException .vxsnan t) :=
  ⟨_, eq_fault (by decide +kernel)⟩

/-- `frsp` that stops for OX, with the integer its operand rounds to. -/
theorem test_witness_EnabledExceptionHoldsTheWrites_frsp :
    let s := trapping 0x47F0000000000000#64 0 0
    let x := dValue (s.readF 1)
    (∃ t, exec (.frsp 2 1) s = .fault (.fpEnabledException .ox t)) ∧
      RoundsTo s.fpscr.mode x (2 ^ (x.natAbs.log2 - 23)) (2 ^ 23) :=
  ⟨⟨_, eq_fault (by decide +kernel)⟩, roundsTo_of (by decide +kernel)⟩

/-- The launch premises of C.1 and C.2 can be met (70 R282), and one of a one-word program (70 R281). -/
theorem test_witness_LaunchC2 :
    let s := ((((gp .x64 0x1000#64 0 0x80000000#64).writeF 3 0x41F0000000000000#64).writeF 4 0x7FFFFFFF#64).writeF 5
      0x41E0000000000000#64)
    LaunchC2 8 s :=
  ⟨⟨by unfold dispFits; decide, by decide +kernel, by decide +kernel, by decide +kernel⟩, by decide +kernel, by decide +kernel, by decide +kernel,
    by decide +kernel, by decide +kernel⟩

/-- 30_encoding.md R74: 32763 is the greatest displacement whose `disp + 4` is in range. -/
theorem test_dispFits : dispFits 32763#16 ∧ ¬ dispFits 32764#16 ∧ dispFits 0x8000#16 := by unfold dispFits; decide

theorem test_witness_Launch : State.Launch { placed with admitted := [⟨0x1008, 8⟩] } :=
  ⟨by decide +kernel, by decide +kernel, by decide +kernel, by decide +kernel, by decide +kernel,
    ⟨test_placed_inv.1, test_placed_inv.2, test_placed_inv.3, test_placed_inv.4⟩⟩

end Sys2Proof.Tests
end

section
/-! PROOFS. What an instruction may do to the FPSCR: every write goes through the setters of Machine/Flags.lean, each
of which writes one status field (10_state.md R26, R28, R32). -/

namespace Sys2Proof.Machine

/-! ### The status fields and their writers -/

/-- The status fields of the FPSCR; FR and FI are written together (10_state.md R26). -/
inductive StatusField where
  | ox
  | ux
  | xx
  | vxsnan
  | vxcvi
  | frFi
  | fprf
  deriving DecidableEq

/-- The field holds the same in `f` and `g`. -/
def StatusField.Same (f g : Fpscr) : StatusField → Prop
  | .ox => g.ox = f.ox
  | .ux => g.ux = f.ux
  | .xx => g.xx = f.xx
  | .vxsnan => g.vxsnan = f.vxsnan
  | .vxcvi => g.vxcvi = f.vxcvi
  | .frFi => g.fr = f.fr ∧ g.fi = f.fi
  | .fprf => g.fprf = f.fprf

/-- The status fields `frsp` writes. -/
def frspStatus : List StatusField := [.ox, .ux, .xx, .vxsnan, .frFi, .fprf]

/-- The status fields the conversions to integer write. -/
def fctiStatus : List StatusField := [.xx, .vxsnan, .vxcvi, .frFi, .fprf]

/-- The status fields `fcfid` writes. -/
def fcfidStatus : List StatusField := [.xx, .frFi, .fprf]

/-- The status fields `fsub` writes. -/
def fsubStatus : List StatusField := [.ox, .ux, .xx, .vxsnan, .frFi, .fprf]

/-- The status fields `fcmpu` writes. -/
def fcmpuStatus : List StatusField := [.vxsnan, .fprf]

/-- The status fields an instruction writes (10_state.md R26; 40 R106, R107). -/
def statusWrites : Instr → List StatusField
  | .frsp _ _ => frspStatus
  | .fctiw _ _ | .fctiwz _ _ | .fctid _ _ | .fctidz _ _ => fctiStatus
  | .fcfid _ _ => fcfidStatus
  | .fsub _ _ _ => fsubStatus
  | .fcmpu _ _ _ => fcmpuStatus
  | .fmr _ _ | .add _ _ _ | .stfd _ _ _ | .lwz _ _ _ | .bl _ _ | .bgt _ _ | .bnl _ _ => []

theorem statusWrites_fcti (tgt : IntTarget) (z : Bool) (frt frb : FReg) :
    statusWrites (tgt.instr z frt frb) = fctiStatus := by
  cases tgt <;> cases z <;> rfl

/-- Every instruction that writes a status field, with the fields it writes. -/
theorem statusWrites_cases (i : Instr) :
    ((∃ a b, i = .frsp a b) ∧ statusWrites i = frspStatus) ∨
    ((∃ tgt z a b, i = IntTarget.instr tgt z a b) ∧ statusWrites i = fctiStatus) ∨
    ((∃ a b, i = .fcfid a b) ∧ statusWrites i = fcfidStatus) ∨
    ((∃ a b c, i = .fsub a b c) ∧ statusWrites i = fsubStatus) ∨
    ((∃ n a b, i = .fcmpu n a b) ∧ statusWrites i = fcmpuStatus) ∨
    statusWrites i = [] := by
  cases i with
  | frsp a b => exact .inl ⟨⟨a, b, rfl⟩, rfl⟩
  | fctiw a b => exact .inr (.inl ⟨⟨.word, false, a, b, rfl⟩, rfl⟩)
  | fctiwz a b => exact .inr (.inl ⟨⟨.word, true, a, b, rfl⟩, rfl⟩)
  | fctid a b => exact .inr (.inl ⟨⟨.doubleword, false, a, b, rfl⟩, rfl⟩)
  | fctidz a b => exact .inr (.inl ⟨⟨.doubleword, true, a, b, rfl⟩, rfl⟩)
  | fcfid a b => exact .inr (.inr (.inl ⟨⟨a, b, rfl⟩, rfl⟩))
  | fsub a b c => exact .inr (.inr (.inr (.inl ⟨⟨a, b, c, rfl⟩, rfl⟩)))
  | fcmpu n a b => exact .inr (.inr (.inr (.inr (.inl ⟨⟨n, a, b, rfl⟩, rfl⟩))))
  | fmr | add | stfd | lwz | bl | bgt | bnl => exact .inr (.inr (.inr (.inr (.inr rfl))))

/-! ### FPRF holds classes by name -/

theorem Fprf.canonical_ofBits : ∀ b : BitVec 5, (Fprf.ofBits b).canonical := by
  unfold Fprf.canonical
  decide

theorem Fprf.canonical_draw (n : Nat) : (Fprf.draw n).canonical := Fprf.canonical_ofBits _

theorem Fprf.canonical_normal (sign : Bool) : (Fprf.normal sign).canonical := by
  cases sign <;> rfl

theorem Fprf.canonical_denormalized (sign : Bool) : (Fprf.denormalized sign).canonical := by
  cases sign <;> rfl

theorem Fprf.canonical_zero (sign : Bool) : (Fprf.zero sign).canonical := by
  cases sign <;> rfl

theorem Fprf.canonical_infinity (sign : Bool) : (Fprf.infinity sign).canonical := by
  cases sign <;> rfl

theorem canonical_frspUnderflowClass (sign : Bool) (frac : BitVec 53) : (frspUnderflowClass sign frac).canonical := by
  unfold frspUnderflowClass
  split_ifs
  · exact Fprf.canonical_zero sign
  · exact Fprf.canonical_normal sign
  · exact Fprf.canonical_denormalized sign

theorem canonical_frspOverflowResult (mode : RoundMode) (sign : Bool) :
    (frspOverflowResult mode sign).2.canonical := by
  cases mode <;> cases sign <;> rfl

/-! ### Updates of the status fields -/

/-- `g` comes from `f` by setters of the fields listed in `may`, and FPRF only received classes by name. -/
inductive Fpscr.Updates (may : List StatusField) (f : Fpscr) : Fpscr → Prop where
  | refl : Updates may f f
  | setOx {g c} (h : Updates may f g) (hm : .ox ∈ may := by decide) : Updates may f (g.setOx c)
  | setUx {g c} (h : Updates may f g) (hm : .ux ∈ may := by decide) : Updates may f (g.setUx c)
  | setXx {g c} (h : Updates may f g) (hm : .xx ∈ may := by decide) : Updates may f (g.setXx c)
  | setVxsnan {g c} (h : Updates may f g) (hm : .vxsnan ∈ may := by decide) : Updates may f (g.setVxsnan c)
  | setVxcvi {g c} (h : Updates may f g) (hm : .vxcvi ∈ may := by decide) : Updates may f (g.setVxcvi c)
  | setFrFi {g fr fi} (h : Updates may f g) (hm : .frFi ∈ may := by decide) : Updates may f (g.setFrFi fr fi)
  | setFprf {g c} (h : Updates may f g) (hc : c.canonical) (hm : .fprf ∈ may := by decide) :
    Updates may f (g.setFprf c)

namespace Fpscr.Updates

variable {may : List StatusField} {f g : Fpscr}

/-- RN and the enables have no setter (10_state.md R32). -/
theorem control (h : Updates may f g) : g.rn = f.rn ∧ g.ve = f.ve ∧ g.oe = f.oe ∧ g.ue = f.ue := by
  induction h with
  | refl => exact ⟨rfl, rfl, rfl, rfl⟩
  | setOx _ _ ih | setUx _ _ ih | setXx _ _ ih | setVxsnan _ _ ih | setVxcvi _ _ ih | setFrFi _ _ ih
  | setFprf _ _ _ ih => exact ih

/-- The setters of the exception bits only set (10_state.md R28). -/
theorem sticky (h : Updates may f g) :
    (f.ox = true → g.ox = true) ∧ (f.ux = true → g.ux = true) ∧ (f.xx = true → g.xx = true) ∧
      (f.vxsnan = true → g.vxsnan = true) ∧ (f.vxcvi = true → g.vxcvi = true) := by
  induction h with
  | refl => exact ⟨id, id, id, id, id⟩
  | setFrFi _ _ ih | setFprf _ _ _ ih => exact ih
  | setOx _ _ ih | setUx _ _ ih | setXx _ _ ih | setVxsnan _ _ ih | setVxcvi _ _ ih =>
    obtain ⟨hox, hux, hxx, hsnan, hcvi⟩ := ih
    simp +contextual [hox, hux, hxx, hsnan, hcvi]

theorem canonical (h : Updates may f g) (hf : f.fprf.canonical) : g.fprf.canonical := by
  induction h with
  | refl => exact hf
  | setFprf _ hc _ _ => exact hc
  | setOx _ _ ih | setUx _ _ ih | setXx _ _ ih | setVxsnan _ _ ih | setVxcvi _ _ ih | setFrFi _ _ ih => exact ih

/-- A field that is not listed is as before. -/
theorem same (h : Updates may f g) (field : StatusField) (hn : field ∉ may) : field.Same f g := by
  induction h with
  | refl => cases field <;> simp [StatusField.Same]
  | setOx _ hm ih | setUx _ hm ih | setXx _ hm ih | setVxsnan _ hm ih | setVxcvi _ hm ih | setFrFi _ hm ih
  | setFprf _ _ hm ih =>
    cases field <;> simp_all [StatusField.Same]

theorem eq_of_nil (h : Updates [] f g) : g = f := by
  cases h with
  | refl => rfl
  | setOx _ hm | setUx _ hm | setXx _ hm | setVxsnan _ hm | setVxcvi _ hm | setFrFi _ hm | setFprf _ _ hm => cases hm

end Fpscr.Updates

/-! ### What each floating-point instruction writes -/

section
variable {f g : Fpscr} (b : Dword) (n : Nat)

theorem frspDisabledOverflow_updates (p : Params) (h : g.Updates frspStatus f) :
    g.Updates frspStatus (frspDisabledOverflow p b f n).fpscr :=
  h.setOx.setXx.setFrFi.setFprf (canonical_frspOverflowResult _ _)

theorem frspEnabledOverflowTail_updates (sign : Bool) (r : Rounded) (h : g.Updates frspStatus f) :
    g.Updates frspStatus (frspEnabledOverflowTail sign r f).fpscr :=
  h.setOx.setFprf (Fprf.canonical_normal _)

theorem frspRound_updates : f.Updates frspStatus (frspRound b f).2 := .setFrFi (.setXx .refl)

theorem frspNormal_updates (p : Params) : f.Updates frspStatus (frspNormal p b f n).fpscr := by
  have hround := frspRound_updates (f := f) b
  simp only [frspNormal]
  split_ifs
  · exact frspEnabledOverflowTail_updates _ _ hround
  · exact frspDisabledOverflow_updates b n p hround
  · exact hround.setFprf (Fprf.canonical_normal _)

theorem frspSNaN_updates : f.Updates frspStatus (frspSNaN b f).fpscr := by
  have hbits : f.Updates frspStatus ((f.setVxsnan true).setFrFi false false) := .setFrFi (.setVxsnan .refl)
  simp only [frspSNaN]
  split_ifs
  · exact hbits
  · exact hbits.setFprf rfl

theorem frspResult_updates (p : Params) : f.Updates frspStatus (frspResult p b f n).fpscr := by
  unfold frspResult
  split_ifs
  · exact .setFprf (.setFrFi (.setXx (.setUx .refl))) (Fprf.canonical_normal _)
  · exact .setFprf (.setFrFi (.setXx (.setUx .refl))) (canonical_frspUnderflowClass _ _)
  · exact frspEnabledOverflowTail_updates _ _ (frspRound_updates b)
  · exact frspDisabledOverflow_updates b n p .refl
  · exact frspNormal_updates b n p
  · exact .setFrFi (.setFprf .refl (Fprf.canonical_zero _))
  · exact .setFrFi (.setFprf .refl (Fprf.canonical_infinity _))
  · exact .setFrFi (.setFprf .refl rfl)
  · exact frspSNaN_updates b

theorem fctiInvalid_updates (tgt : IntTarget) (i : Dword) (snan : Bool) (h : g.Updates fctiStatus f) :
    g.Updates fctiStatus (fctiInvalid tgt i snan f n).fpscr := by
  have hbits : g.Updates fctiStatus (((f.setFrFi false false).setVxcvi true).setVxsnan snan) :=
    h.setFrFi.setVxcvi.setVxsnan
  simp only [fctiInvalid]
  split_ifs
  · exact hbits
  · exact hbits.setFprf (Fprf.canonical_draw n)

theorem fctiMain_updates (tgt : IntTarget) (mode : RoundMode) : f.Updates fctiStatus (fctiMain tgt mode b f n).fpscr := by
  have hround {inexact inc : Bool} : f.Updates fctiStatus ((f.setXx inexact).setFrFi inc inexact) :=
    .setFrFi (.setXx .refl)
  simp only [fctiMain]
  split_ifs
  · exact fctiInvalid_updates n _ _ _ hround
  · exact hround.setFprf (Fprf.canonical_draw n)

theorem fctiResult_updates (tgt : IntTarget) (mode : RoundMode) :
    f.Updates fctiStatus (fctiResult tgt mode b f n).fpscr := by
  unfold fctiResult
  split_ifs
  · exact fctiInvalid_updates n _ _ _ .refl
  · exact fctiInvalid_updates n _ _ _ .refl
  · exact fctiInvalid_updates n _ _ _ .refl
  · exact fctiInvalid_updates n _ _ _ .refl
  · exact fctiMain_updates b n tgt mode

theorem fcfidResult_updates : f.Updates fcfidStatus (fcfidResult b f).fpscr := by
  unfold fcfidResult
  split_ifs
  · exact .setFprf (.setFrFi .refl) rfl
  · exact .setFprf (.setXx (.setFrFi .refl)) (Fprf.canonical_normal _)

theorem fsubResult_updates (a : Dword) : f.Updates fsubStatus (fsubResult a b f n).fpscr :=
  .setFprf (.setFrFi (.setUx (.setOx (.setXx (.setVxsnan .refl))))) (Fprf.canonical_draw n)

theorem fcmpu_updates (snan : Bool) : f.Updates fcmpuStatus ((f.setFprf (.draw n)).setVxsnan snan) :=
  .setVxsnan (.setFprf .refl (Fprf.canonical_draw n))

end

end Sys2Proof.Machine
end

section
/-! PROOFS. What executing an instruction can do, said once: `exec_cases`. The statements about every instruction are
read off it. -/

namespace Sys2Proof.Machine

/-! ### The writes of an instruction -/

/-- The floating-point target, the FPSCR and the draws a result leaves. -/
def State.writeFp (s : State) (frt : FReg) (r : FpResult) : State :=
  ((s.writeTarget frt r.frt).setFpscr r.fpscr).countDraws r.draws

/-- What `fcmpu` writes (40 R106). -/
def State.writeCompare (s : State) (bf : CrIdx) (a b : Dword) : State :=
  ((s.writeCr bf (compareResult a b)).setFpscr
    ((s.fpscr.setFprf (.draw s.draws)).setVxsnan (isSNaN a || isSNaN b))).countDraws 1

/-- The condition and the displacement of a branch (40 R109 to R111). -/
def State.branchOn (s : State) : Instr → Option (Bool × BitVec 14)
  | .bl n bd => some ((s.readCr n).lt, bd)
  | .bgt n bd => some ((s.readCr n).gt, bd)
  | .bnl n bd => some (!(s.readCr n).lt, bd)
  | _ => none

/-- An instruction that advances `pc` makes its writes in `s` and leaves `w`, whose `pc` is still its own, having
executed a set of the exception bits in `raised`. -/
inductive Writes (s : State) : Instr → State → List FpBit → Prop where
  | frsp (frt frb) {r} (hr : r = frspResult s.params (s.readF frb) s.fpscr s.draws) :
    Writes s (.frsp frt frb) (s.writeFp frt r) r.raised
  | fcti (tgt : IntTarget) (z frt frb) {r}
      (hr : r = fctiResult tgt (convertMode z s.fpscr) (s.readF frb) s.fpscr s.draws) :
    Writes s (tgt.instr z frt frb) (s.writeFp frt r) r.raised
  | fcfid (frt frb) {r} (hr : r = fcfidResult (s.readF frb) s.fpscr) :
    Writes s (.fcfid frt frb) (s.writeFp frt r) r.raised
  | fsub (frt fra frb) {r} (hr : r = fsubResult (s.readF fra) (s.readF frb) s.fpscr s.draws) :
    Writes s (.fsub frt fra frb) (s.writeFp frt r) r.raised
  | fcmpu (bf fra frb) :
    Writes s (.fcmpu bf fra frb) (s.writeCompare bf (s.readF fra) (s.readF frb))
      (if isSNaN (s.readF fra) || isSNaN (s.readF frb) then [.vxsnan] else [])
  | fmr (frt frb) : Writes s (.fmr frt frb) (s.writeF frt (s.readF frb)) []
  | add (rt ra rb) : Writes s (.add rt ra rb) (s.writeX rt (s.readX ra + s.readX rb)) []
  | stfd (frs d ra) (aligned : (s.effectiveAddress ra d).toNat % 8 = 0)
      (admitted : s.admits (s.effectiveAddress ra d).toNat 8 = true) :
    Writes s (.stfd frs d ra) (s.setMem (s.mem.writeDword (s.effectiveAddress ra d).toNat (s.readF frs))) []
  | lwz (rt d ra) (aligned : (s.effectiveAddress ra d).toNat % 4 = 0)
      (admitted : s.admits (s.effectiveAddress ra d).toNat 4 = true) :
    Writes s (.lwz rt d ra)
      (s.writeX rt ((s.mem.readWord (s.effectiveAddress ra d).toNat).setWidth 64)) []
  | notTaken {i bd} (h : s.branchOn i = some (false, bd)) : Writes s i s []

/-- The three ways an instruction executes: its writes and then its end; a taken branch; a faulting access. -/
theorem exec_cases (i : Instr) (s : State) :
    (∃ w raised, Writes s i w raised ∧ exec i s = sequential s (raiseOrAdvance w raised)) ∨
    (∃ bd, s.branchOn i = some (true, bd) ∧ exec i s = .next (s.setPc (s.branchTarget bd))) ∨
    (∃ a n r, (r = .misaligned a n ∨ r = .unmapped a n) ∧ exec i s = sequential s (.fault r)) := by
  have hbranch {taken bd} (hon : s.branchOn i = some (taken, bd)) (hexec : exec i s = branch s taken bd) :
      (∃ w raised, Writes s i w raised ∧ exec i s = sequential s (raiseOrAdvance w raised)) ∨
      (∃ bd, s.branchOn i = some (true, bd) ∧ exec i s = .next (s.setPc (s.branchTarget bd))) := by
    cases taken
    · exact .inl ⟨_, _, .notTaken hon, hexec⟩
    · exact .inr ⟨bd, hon, hexec⟩
  cases i with
  | frsp frt frb => exact .inl ⟨_, _, .frsp frt frb rfl, rfl⟩
  | fctiw frt frb => exact .inl ⟨_, _, .fcti .word false frt frb rfl, rfl⟩
  | fctiwz frt frb => exact .inl ⟨_, _, .fcti .word true frt frb rfl, rfl⟩
  | fctid frt frb => exact .inl ⟨_, _, .fcti .doubleword false frt frb rfl, rfl⟩
  | fctidz frt frb => exact .inl ⟨_, _, .fcti .doubleword true frt frb rfl, rfl⟩
  | fcfid frt frb => exact .inl ⟨_, _, .fcfid frt frb rfl, rfl⟩
  | fmr frt frb => exact .inl ⟨_, _, .fmr frt frb, rfl⟩
  | fcmpu bf fra frb => exact .inl ⟨_, _, .fcmpu bf fra frb, rfl⟩
  | fsub frt fra frb => exact .inl ⟨_, _, .fsub frt fra frb rfl, rfl⟩
  | add rt ra rb => exact .inl ⟨_, _, .add rt ra rb, rfl⟩
  | stfd frs d ra =>
    simp only [exec, execStfd, access]
    split_ifs with haligned hadmitted
    · exact .inr (.inr ⟨_, _, _, .inl rfl, rfl⟩)
    · exact .inl ⟨_, _, .stfd frs d ra (not_not.mp haligned) hadmitted, rfl⟩
    · exact .inr (.inr ⟨_, _, _, .inr rfl, rfl⟩)
  | lwz rt d ra =>
    simp only [exec, execLwz, access]
    split_ifs with haligned hadmitted
    · exact .inr (.inr ⟨_, _, _, .inl rfl, rfl⟩)
    · exact .inl ⟨_, _, .lwz rt d ra (not_not.mp haligned) hadmitted, rfl⟩
    · exact .inr (.inr ⟨_, _, _, .inr rfl, rfl⟩)
  | bl n bd => exact (hbranch rfl rfl).imp_right .inl
  | bgt n bd => exact (hbranch rfl rfl).imp_right .inl
  | bnl n bd => exact (hbranch rfl rfl).imp_right .inl

/-- An instruction that completes: it made its writes, no bit it raised is enabled, and it advanced; or it is a taken
branch. -/
theorem exec_eq_next {i : Instr} {s t : State} (h : exec i s = .next t) :
    (∃ w raised, Writes s i w raised ∧ s.canAdvance = true ∧ (∀ b ∈ raised, w.fpscr.enables b = false) ∧
      t = w.advance) ∨
    ∃ bd, s.branchOn i = some (true, bd) ∧ t = s.setPc (s.branchTarget bd) := by
  rcases exec_cases i s with ⟨w, raised, hw, he⟩ | ⟨bd, hon, he⟩ | ⟨a, n, r, -, he⟩
  · obtain ⟨hadv, hend⟩ := sequential_eq_next.mp (he ▸ h)
    obtain ⟨hoff, ht⟩ := raiseOrAdvance_eq_next.mp hend
    exact .inl ⟨w, raised, hw, hadv, hoff, ht⟩
  · cases he.symm.trans h
    exact .inr ⟨bd, hon, rfl⟩
  · cases (sequential_eq_next.mp (he ▸ h)).2

/-- A stop for an enabled exception names a raised bit whose enable is 1, and holds the state the writes left. -/
theorem exec_eq_enabledException {i : Instr} {s t : State} {b : FpBit}
    (h : exec i s = .fault (.fpEnabledException b t)) :
    ∃ raised, Writes s i t raised ∧ s.canAdvance = true ∧ b ∈ raised ∧ t.fpscr.enables b = true := by
  rcases exec_cases i s with ⟨w, raised, hw, he⟩ | ⟨bd, hon, he⟩ | ⟨a, n, r, hr, he⟩
  · obtain ⟨hadv, hend⟩ := sequential_eq_fault.mp (he ▸ h)
    obtain ⟨c, hc, hon, hstop⟩ := raiseOrAdvance_eq_fault hend
    cases hstop
    exact ⟨raised, hw, hadv, hc, hon⟩
  · cases he ▸ h
  · obtain ⟨-, hstop⟩ := sequential_eq_fault.mp (he ▸ h)
    rcases hr with rfl | rfl <;> cases hstop

/-! ### What the writes leave unchanged -/

theorem State.branchOn_eq_some {s : State} {i : Instr} {taken : Bool} {bd : BitVec 14}
    (h : s.branchOn i = some (taken, bd)) :
    (∃ n, i = .bl n bd ∧ taken = (s.readCr n).lt) ∨ (∃ n, i = .bgt n bd ∧ taken = (s.readCr n).gt) ∨
      (∃ n, i = .bnl n bd ∧ taken = !(s.readCr n).lt) := by
  unfold State.branchOn at h
  split at h
  · cases h; exact .inl ⟨_, rfl, rfl⟩
  · cases h; exact .inr (.inl ⟨_, rfl, rfl⟩)
  · cases h; exact .inr (.inr ⟨_, rfl, rfl⟩)
  · cases h

theorem statusWrites_of_branchOn {s : State} {i : Instr} {taken : Bool} {bd : BitVec 14}
    (h : s.branchOn i = some (taken, bd)) : statusWrites i = [] := by
  rcases State.branchOn_eq_some h with ⟨n, rfl, -⟩ | ⟨n, rfl, -⟩ | ⟨n, rfl, -⟩ <;> rfl

namespace Writes

variable {s w : State} {i : Instr} {raised : List FpBit}

theorem pc_eq (h : Writes s i w raised) : w.pc = s.pc := by
  cases h <;> simp [State.writeFp, State.writeCompare]

theorem params_eq (h : Writes s i w raised) : w.params = s.params := by
  cases h <;> simp [State.writeFp, State.writeCompare]

theorem updates (h : Writes s i w raised) : s.fpscr.Updates (statusWrites i) w.fpscr := by
  cases h with
  | frsp frt frb hr => exact hr ▸ frspResult_updates _ _ _
  | fcti tgt z frt frb hr =>
    rw [statusWrites_fcti]
    exact hr ▸ fctiResult_updates _ _ _ _
  | fcfid frt frb hr => exact hr ▸ fcfidResult_updates _
  | fsub frt fra frb hr => exact hr ▸ fsubResult_updates _ _ _
  | fcmpu => exact fcmpu_updates _ _
  | fmr | add | stfd | lwz | notTaken => exact .refl

/-- A condition field changes only under the `fcmpu` that names it. -/
theorem readCr_eq {n : CrIdx} (h : Writes s i w raised) (hn : ∀ a b, i ≠ .fcmpu n a b) : w.readCr n = s.readCr n := by
  cases h with
  | fcmpu bf fra frb =>
    have hbf : bf ≠ n := fun e => hn fra frb (e ▸ rfl)
    exact State.readCr_writeCr_other s bf n _ hbf
  | frsp | fcti | fcfid | fsub => simp [State.readCr, State.writeFp]
  | fmr | add | stfd | lwz | notTaken => rfl

theorem memoryCanonical (h : Writes s i w raised) (hs : s.mem.wf = true) : w.mem.wf = true := by
  cases h with
  | stfd => exact Memory.wf_writeDword _ _ _ hs
  | frsp | fcti | fcfid | fsub => simpa [State.writeFp] using hs
  | fcmpu | fmr | add | lwz | notTaken => exact hs

end Writes

/-- The FPSCR after an instruction, whether it completes or stops for an enabled exception. -/
theorem exec_updates {i : Instr} {s t : State}
    (h : exec i s = .next t ∨ ∃ b, exec i s = .fault (.fpEnabledException b t)) :
    s.fpscr.Updates (statusWrites i) t.fpscr := by
  rcases h with h | ⟨b, h⟩
  · rcases exec_eq_next h with ⟨w, raised, hw, -, -, rfl⟩ | ⟨bd, -, rfl⟩
    · exact hw.updates
    · exact .refl
  · obtain ⟨raised, hw, -⟩ := exec_eq_enabledException h
    exact hw.updates

end Sys2Proof.Machine
end

section
/-! PROOFS. The invariant: what each write of the state keeps of it (10_state.md R23, R24, R31). -/

namespace Sys2Proof.Machine

theorem State.registersFit_writeX {s : State} (h : s.registersFit) (i : GReg) (v : Dword) :
    (s.writeX i v).registersFit := by
  intro r
  by_cases hr : i.val = r.val
  · simp [hr]
  · simpa [Vector.getElem_set_ne, hr] using h r

theorem Writes.registersFit {s w : State} {i : Instr} {raised : List FpBit} (h : Writes s i w raised)
    (hs : s.registersFit) : w.registersFit := by
  cases h with
  | add | lwz => exact State.registersFit_writeX hs _ _
  | frsp | fcti | fcfid | fsub => simpa [State.registersFit, State.writeFp] using hs
  | fcmpu | fmr | stfd | notTaken => exact hs

theorem State.pcFits_advance {s : State} (h : s.pcFits) (hadv : s.canAdvance = true) : s.advance.pcFits := by
  obtain ⟨haligned, -⟩ := h
  have hroom : s.pc.toNat + 4 < 2 ^ s.params.xlen.bits := by simpa [State.canAdvance] using hadv
  have hbits : 2 ^ s.params.xlen.bits ≤ 2 ^ 64 := by cases s.params.xlen <;> decide
  have hpc : (s.pc + 4#64).toNat = s.pc.toNat + 4 := by
    rw [BitVec.toNat_add, BitVec.toNat_ofNat]
    omega
  simp only [State.pcFits, State.advance_pc, State.advance_params, hpc]
  omega

/-- Truncation to `XLEN` keeps the residue modulo 4. -/
theorem xlen_trunc_mod_four (x : Xlen) (v : Dword) : (x.trunc v).toNat % 4 = v.toNat % 4 := by
  rw [xlen_toNat_trunc]
  cases x <;> simp only [Xlen.bits] <;> omega

theorem displacement_mod_four (bd : BitVec 14) : ((bd ++ 0#2).signExtend 64).toNat % 4 = 0 := by
  have hwords : (bd ++ 0#2).toNat = 4 * bd.toNat := by
    rw [BitVec.toNat_append, Nat.shiftLeft_eq]
    simp [Nat.mul_comm]
  rw [BitVec.toNat_signExtend, BitVec.toNat_setWidth, hwords]
  split <;> omega

theorem State.pcFits_branchTarget {s : State} (h : s.pcFits) (bd : BitVec 14) :
    (s.setPc (s.branchTarget bd)).pcFits := by
  obtain ⟨haligned, -⟩ := h
  refine ⟨?_, xlen_trunc_lt _ _⟩
  have hbd := displacement_mod_four bd
  simp only [State.setPc_pc, State.branchTarget, xlen_trunc_mod_four, BitVec.toNat_add]
  omega

theorem Writes.inv {s w : State} {i : Instr} {raised : List FpBit} (h : Writes s i w raised) (hs : s.Inv) : w.Inv where
  memoryCanonical := h.memoryCanonical hs.memoryCanonical
  registersFit := h.registersFit hs.registersFit
  pcFits := by simpa [State.pcFits, h.pc_eq, h.params_eq] using hs.pcFits
  fprfCanonical := h.updates.canonical hs.fprfCanonical

/-- The invariant speaks of `pc` in one field only. -/
theorem State.Inv.setPc {s : State} (h : s.Inv) {target : Dword} (hpc : (s.setPc target).pcFits) :
    (s.setPc target).Inv :=
  ⟨h.memoryCanonical, h.registersFit, hpc, h.fprfCanonical⟩

theorem exec_inv {i : Instr} {s t : State} (hs : s.Inv) (h : exec i s = .next t) : t.Inv := by
  rcases exec_eq_next h with ⟨w, raised, hw, hadv, -, rfl⟩ | ⟨bd, -, rfl⟩
  · have hroom : w.canAdvance = true := by simpa [State.canAdvance, hw.pc_eq, hw.params_eq] using hadv
    exact (hw.inv hs).setPc (State.pcFits_advance (hw.inv hs).pcFits hroom)
  · exact hs.setPc (State.pcFits_branchTarget hs.pcFits bd)

end Sys2Proof.Machine
end

section
/-! PROOFS. The statements about the state (10_state.md): the invariant, the FPSCR, the condition register, `pc`. -/

namespace Sys2Proof.Machine

/-- Settles O47, field by field of the reset state. -/
theorem resetMeetsTheInvariant : Obligations.ResetMeetsTheInvariant where
  memoryCanonical := rfl
  registersFit := fun r => by simp [State.reset, Xlen.trunc, Config.resetParams]
  pcFits := ⟨rfl, by decide⟩
  fprfCanonical := rfl

/-- Settles O48: what was executed kept the invariant, whichever instruction it was. -/
theorem stepKeepsTheInvariant : Obligations.StepKeepsTheInvariant := by
  intro s t hs h
  obtain ⟨w, i, -, -, hexec⟩ := step_eq_next h
  exact exec_inv hs hexec

/-! ### Refusal at the top of the address space -/

theorem sequential_of_not_canAdvance {s : State} (h : s.canAdvance = false) (o : Out) :
    sequential s o = .refused (.pcWraps s.pc) :=
  sequential_eq_refused.mpr (.inr ⟨h, rfl⟩)

/-- Settles O11: whatever is not a taken branch is sequential. -/
theorem wrappingAdvanceIsRefused : Obligations.WrappingAdvanceIsRefused := by
  intro i s hadv hbl hbgt hbnl
  rcases exec_cases i s with ⟨w, raised, -, h⟩ | ⟨bd, hon, -⟩ | ⟨a, n, r, -, h⟩
  · exact h.trans (sequential_of_not_canAdvance hadv _)
  · exfalso
    rcases State.branchOn_eq_some hon with ⟨n, hi, htaken⟩ | ⟨n, hi, htaken⟩ | ⟨n, hi, htaken⟩
    · simp [hbl n bd hi] at htaken
    · simp [hbgt n bd hi] at htaken
    · simp [hbnl n bd hi] at htaken
  · exact h.trans (sequential_of_not_canAdvance hadv _)

/-! ### The value of a double -/

/-- A significand of 52 fraction bits under the biased exponent `e`, in units of 2^-1074. -/
theorem two_zpow_exponent_mul (e : Nat) (he : 0 < e) :
    (2 : Rat) ^ ((e : Int) - 1023) * 2 ^ 1074 = 2 ^ 52 * 2 ^ (e - 1) := by
  rw [← zpow_natCast, ← zpow_add₀ two_ne_zero, ← pow_add, ← zpow_natCast]
  congr 1
  omega

theorem cast_dMagnitude (v : Dword) :
    (dMagnitude v : Rat) =
      (if dExp v = 0 then ((dFrac v).toNat : Rat) / 2 ^ 52 * 2 ^ (-1022 : Int)
        else (1 + ((dFrac v).toNat : Rat) / 2 ^ 52) * 2 ^ ((dExp v : Int) - 1023)) * 2 ^ 1074 := by
  unfold dMagnitude
  split_ifs with h
  · rw [mul_assoc, show (-1022 : Int) = ((1 : Nat) : Int) - 1023 from rfl, two_zpow_exponent_mul 1 one_pos]
    simp
  · rw [mul_assoc, two_zpow_exponent_mul (dExp v) (Nat.pos_of_ne_zero h)]
    push_cast
    ring

/-- Settles O21: the sign goes outside, the magnitudes are equal. -/
theorem doubleValueIsTheDouble : Obligations.DoubleValueIsTheDouble := by
  intro v _
  simp only [dRat, mul_assoc, ← cast_dMagnitude]
  unfold dValue dSign
  split_ifs <;> simp

/-! ### The FPSCR -/

/-- Settles O49: completed or stopped, the FPSCR went through setters that never clear an exception bit. -/
theorem stickyBitsAreNeverCleared : Obligations.StickyBitsAreNeverCleared :=
  fun _ _ _ h => (exec_updates h).sticky

/-- Settles O50: no setter writes a control field, and an instruction without status fields uses no setter. -/
theorem controlFieldsAreConstant : Obligations.ControlFieldsAreConstant := by
  intro i s t h
  have hu := exec_updates (.inl h)
  refine ⟨hu.control, fun hne => ?_⟩
  cases i with
  | frsp a b | fctiw a b | fctiwz a b | fctid a b | fctidz a b | fcfid a b => exact .inl ⟨a, b, by simp⟩
  | fsub a b c => exact .inr (.inl ⟨a, b, c, rfl⟩)
  | fcmpu n a b => exact .inr (.inr ⟨n, a, b, rfl⟩)
  | fmr | add | stfd | lwz | bl | bgt | bnl => exact absurd hu.eq_of_nil hne

/-- Settles O51: under each kind of writer, the fields not listed for it are as before. -/
theorem statusFieldsHaveTheirWriters : Obligations.StatusFieldsHaveTheirWriters := by
  intro i s t h toInteger rounds fromInteger subtracts compares
  have hu := exec_updates (.inl h)
  rcases statusWrites_cases i with ⟨(hi : rounds), hw⟩ | ⟨(hi : toInteger), hw⟩ | ⟨(hi : fromInteger), hw⟩ |
    ⟨(hi : subtracts), hw⟩ | ⟨(hi : compares), hw⟩ | hw <;> rw [hw] at hu
  · have hcvi : t.fpscr.vxcvi = s.fpscr.vxcvi := hu.same .vxcvi (by decide)
    simp [hi, hcvi]
  · have hox : t.fpscr.ox = s.fpscr.ox := hu.same .ox (by decide)
    have hux : t.fpscr.ux = s.fpscr.ux := hu.same .ux (by decide)
    simp [hi, hox, hux]
  · have hox : t.fpscr.ox = s.fpscr.ox := hu.same .ox (by decide)
    have hux : t.fpscr.ux = s.fpscr.ux := hu.same .ux (by decide)
    have hsnan : t.fpscr.vxsnan = s.fpscr.vxsnan := hu.same .vxsnan (by decide)
    have hcvi : t.fpscr.vxcvi = s.fpscr.vxcvi := hu.same .vxcvi (by decide)
    simp [hi, hox, hux, hsnan, hcvi]
  · have hcvi : t.fpscr.vxcvi = s.fpscr.vxcvi := hu.same .vxcvi (by decide)
    simp [hi, hcvi]
  · have hox : t.fpscr.ox = s.fpscr.ox := hu.same .ox (by decide)
    have hux : t.fpscr.ux = s.fpscr.ux := hu.same .ux (by decide)
    have hxx : t.fpscr.xx = s.fpscr.xx := hu.same .xx (by decide)
    have hcvi : t.fpscr.vxcvi = s.fpscr.vxcvi := hu.same .vxcvi (by decide)
    obtain ⟨hfr, hfi⟩ : t.fpscr.fr = s.fpscr.fr ∧ t.fpscr.fi = s.fpscr.fi := hu.same .frFi (by decide)
    simp [hi, hox, hux, hxx, hcvi, hfr, hfi]
  · simp [hu.eq_of_nil]

/-! ### The condition register -/

theorem compareResult_count (a b : Dword) :
    [(compareResult a b).lt, (compareResult a b).gt, (compareResult a b).eq, (compareResult a b).un].count true = 1 := by
  unfold compareResult
  split_ifs <;> rfl

theorem readCr_of_exec_fcmpu {s t : State} {n : CrIdx} {a b : FReg} (h : exec (.fcmpu n a b) s = .next t) :
    t.readCr n = compareResult (s.readF a) (s.readF b) := by
  obtain ⟨-, hend⟩ := sequential_eq_next.mp h
  obtain ⟨-, rfl⟩ := raiseOrAdvance_eq_next.mp hend
  exact State.readCr_writeCr_same s n _

/-- Settles O52: no other write names a condition field, and a compare records one relation. -/
theorem onlyFcmpuWritesConditionFields : Obligations.OnlyFcmpuWritesConditionFields := by
  intro i s t h
  constructor
  · intro n hne
    by_contra hcompare
    rcases exec_eq_next h with ⟨w, raised, hw, -, -, rfl⟩ | ⟨bd, -, rfl⟩
    · exact hne (hw.readCr_eq fun a b hi => hcompare ⟨a, b, hi⟩)
    · exact hne rfl
  · rintro n a b rfl
    rw [readCr_of_exec_fcmpu h]
    exact compareResult_count _ _

/-! ### The program counter -/

/-- Settles O55: the writes leave `pc`, so the end of the instruction decides it. -/
theorem programCounterAdvancesOrBranches : Obligations.ProgramCounterAdvancesOrBranches := by
  intro i s t h
  rcases exec_eq_next h with ⟨w, raised, hw, -, -, rfl⟩ | ⟨bd, hon, rfl⟩
  · exact .inl (by rw [State.advance_pc, hw.pc_eq])
  · refine .inr ?_
    rcases State.branchOn_eq_some hon with ⟨n, hi, -⟩ | ⟨n, hi, -⟩ | ⟨n, hi, -⟩ <;>
      exact ⟨n, bd, by simp [hi], rfl⟩

end Sys2Proof.Machine
end

section
/-! PROOFS. Accesses to memory: when one faults, what a completed `stfd` or `lwz` leaves, and which bytes and registers
an instruction cannot change (20_memory.md R52, R53, R54, R58). -/

namespace Sys2Proof.Machine

/-! ### Faults of an access and of a fetch -/

theorem access_of_misaligned {s : State} {ea : Dword} {n : Nat} (h : ea.toNat % n ≠ 0) (o : Out) :
    access s ea n o = .fault (.misaligned ea.toNat n) :=
  if_pos h

theorem access_of_not_admits {s : State} {ea : Dword} {n : Nat} (haligned : ea.toNat % n = 0)
    (h : s.admits ea.toNat n = false) (o : Out) : access s ea n o = .fault (.unmapped ea.toNat n) := by
  simp [access, haligned, h]

theorem fetch_of_misaligned {s : State} (h : s.pc.toNat % 4 ≠ 0) : s.fetch = .fault (.misaligned s.pc.toNat 4) :=
  if_pos h

theorem step_of_fetch_fault {s : State} {r : Fault} (h : s.fetch = .fault r) : step s = .fault r := by
  unfold step
  rw [h]

/-! ### A completed access -/

theorem exec_stfd_eq_next {frs : FReg} {d : BitVec 16} {ra : GReg} {s t : State} :
    exec (.stfd frs d ra) s = .next t ↔
      s.canAdvance = true ∧ (s.effectiveAddress ra d).toNat % 8 = 0 ∧
        s.admits (s.effectiveAddress ra d).toNat 8 = true ∧
        t = (s.setMem (s.mem.writeDword (s.effectiveAddress ra d).toNat (s.readF frs))).advance := by
  simp only [exec, execStfd, sequential_eq_next, access_eq_next, Host.Outcome.next.injEq, eq_comm (b := t)]

theorem exec_lwz_eq_next {rt : GReg} {d : BitVec 16} {ra : GReg} {s t : State} :
    exec (.lwz rt d ra) s = .next t ↔
      s.canAdvance = true ∧ (s.effectiveAddress ra d).toNat % 4 = 0 ∧
        s.admits (s.effectiveAddress ra d).toNat 4 = true ∧
        t = (s.writeX rt ((s.mem.readWord (s.effectiveAddress ra d).toNat).setWidth 64)).advance := by
  simp only [exec, execLwz, sequential_eq_next, access_eq_next, Host.Outcome.next.injEq, eq_comm (b := t)]

/-- A zero-extended word fits every `XLEN` (00_scope.md R8). -/
theorem xlen_trunc_word (x : Xlen) (v : Word) : x.trunc (v.setWidth 64) = v.setWidth 64 := by
  cases x <;> simp [Xlen.trunc]

/-- What the target of a completed `lwz` reads as, the word of memory at its address (40 R104). -/
theorem readX_of_exec_lwz {rt : GReg} {d : BitVec 16} {ra : GReg} {s t : State}
    (h : exec (.lwz rt d ra) s = .next t) :
    t.readX rt = (s.mem.readWord (s.effectiveAddress ra d).toNat).setWidth 64 := by
  obtain ⟨-, -, -, rfl⟩ := exec_lwz_eq_next.mp h
  exact (State.readX_writeX_same s rt _).trans (xlen_trunc_word _ _)

/-- What memory is after a completed `stfd` (40 R103). -/
theorem mem_of_exec_stfd {frs : FReg} {d : BitVec 16} {ra : GReg} {s t : State}
    (h : exec (.stfd frs d ra) s = .next t) :
    t.mem = s.mem.writeDword (s.effectiveAddress ra d).toNat (s.readF frs) := by
  obtain ⟨-, -, -, rfl⟩ := exec_stfd_eq_next.mp h
  rfl

/-! ### Bytes of the program -/

/-- No byte of the program admits a data access (20_memory.md R58). -/
theorem admitsByte_of_program {s : State} {a : Nat} (h : s.program.contains a = true) : s.admitsByte a = false := by
  simp [State.admitsByte, h]

theorem admits_of_program {s : State} {a n k : Nat} (hk : k < n) (h : s.program.contains (a + k) = true) :
    s.admits a n = false := by
  rw [← Bool.not_eq_true, State.admits_iff]
  intro hall
  exact absurd (hall k hk) (by simp [admitsByte_of_program h])

/-- A byte of the program lies outside every admitted access. -/
theorem outside_of_admits {s : State} {ea n a : Nat} (h : s.admits ea n = true) (ha : s.program.contains a = true) :
    a < ea ∨ ea + n ≤ a := by
  by_contra hin
  have hplace : ea + (a - ea) = a := by omega
  have hrefused : s.admits ea n = false := admits_of_program (k := a - ea) (by omega) (by rwa [hplace])
  simp [h] at hrefused

/-! ### What the writes of an instruction leave unchanged -/

namespace Writes

variable {s w : State} {i : Instr} {raised : List FpBit}

theorem sameLaunch (h : Writes s i w raised) : SameLaunch s w := by
  cases h with
  | frsp | fcti | fcfid | fsub => simp [SameLaunch, State.writeFp]
  | fcmpu | fmr | add | stfd | lwz | notTaken => exact ⟨rfl, rfl, rfl⟩

theorem mem_eq (h : Writes s i w raised) (hi : ∀ f d a, i ≠ .stfd f d a) : w.mem = s.mem := by
  cases h with
  | stfd f d a => exact absurd rfl (hi f d a)
  | frsp | fcti | fcfid | fsub => simp [State.writeFp]
  | fcmpu | fmr | add | lwz | notTaken => rfl

/-- A general register changes only under the `lwz` or the `add` that names it. -/
theorem readX_eq {r : GReg} (h : Writes s i w raised) (hlwz : ∀ d a, i ≠ .lwz r d a) (hadd : ∀ a b, i ≠ .add r a b) :
    w.readX r = s.readX r := by
  cases h with
  | lwz rt d ra =>
    have hr : rt ≠ r := fun e => hlwz d ra (e ▸ rfl)
    exact State.readX_writeX_other s rt r _ hr
  | add rt ra rb =>
    have hr : rt ≠ r := fun e => hadd ra rb (e ▸ rfl)
    exact State.readX_writeX_other s rt r _ hr
  | frsp | fcti | fcfid | fsub => simp [State.readX, State.writeFp]
  | fcmpu | fmr | stfd | notTaken => rfl

end Writes

/-- The launch data of a state outlive every instruction that completes (70_reset_and_hazards.md R281). -/
theorem exec_sameLaunch {i : Instr} {s t : State} (h : exec i s = .next t) : SameLaunch s t := by
  rcases exec_eq_next h with ⟨w, raised, hw, -, -, rfl⟩ | ⟨bd, -, rfl⟩
  · exact hw.sameLaunch
  · exact ⟨rfl, rfl, rfl⟩

theorem exec_mem_eq {i : Instr} {s t : State} (h : exec i s = .next t) (hi : ∀ f d a, i ≠ .stfd f d a) :
    t.mem = s.mem := by
  rcases exec_eq_next h with ⟨w, raised, hw, -, -, rfl⟩ | ⟨bd, -, rfl⟩
  · exact hw.mem_eq hi
  · rfl

theorem exec_readX_eq {i : Instr} {s t : State} {r : GReg} (h : exec i s = .next t)
    (hlwz : ∀ d a, i ≠ .lwz r d a) (hadd : ∀ a b, i ≠ .add r a b) : t.readX r = s.readX r := by
  rcases exec_eq_next h with ⟨w, raised, hw, -, -, rfl⟩ | ⟨bd, -, rfl⟩
  · exact hw.readX_eq hlwz hadd
  · rfl

/-- Only an admitted store writes, and it cannot reach the program. -/
theorem exec_read_program {i : Instr} {s t : State} {a : Nat} (hs : s.mem.wf = true) (h : exec i s = .next t)
    (ha : s.program.contains a = true) : t.mem.read a = s.mem.read a := by
  by_cases hi : ∃ f d b, i = .stfd f d b
  · obtain ⟨f, d, b, rfl⟩ := hi
    obtain ⟨-, -, hadmits, -⟩ := exec_stfd_eq_next.mp h
    rw [mem_of_exec_stfd h]
    exact Memory.read_writeDword_outside _ _ _ _ hs (outside_of_admits hadmits ha)
  · rw [exec_mem_eq h fun f d b e => hi ⟨f, d, b, e⟩]

end Sys2Proof.Machine
end

section
/-! PROOFS. The statements about memory (20_memory.md). -/

namespace Sys2Proof.Machine

/-- Settles O16: the store leaves the doubleword's bytes, and the load reads four of them as one word. -/
theorem loadAfterStoreReturnsTheStoredWord : Obligations.LoadAfterStoreReturnsTheStoredWord := by
  intro frs rt ra rb d e s t u hs hstore hload
  rw [readX_of_exec_lwz hload, mem_of_exec_stfd hstore]
  constructor
  · intro hsame
    rw [hsame, Memory.readWord_writeDword_high _ _ _ hs]
  · intro hfour
    rw [hfour, Memory.readWord_writeDword_low _ _ _ hs]

/-- Settles O53: whatever is not the named writer leaves memory, or the register, as it was. -/
theorem onlyStfdWritesMemory : Obligations.OnlyStfdWritesMemory := by
  intro i s t h
  refine ⟨fun hne => ?_, fun r hne => ?_, exec_sameLaunch h⟩
  · by_contra hstfd
    exact hne (exec_mem_eq h fun f d a hi => hstfd ⟨f, d, a, hi⟩)
  · by_contra hwriter
    obtain ⟨hlwz, hadd⟩ := not_or.mp hwriter
    exact hne (exec_readX_eq h (fun d a hi => hlwz ⟨d, a, hi⟩) fun a b hi => hadd ⟨a, b, hi⟩)

/-- Settles O54: no byte of the program is open to an access, so no completed store reaches one. -/
theorem programTextIsImmutable : Obligations.ProgramTextIsImmutable := by
  constructor
  · intro s t a hs h ha
    obtain ⟨w, i, -, -, hexec⟩ := step_eq_next h
    obtain ⟨-, hprogram, -⟩ := exec_sameLaunch hexec
    exact ⟨hprogram, exec_read_program hs hexec ha⟩
  · rintro s f d ra hadv haligned ⟨k, hk, hin⟩
    exact sequential_eq_fault.mpr ⟨hadv, access_of_not_admits haligned (admits_of_program hk hin) _⟩

/-- Settles O10: alignment is the first check of an access and of a fetch. -/
theorem misalignedAccessesFault : Obligations.MisalignedAccessesFault := by
  intro s r x ra d
  refine ⟨fun hadv h => ?_, fun hadv h => ?_, fun h => ?_⟩
  · exact sequential_eq_fault.mpr ⟨hadv, access_of_misaligned h _⟩
  · exact sequential_eq_fault.mpr ⟨hadv, access_of_misaligned h _⟩
  · exact step_of_fetch_fault (fetch_of_misaligned h)

end Sys2Proof.Machine
end

section
/-! PROOFS. Words as their fields: a word is fixed by the fields of its format, and is an instruction's encoding exactly
when its fields are the encoder's (30_encoding.md R72, R73). -/

namespace Sys2Proof

/-! ### Neighbouring fields -/

/-- Two neighbouring fields read as one. -/
theorem msbSlice_add {w : Nat} (v : BitVec w) (i n m : Nat) (h : i + n + m ≤ w) :
    msbSlice v i (n + m) = msbSlice v i n ++ msbSlice v (i + n) m := by
  apply BitVec.eq_of_getLsbD_eq
  intro j hj
  simp only [msbSlice, BitVec.getLsbD_append, BitVec.getLsbD_extractLsb', hj, decide_true, Bool.true_and]
  split
  · next hm =>
    rw [decide_eq_true hm, Bool.true_and]
    congr 1; omega
  · next hm =>
    rw [decide_eq_true (show j - m < n by omega), Bool.true_and]
    congr 1; omega

/-- A slice of a field is a slice of the word. -/
theorem msbSlice_msbSlice {w : Nat} (v : BitVec w) (i n j m : Nat) (h : j + m ≤ n) (hw : i + n ≤ w) :
    msbSlice (msbSlice v i n) j m = msbSlice v (i + j) m := by
  apply BitVec.eq_of_getLsbD_eq
  intro k hk
  simp only [msbSlice, BitVec.getLsbD_extractLsb', hk, decide_true, Bool.true_and]
  rw [decide_eq_true (show n - j - m + k < n by omega), Bool.true_and]
  congr 1; omega

/-- `v` and `u` agree on consecutive fields of the given widths, the first at bit `i`. -/
def SameFields (v u : Word) : Nat → List Nat → Prop
  | _, [] => True
  | i, n :: ns => msbSlice v i n = msbSlice u i n ∧ SameFields v u (i + n) ns

theorem SameFields.refl (v : Word) (widths : List Nat) (i : Nat) : SameFields v v i widths := by
  induction widths generalizing i with
  | nil => trivial
  | cons n ns ih => exact ⟨rfl, ih (i + n)⟩

theorem SameFields.msbSlice_eq {v u : Word} {widths : List Nat} {i : Nat} (h : SameFields v u i widths)
    (hfits : i + widths.sum ≤ 32) : msbSlice v i widths.sum = msbSlice u i widths.sum := by
  induction widths generalizing i with
  | nil => exact BitVec.eq_of_zero_length rfl
  | cons n ns ih =>
    obtain ⟨hfield, hrest⟩ := h
    rw [List.sum_cons] at hfits ⊢
    rw [msbSlice_add v i n _ (by omega), msbSlice_add u i n _ (by omega), hfield, ih hrest (by omega)]

/-- Fields that make up the whole word fix it. -/
theorem eq_iff_sameFields (widths : List Nat) (hwhole : widths.sum = 32) {v u : Word} :
    v = u ↔ SameFields v u 0 widths := by
  constructor
  · rintro rfl
    exact .refl v widths 0
  · intro h
    have hall := h.msbSlice_eq (by omega)
    rwa [hwhole, msbSlice_self, msbSlice_self] at hall

/-! ### Register fields -/

theorem slice_eq_reg5 {w : Word} {i : Nat} {r : Fin 32} : msbSlice w i 5 = reg5 r ↔ regField w i = r := by
  refine ⟨regField_of_slice w i r, ?_⟩
  rintro rfl
  simp [reg5, regField]

theorem slice_eq_cr3 {w : Word} {i : Nat} {n : CrIdx} : msbSlice w i 3 = cr3 n ↔ crField w i = n := by
  refine ⟨crField_of_slice w i n, ?_⟩
  rintro rfl
  simp [cr3, crField]

/-! ### The formats: which words are encodings -/

theorem eq_encodeUnary {w : Word} {xo : BitVec 10} {frt frb : FReg} :
    w = encodeUnary xo frt frb ↔
      msbSlice w 0 6 = 63#6 ∧ regField w 6 = frt ∧ msbSlice w 11 5 = 0#5 ∧ regField w 16 = frb ∧
        msbSlice w 21 10 = xo ∧ msbSlice w 31 1 = 0#1 := by
  rw [eq_iff_sameFields [6, 5, 5, 5, 10, 1] rfl]
  simp (disch := decide) [SameFields, encodeUnary, msbSlice_place_same, msbSlice_place_apart, slice_eq_reg5]

theorem eq_encode_fcmpu {w : Word} {bf : CrIdx} {fra frb : FReg} :
    w = encode (.fcmpu bf fra frb) ↔
      msbSlice w 0 6 = 63#6 ∧ crField w 6 = bf ∧ msbSlice w 9 2 = 0#2 ∧ regField w 11 = fra ∧ regField w 16 = frb ∧
        msbSlice w 21 10 = 0#10 ∧ msbSlice w 31 1 = 0#1 := by
  rw [eq_iff_sameFields [6, 3, 2, 5, 5, 10, 1] rfl]
  simp (disch := decide) [SameFields, encode, msbSlice_place_same, msbSlice_place_apart, slice_eq_reg5, slice_eq_cr3]

theorem eq_encode_fsub {w : Word} {frt fra frb : FReg} :
    w = encode (.fsub frt fra frb) ↔
      msbSlice w 0 6 = 63#6 ∧ regField w 6 = frt ∧ regField w 11 = fra ∧ regField w 16 = frb ∧
        msbSlice w 21 5 = 0#5 ∧ msbSlice w 26 5 = 20#5 ∧ msbSlice w 31 1 = 0#1 := by
  rw [eq_iff_sameFields [6, 5, 5, 5, 5, 5, 1] rfl]
  simp (disch := decide) [SameFields, encode, msbSlice_place_same, msbSlice_place_apart, slice_eq_reg5]

theorem eq_encode_add {w : Word} {rt ra rb : GReg} :
    w = encode (.add rt ra rb) ↔
      msbSlice w 0 6 = 31#6 ∧ regField w 6 = rt ∧ regField w 11 = ra ∧ regField w 16 = rb ∧
        msbSlice w 21 1 = 0#1 ∧ msbSlice w 22 9 = 266#9 ∧ msbSlice w 31 1 = 0#1 := by
  rw [eq_iff_sameFields [6, 5, 5, 5, 1, 9, 1] rfl]
  simp (disch := decide) [SameFields, encode, msbSlice_place_same, msbSlice_place_apart, slice_eq_reg5]

theorem eq_encodeD {w : Word} {opcd : BitVec 6} {r ra : Fin 32} {d : BitVec 16} :
    w = encodeD opcd r ra d ↔
      msbSlice w 0 6 = opcd ∧ regField w 6 = r ∧ regField w 11 = ra ∧ msbSlice w 16 16 = d := by
  rw [eq_iff_sameFields [6, 5, 5, 16] rfl]
  simp (disch := decide) [SameFields, encodeD, msbSlice_place_same, msbSlice_place_apart, slice_eq_reg5]

theorem eq_encodeB {w : Word} {bo : BitVec 5} {crn : CrIdx} {bit : BitVec 2} {bd : BitVec 14} :
    w = encodeB bo crn bit bd ↔
      msbSlice w 0 6 = 16#6 ∧ msbSlice w 6 5 = bo ∧ crField w 11 = crn ∧ msbSlice w 14 2 = bit ∧
        msbSlice w 16 14 = bd ∧ msbSlice w 30 1 = 0#1 ∧ msbSlice w 31 1 = 0#1 := by
  rw [eq_iff_sameFields [6, 5, 3, 2, 14, 1, 1] rfl]
  simp (disch := decide) [SameFields, encodeB, msbSlice_place_same, msbSlice_place_apart, slice_eq_cr3]

end Sys2Proof
end

section
/-! PROOFS. What each part of the decoder answers with an instruction, and the decoder as the inverse of the encoder
(30_encoding.md R75, R76, R77). -/

namespace Sys2Proof

/-! ### The decoder, part by part -/

/-- A check that refuses is passed by whatever decodes. -/
theorem refuse_if_eq_instr {c : Prop} [Decidable c] {why : Reject} {d : Decoded} {i : Instr} :
    (if c then .refused why else d) = .instr i ↔ ¬ c ∧ d = .instr i := by
  by_cases hc : c <;> simp [hc]

theorem bit_ne_one {b : BitVec 1} : ¬ b = 1#1 ↔ b = 0#1 := by
  revert b; decide

theorem decodeUnary_eq_instr {w : Word} {make : FReg → FReg → Instr} {i : Instr} :
    decodeUnary w make = .instr i ↔
      msbSlice w 31 1 = 0#1 ∧ msbSlice w 11 5 = 0#5 ∧ make (regField w 6) (regField w 16) = i := by
  simp only [decodeUnary, refuse_if_eq_instr, bit_ne_one, ne_eq, Decidable.not_not, BitVec.ofNat_eq_ofNat,
    Decoded.instr.injEq]

theorem decodeFcmpu_eq_instr {w : Word} {i : Instr} :
    decodeFcmpu w = .instr i ↔
      msbSlice w 9 2 = 0#2 ∧ msbSlice w 31 1 = 0#1 ∧ .fcmpu (crField w 6) (regField w 11) (regField w 16) = i := by
  simp only [decodeFcmpu, refuse_if_eq_instr, bit_ne_one, ne_eq, Decidable.not_not, BitVec.ofNat_eq_ofNat,
    Decoded.instr.injEq]

theorem decodeFsub_eq_instr {w : Word} {i : Instr} :
    decodeFsub w = .instr i ↔
      msbSlice w 31 1 = 0#1 ∧ msbSlice w 21 5 = 0#5 ∧ .fsub (regField w 6) (regField w 11) (regField w 16) = i := by
  simp only [decodeFsub, refuse_if_eq_instr, bit_ne_one, ne_eq, Decidable.not_not, BitVec.ofNat_eq_ofNat,
    Decoded.instr.injEq]

theorem decodeInteger_eq_instr {w : Word} {i : Instr} :
    decodeInteger w = .instr i ↔
      msbSlice w 22 9 = 266#9 ∧ msbSlice w 21 1 = 0#1 ∧ msbSlice w 31 1 = 0#1 ∧
        .add (regField w 6) (regField w 11) (regField w 16) = i := by
  simp only [decodeInteger, refuse_if_eq_instr, bit_ne_one, ne_eq, Decidable.not_not, Decoded.instr.injEq]

theorem decodeBranch_eq_instr {w : Word} {i : Instr} :
    decodeBranch w = .instr i ↔
      msbSlice w 30 1 = 0#1 ∧ msbSlice w 31 1 = 0#1 ∧
        ((msbSlice w 6 5 = 0b01100#5 ∧ msbSlice w 14 2 = 0#2 ∧ .bl (crField w 11) (msbSlice w 16 14) = i) ∨
          (msbSlice w 6 5 = 0b01100#5 ∧ msbSlice w 14 2 = 1#2 ∧ .bgt (crField w 11) (msbSlice w 16 14) = i) ∨
          (msbSlice w 6 5 = 0b00100#5 ∧ msbSlice w 14 2 = 0#2 ∧ .bnl (crField w 11) (msbSlice w 16 14) = i)) := by
  simp only [decodeBranch, refuse_if_eq_instr, bit_ne_one]
  by_cases hset : msbSlice w 6 5 = 0b01100#5
  · by_cases hlt : msbSlice w 14 2 = 0#2
    · simp [hset, hlt]
    · by_cases hgt : msbSlice w 14 2 = 1#2 <;> simp [hset, hlt, hgt]
  · by_cases hclear : msbSlice w 6 5 = 0b00100#5
    · by_cases hlt : msbSlice w 14 2 = 0#2 <;> simp [hclear, hlt]
    · simp [hset, hclear]

/-! ### The floating unary forms -/

/-- The rows of the table in the floating unary X form: extended opcode, constructor, and whether the row needs
`HAS_FP64INT` (30_encoding.md R75). -/
inductive UnaryRow : BitVec 10 → (FReg → FReg → Instr) → Bool → Prop where
  | frsp : UnaryRow 12#10 .frsp false
  | fctiw : UnaryRow 14#10 .fctiw false
  | fctiwz : UnaryRow 15#10 .fctiwz false
  | fctid : UnaryRow 814#10 .fctid true
  | fctidz : UnaryRow 815#10 .fctidz true
  | fcfid : UnaryRow 846#10 .fcfid true
  | fmr : UnaryRow 72#10 .fmr false

/-- The extended opcodes of those rows. -/
def unaryXos : List (BitVec 10) := [12#10, 14#10, 15#10, 814#10, 815#10, 846#10, 72#10]

/-- None is the extended opcode of `fcmpu`, and none ends in that of `fsub`. -/
theorem unaryXos_apart : ∀ xo ∈ unaryXos, xo ≠ 0#10 ∧ msbSlice xo 5 5 ≠ 20#5 := by
  decide

namespace UnaryRow
variable {xo : BitVec 10} {make : FReg → FReg → Instr} {fp64 : Bool}

theorem mem_unaryXos (h : UnaryRow xo make fp64) : xo ∈ unaryXos := by
  cases h <;> decide

theorem encode_eq (h : UnaryRow xo make fp64) (frt frb : FReg) : encode (make frt frb) = encodeUnary xo frt frb := by
  cases h <;> rfl

theorem wf_iff (h : UnaryRow xo make fp64) (p : Params) (frt frb : FReg) :
    (make frt frb).wf p = true ↔ (fp64 = true → p.hasFp64Int = true) := by
  cases h <;> simp [Instr.wf]

theorem decodeFloat_eq_instr (h : UnaryRow xo make fp64) {has : Bool} {w : Word} {i : Instr}
    (hxo : msbSlice w 21 10 = xo) :
    decodeFloat has w = .instr i ↔ (fp64 = true → has = true) ∧ decodeUnary w make = .instr i := by
  cases h <;> cases has <;> simp [decodeFloat, decodeFp64, hxo]

end UnaryRow

theorem decodeFloat_of_fcmpu {has : Bool} {w : Word} (hxo : msbSlice w 21 10 = 0#10) :
    decodeFloat has w = decodeFcmpu w := by
  simp [decodeFloat, hxo]

theorem decodeFloat_of_fsub {has : Bool} {w : Word} (hfrc : msbSlice w 21 5 = 0#5) (hxo : msbSlice w 26 5 = 20#5) :
    decodeFloat has w = decodeFsub w := by
  have hten : msbSlice w 21 10 = 20#10 := by
    rw [msbSlice_add w 21 5 5 (by decide), hfrc, hxo]
    decide
  simp [decodeFloat, hten, hxo]

/-- An instruction of OPCD 63 comes from a unary row, from `fcmpu` or from `fsub`. -/
theorem decodeFloat_cases {has : Bool} {w : Word} {i : Instr} (h : decodeFloat has w = .instr i) :
    (∃ xo make fp64, UnaryRow xo make fp64 ∧ msbSlice w 21 10 = xo ∧ (fp64 = true → has = true) ∧
        decodeUnary w make = .instr i) ∨
      (msbSlice w 21 10 = 0#10 ∧ decodeFcmpu w = .instr i) ∨
      (msbSlice w 26 5 = 20#5 ∧ decodeFsub w = .instr i) := by
  by_cases hunary : ∃ xo make fp64, UnaryRow xo make fp64 ∧ msbSlice w 21 10 = xo
  · obtain ⟨xo, make, fp64, hrow, hxo⟩ := hunary
    exact .inl ⟨xo, make, fp64, hrow, hxo, (hrow.decodeFloat_eq_instr hxo).mp h⟩
  · have hne {xo make fp64} (hrow : UnaryRow xo make fp64) : msbSlice w 21 10 ≠ xo := fun hxo =>
      hunary ⟨xo, make, fp64, hrow, hxo⟩
    simp only [decodeFloat, hne .frsp, hne .fctiw, hne .fctiwz, hne .fctid, hne .fctidz, hne .fcfid, hne .fmr,
      ↓reduceIte] at h
    split at h
    · next hxo => exact .inr (.inl ⟨hxo, h⟩)
    · split at h
      · next hxo => exact .inr (.inr ⟨hxo, h⟩)
      · cases h

/-- The fields of an instruction of OPCD 63. -/
theorem decodeFloat_fields {has : Bool} {w : Word} {i : Instr} (h : decodeFloat has w = .instr i) :
    msbSlice w 31 1 = 0#1 ∧
      ((∃ xo make fp64, UnaryRow xo make fp64 ∧ (fp64 = true → has = true) ∧ msbSlice w 21 10 = xo ∧
          msbSlice w 11 5 = 0#5 ∧ make (regField w 6) (regField w 16) = i) ∨
        (msbSlice w 21 10 = 0#10 ∧ msbSlice w 9 2 = 0#2 ∧
          .fcmpu (crField w 6) (regField w 11) (regField w 16) = i) ∨
        (msbSlice w 26 5 = 20#5 ∧ msbSlice w 21 5 = 0#5 ∧
          .fsub (regField w 6) (regField w 11) (regField w 16) = i)) := by
  rcases decodeFloat_cases h with ⟨xo, make, fp64, hrow, hxo, hhas, hdec⟩ | ⟨hxo, hdec⟩ | ⟨hxo, hdec⟩
  · obtain ⟨hrc, hreserved, hi⟩ := decodeUnary_eq_instr.mp hdec
    exact ⟨hrc, .inl ⟨xo, make, fp64, hrow, hhas, hxo, hreserved, hi⟩⟩
  · obtain ⟨hreserved, hlast, hi⟩ := decodeFcmpu_eq_instr.mp hdec
    exact ⟨hlast, .inr (.inl ⟨hxo, hreserved, hi⟩)⟩
  · obtain ⟨hrc, hreserved, hi⟩ := decodeFsub_eq_instr.mp hdec
    exact ⟨hrc, .inr (.inr ⟨hxo, hreserved, hi⟩)⟩

/-! ### The decoder by OPCD -/

theorem decodeWord_float {has : Bool} {w : Word} (h : msbSlice w 0 6 = 63#6) :
    decodeWord has w = decodeFloat has w := by
  simp [decodeWord, h]

theorem decodeWord_integer {has : Bool} {w : Word} (h : msbSlice w 0 6 = 31#6) :
    decodeWord has w = decodeInteger w := by
  simp [decodeWord, h]

theorem decodeWord_stfd {has : Bool} {w : Word} (h : msbSlice w 0 6 = 54#6) :
    decodeWord has w = .instr (.stfd (regField w 6) (msbSlice w 16 16) (regField w 11)) := by
  simp [decodeWord, h]

theorem decodeWord_lwz {has : Bool} {w : Word} (h : msbSlice w 0 6 = 32#6) :
    decodeWord has w = .instr (.lwz (regField w 6) (msbSlice w 16 16) (regField w 11)) := by
  simp [decodeWord, h]

theorem decodeWord_branch {has : Bool} {w : Word} (h : msbSlice w 0 6 = 16#6) :
    decodeWord has w = decodeBranch w := by
  simp [decodeWord, h]

/-- A word that decodes has one of the five primary opcodes. -/
theorem opcd_of_decodeWord {has : Bool} {w : Word} {i : Instr} (h : decodeWord has w = .instr i) :
    msbSlice w 0 6 = 63#6 ∨ msbSlice w 0 6 = 31#6 ∨ msbSlice w 0 6 = 54#6 ∨ msbSlice w 0 6 = 32#6 ∨
      msbSlice w 0 6 = 16#6 := by
  by_contra hne
  simp only [not_or] at hne
  simp [decodeWord, hne] at h

/-! ### Decode of encode -/

variable {p : Params}

theorem decodeWord_encode_unary {xo : BitVec 10} {make : FReg → FReg → Instr} {fp64 : Bool}
    (hrow : UnaryRow xo make fp64) {frt frb : FReg} (hwf : (make frt frb).wf p = true) :
    decodeWord p.hasFp64Int (encode (make frt frb)) = .instr (make frt frb) := by
  obtain ⟨hopcd, hfrt, hreserved, hfrb, hxo, hrc⟩ := eq_encodeUnary.mp (hrow.encode_eq frt frb)
  rw [decodeWord_float hopcd, hrow.decodeFloat_eq_instr hxo]
  refine ⟨(hrow.wf_iff p frt frb).mp hwf, ?_⟩
  rw [decodeUnary_eq_instr, hfrt, hfrb]
  exact ⟨hrc, hreserved, rfl⟩

theorem decodeWord_encode {i : Instr} (hwf : i.wf p = true) : decodeWord p.hasFp64Int (encode i) = .instr i := by
  cases i with
  | frsp frt frb => exact decodeWord_encode_unary .frsp hwf
  | fctiw frt frb => exact decodeWord_encode_unary .fctiw hwf
  | fctiwz frt frb => exact decodeWord_encode_unary .fctiwz hwf
  | fctid frt frb => exact decodeWord_encode_unary .fctid hwf
  | fctidz frt frb => exact decodeWord_encode_unary .fctidz hwf
  | fcfid frt frb => exact decodeWord_encode_unary .fcfid hwf
  | fmr frt frb => exact decodeWord_encode_unary .fmr hwf
  | fcmpu bf fra frb =>
    obtain ⟨hopcd, hbf, hreserved, hfra, hfrb, hxo, hlast⟩ := eq_encode_fcmpu.mp rfl
    rw [decodeWord_float hopcd, decodeFloat_of_fcmpu hxo, decodeFcmpu_eq_instr, hbf, hfra, hfrb]
    exact ⟨hreserved, hlast, rfl⟩
  | fsub frt fra frb =>
    obtain ⟨hopcd, hfrt, hfra, hfrb, hfrc, hxo, hrc⟩ := eq_encode_fsub.mp rfl
    rw [decodeWord_float hopcd, decodeFloat_of_fsub hfrc hxo, decodeFsub_eq_instr, hfrt, hfra, hfrb]
    exact ⟨hrc, hfrc, rfl⟩
  | add rt ra rb =>
    obtain ⟨hopcd, hrt, hra, hrb, hoe, hxo, hrc⟩ := eq_encode_add.mp rfl
    rw [decodeWord_integer hopcd, decodeInteger_eq_instr, hrt, hra, hrb]
    exact ⟨hxo, hoe, hrc, rfl⟩
  | stfd frs d ra =>
    obtain ⟨hopcd, hfrs, hra, hd⟩ := eq_encodeD.mp (show encode (.stfd frs d ra) = _ from rfl)
    rw [decodeWord_stfd hopcd, hfrs, hra, hd]
  | lwz rt d ra =>
    obtain ⟨hopcd, hrt, hra, hd⟩ := eq_encodeD.mp (show encode (.lwz rt d ra) = _ from rfl)
    rw [decodeWord_lwz hopcd, hrt, hra, hd]
  | bl crn bd =>
    obtain ⟨hopcd, hbo, hcrn, hbit, hbd, haa, hlk⟩ := eq_encodeB.mp (show encode (.bl crn bd) = _ from rfl)
    rw [decodeWord_branch hopcd, decodeBranch_eq_instr, hcrn, hbd]
    exact ⟨haa, hlk, .inl ⟨hbo, hbit, rfl⟩⟩
  | bgt crn bd =>
    obtain ⟨hopcd, hbo, hcrn, hbit, hbd, haa, hlk⟩ := eq_encodeB.mp (show encode (.bgt crn bd) = _ from rfl)
    rw [decodeWord_branch hopcd, decodeBranch_eq_instr, hcrn, hbd]
    exact ⟨haa, hlk, .inr (.inl ⟨hbo, hbit, rfl⟩)⟩
  | bnl crn bd =>
    obtain ⟨hopcd, hbo, hcrn, hbit, hbd, haa, hlk⟩ := eq_encodeB.mp (show encode (.bnl crn bd) = _ from rfl)
    rw [decodeWord_branch hopcd, decodeBranch_eq_instr, hcrn, hbd]
    exact ⟨haa, hlk, .inr (.inr ⟨hbo, hbit, rfl⟩)⟩

/-! ### Encode of decode -/

variable {w : Word} {i : Instr}

theorem encode_of_decodeFloat (hopcd : msbSlice w 0 6 = 63#6) (h : decodeFloat p.hasFp64Int w = .instr i) :
    w = encode i ∧ i.wf p = true := by
  obtain ⟨hlast, hform⟩ := decodeFloat_fields h
  rcases hform with ⟨xo, make, fp64, hrow, hhas, hxo, hreserved, rfl⟩ | ⟨hxo, hreserved, rfl⟩ | ⟨hxo, hfrc, rfl⟩
  · rw [hrow.encode_eq, hrow.wf_iff]
    exact ⟨eq_encodeUnary.mpr ⟨hopcd, rfl, hreserved, rfl, hxo, hlast⟩, hhas⟩
  · exact ⟨eq_encode_fcmpu.mpr ⟨hopcd, rfl, hreserved, rfl, rfl, hxo, hlast⟩, rfl⟩
  · exact ⟨eq_encode_fsub.mpr ⟨hopcd, rfl, rfl, rfl, hfrc, hxo, hlast⟩, rfl⟩

theorem encode_of_decodeBranch (hopcd : msbSlice w 0 6 = 16#6) (h : decodeBranch w = .instr i) :
    w = encode i ∧ i.wf p = true := by
  obtain ⟨haa, hlk, hform⟩ := decodeBranch_eq_instr.mp h
  rcases hform with ⟨hbo, hbit, rfl⟩ | ⟨hbo, hbit, rfl⟩ | ⟨hbo, hbit, rfl⟩
  all_goals exact ⟨eq_encodeB.mpr ⟨hopcd, hbo, rfl, hbit, rfl, haa, hlk⟩, rfl⟩

theorem encode_of_decodeWord (h : decodeWord p.hasFp64Int w = .instr i) : w = encode i ∧ i.wf p = true := by
  rcases opcd_of_decodeWord h with hopcd | hopcd | hopcd | hopcd | hopcd
  · exact encode_of_decodeFloat hopcd (decodeWord_float hopcd ▸ h)
  · rw [decodeWord_integer hopcd, decodeInteger_eq_instr] at h
    obtain ⟨hxo, hoe, hrc, rfl⟩ := h
    exact ⟨eq_encode_add.mpr ⟨hopcd, rfl, rfl, rfl, hoe, hxo, hrc⟩, rfl⟩
  · rw [decodeWord_stfd hopcd] at h
    cases h
    exact ⟨eq_encodeD.mpr ⟨hopcd, rfl, rfl, rfl⟩, rfl⟩
  · rw [decodeWord_lwz hopcd] at h
    cases h
    exact ⟨eq_encodeD.mpr ⟨hopcd, rfl, rfl, rfl⟩, rfl⟩
  · exact encode_of_decodeBranch hopcd (decodeWord_branch hopcd ▸ h)

end Sys2Proof
end

section
/-! PROOFS. The statements about the encoding (30_encoding.md). -/

namespace Sys2Proof.Machine

/-- Settles O1: each part of the decoder accepts the fields the encoder writes for it. -/
theorem decodeOfEncodeIsTheInstruction : Obligations.DecodeOfEncodeIsTheInstruction := by
  intro p i hwf
  exact decodeWord_encode hwf

/-- Settles O2: what a part of the decoder checks and reads makes up the whole word. -/
theorem decodedWordIsItsEncoding : Obligations.DecodedWordIsItsEncoding := by
  intro p w i h
  obtain ⟨hw, hwf⟩ := encode_of_decodeWord h
  exact ⟨hw.symm, hwf⟩

/-! ### Words of the opcode table -/

/-- Where the mask holds every bit of a field, a word that matches has the value's field. -/
theorem msbSlice_of_masked {w m v : Word} (h : w &&& m = v) {i n : Nat} {x : BitVec n}
    (hfield : msbSlice m i n = BitVec.allOnes n ∧ msbSlice v i n = x) : msbSlice w i n = x := by
  obtain ⟨hmask, hvalue⟩ := hfield
  rw [← hvalue, ← h, msbSlice_and, hmask, BitVec.and_allOnes]

theorem eq_encodeUnary_of_masked {w : Word} {xo : BitVec 10} (h : w &&& 0xFC1F07FF#32 = encodeUnary xo 0 0) :
    w = encodeUnary xo (regField w 6) (regField w 16) := by
  obtain ⟨hopcd, -, hreserved, -, hxo, hrc⟩ := eq_encodeUnary.mp (rfl : encodeUnary xo 0 0 = _)
  exact eq_encodeUnary.mpr ⟨msbSlice_of_masked h ⟨by decide, hopcd⟩, rfl, msbSlice_of_masked h ⟨by decide, hreserved⟩,
    rfl, msbSlice_of_masked h ⟨by decide, hxo⟩, msbSlice_of_masked h ⟨by decide, hrc⟩⟩

theorem eq_encode_fcmpu_of_masked {w : Word} (h : w &&& 0xFC6007FF#32 = 0xFC000000#32) :
    w = encode (.fcmpu (crField w 6) (regField w 11) (regField w 16)) :=
  eq_encode_fcmpu.mpr ⟨msbSlice_of_masked h (by decide), rfl, msbSlice_of_masked h (by decide), rfl, rfl,
    msbSlice_of_masked h (by decide), msbSlice_of_masked h (by decide)⟩

theorem eq_encode_fsub_of_masked {w : Word} (h : w &&& 0xFC0007FF#32 = 0xFC000028#32) :
    w = encode (.fsub (regField w 6) (regField w 11) (regField w 16)) :=
  eq_encode_fsub.mpr ⟨msbSlice_of_masked h (by decide), rfl, rfl, rfl, msbSlice_of_masked h (by decide),
    msbSlice_of_masked h (by decide), msbSlice_of_masked h (by decide)⟩

theorem eq_encode_add_of_masked {w : Word} (h : w &&& 0xFC0007FF#32 = 0x7C000214#32) :
    w = encode (.add (regField w 6) (regField w 11) (regField w 16)) :=
  eq_encode_add.mpr ⟨msbSlice_of_masked h (by decide), rfl, rfl, rfl, msbSlice_of_masked h (by decide),
    msbSlice_of_masked h (by decide), msbSlice_of_masked h (by decide)⟩

theorem eq_encodeD_of_masked {w : Word} {opcd : BitVec 6} (h : w &&& 0xFC000000#32 = encodeD opcd 0 0 0) :
    w = encodeD opcd (regField w 6) (regField w 11) (msbSlice w 16 16) := by
  obtain ⟨hopcd, -⟩ := eq_encodeD.mp (rfl : encodeD opcd 0 0 0 = _)
  exact eq_encodeD.mpr ⟨msbSlice_of_masked h ⟨by decide, hopcd⟩, rfl, rfl, rfl⟩

theorem eq_encodeB_of_masked {w : Word} {bo : BitVec 5} {bit : BitVec 2}
    (h : w &&& 0xFFE30003#32 = encodeB bo 0 bit 0) : w = encodeB bo (crField w 11) bit (msbSlice w 16 14) := by
  obtain ⟨hopcd, hbo, -, hbit, -, haa, hlk⟩ := eq_encodeB.mp (rfl : encodeB bo 0 bit 0 = _)
  exact eq_encodeB.mpr ⟨msbSlice_of_masked h ⟨by decide, hopcd⟩, msbSlice_of_masked h ⟨by decide, hbo⟩, rfl,
    msbSlice_of_masked h ⟨by decide, hbit⟩, rfl, msbSlice_of_masked h ⟨by decide, haa⟩,
    msbSlice_of_masked h ⟨by decide, hlk⟩⟩

/-- A word that matches a row encodes an instruction of that row, its operands read from the fields outside the mask. -/
theorem exists_encode_of_row {w : Word} {row : OpcodeRow} (hrow : row ∈ opcodeTable) (h : w &&& row.mask = row.value) :
    ∃ i, w = encode i := by
  simp only [opcodeTable, List.cons_append, List.nil_append, List.mem_cons, List.not_mem_nil, or_false] at hrow
  rcases hrow with rfl | rfl | rfl | rfl | rfl | rfl | rfl | rfl | rfl | rfl | rfl | rfl | rfl | rfl | rfl
  · exact ⟨.frsp _ _, eq_encodeUnary_of_masked (h.trans (by decide))⟩
  · exact ⟨.fctiw _ _, eq_encodeUnary_of_masked (h.trans (by decide))⟩
  · exact ⟨.fctiwz _ _, eq_encodeUnary_of_masked (h.trans (by decide))⟩
  · exact ⟨.fctid _ _, eq_encodeUnary_of_masked (h.trans (by decide))⟩
  · exact ⟨.fctidz _ _, eq_encodeUnary_of_masked (h.trans (by decide))⟩
  · exact ⟨.fcfid _ _, eq_encodeUnary_of_masked (h.trans (by decide))⟩
  · exact ⟨.fmr _ _, eq_encodeUnary_of_masked (h.trans (by decide))⟩
  · exact ⟨_, eq_encode_fcmpu_of_masked h⟩
  · exact ⟨_, eq_encode_fsub_of_masked h⟩
  · exact ⟨_, eq_encode_add_of_masked h⟩
  · exact ⟨.stfd _ _ _, eq_encodeD_of_masked (h.trans (by decide))⟩
  · exact ⟨.lwz _ _ _, eq_encodeD_of_masked (h.trans (by decide))⟩
  · exact ⟨.bl _ _, eq_encodeB_of_masked (h.trans (by decide))⟩
  · exact ⟨.bgt _ _, eq_encodeB_of_masked (h.trans (by decide))⟩
  · exact ⟨.bnl _ _, eq_encodeB_of_masked (h.trans (by decide))⟩

/-- Every instruction exists where the doubleword conversions do. -/
theorem wf_of_hasFp64Int {p : Params} (hp : p.hasFp64Int = true) (i : Instr) : i.wf p = true := by
  cases i <;> simp [Instr.wf, hp]

/-- Settles O3: the word encodes an instruction, and every instruction exists under the parameters of reset. -/
theorem tableWordsDecode : Obligations.TableWordsDecode := by
  intro w row hrow h
  obtain ⟨i, rfl⟩ := exists_encode_of_row hrow h
  exact ⟨i, decodeWord_encode (p := Config.resetParams) (wf_of_hasFp64Int rfl i)⟩

/-! ### Refused words -/

theorem refused_of_not_instr {has : Bool} {w : Word} (h : ∀ i, decodeWord has w ≠ .instr i) :
    ∃ why, decodeWord has w = .refused why := by
  cases hd : decodeWord has w with
  | instr i => exact absurd hd (h i)
  | refused why => exact ⟨why, rfl⟩

theorem step_of_decode_refused {s : State} {w : Word} {why : Reject} (hfetch : s.fetch = .next w)
    (h : decodeWord s.params.hasFp64Int w = .refused why) : step s = .refused (.badWord w why) := by
  simp [step, hfetch, State.decode, h]

/-- The word of every instruction matches its row of the table. -/
theorem tableRow_statement (i : Instr) : Laws.TableRow.Statement i := by
  cases i with
  | frsp a b => exact Laws.TableRow.frsp a b
  | fctiw a b => exact Laws.TableRow.fctiw a b
  | fctiwz a b => exact Laws.TableRow.fctiwz a b
  | fctid a b => exact Laws.TableRow.fctid a b
  | fctidz a b => exact Laws.TableRow.fctidz a b
  | fcfid a b => exact Laws.TableRow.fcfid a b
  | fmr a b => exact Laws.TableRow.fmr a b
  | fcmpu n a b => exact Laws.TableRow.fcmpu n a b
  | fsub a b c => exact Laws.TableRow.fsub a b c
  | add a b c => exact Laws.TableRow.add a b c
  | stfd a d b => exact Laws.TableRow.stfd a d b
  | lwz a d b => exact Laws.TableRow.lwz a d b
  | bl n bd => exact Laws.TableRow.bl n bd
  | bgt n bd => exact Laws.TableRow.bgt n bd
  | bnl n bd => exact Laws.TableRow.bnl n bd

theorem exists_row_of_decodeWord {p : Params} {w : Word} {i : Instr} (h : decodeWord p.hasFp64Int w = .instr i) :
    ∃ row ∈ opcodeTable, w &&& row.mask = row.value := by
  obtain ⟨rfl, -⟩ := encode_of_decodeWord h
  obtain ⟨row, hrow, hmatch⟩ := tableRow_statement i
  exact ⟨row, List.mem_of_getElem? hrow, hmatch⟩

/-- Settles O4: a word that decodes is an encoding, and every encoding matches a row. -/
theorem wordsOutsideTheTableAreRefused : Obligations.WordsOutsideTheTableAreRefused := by
  intro s w hout
  obtain ⟨why, hwhy⟩ := refused_of_not_instr fun i h => by
    obtain ⟨row, hrow, hmatch⟩ := exists_row_of_decodeWord h
    exact hout row hrow hmatch
  exact ⟨why, hwhy, fun hfetch => step_of_decode_refused hfetch hwhy⟩

/-! ### Refused forms -/

/-- The reserved field of each float form is 0 in a word that decodes. -/
theorem reserved_of_decodeFloat {has : Bool} {w : Word} {i : Instr} (h : decodeFloat has w = .instr i) :
    (msbSlice w 21 10 ∈ unaryXos → msbSlice w 11 5 = 0#5) ∧
      (msbSlice w 21 10 = 0#10 → msbSlice w 9 2 = 0#2) ∧ (msbSlice w 26 5 = 20#5 → msbSlice w 21 5 = 0#5) := by
  have hlow : msbSlice (msbSlice w 21 10) 5 5 = msbSlice w 26 5 := msbSlice_msbSlice w 21 10 5 5 (by decide) (by decide)
  obtain ⟨-, ⟨xo, make, fp64, hrow, -, hxo, hreserved, -⟩ | ⟨hxo, hreserved, -⟩ | ⟨hxo, hfrc, -⟩⟩ := decodeFloat_fields h
  · obtain ⟨hfcmpu, hfsub⟩ := unaryXos_apart _ hrow.mem_unaryXos
    rw [← hxo] at hfcmpu hfsub
    exact ⟨fun _ => hreserved, fun hz => absurd hz hfcmpu, fun hl => absurd (hlow.trans hl) hfsub⟩
  · rw [← hlow, hxo]
    exact ⟨fun hu => absurd hu (by decide), fun _ => hreserved, fun hl => absurd hl (by decide)⟩
  · refine ⟨fun hu => absurd (hlow.trans hxo) (unaryXos_apart _ hu).right, fun hz => ?_, fun _ => hfrc⟩
    rw [← hlow, hz] at hxo
    exact absurd hxo (by decide)

/-- Settles O5: each form differs from what its part of the decoder answers an instruction for. -/
theorem variantFormsAreRefused : Obligations.VariantFormsAreRefused := by
  intro has w hform
  refine refused_of_not_instr fun i h => ?_
  rcases hform with ⟨hopcd, hrc⟩ | ⟨hopcd, -, hbits⟩ | ⟨hopcd, hbits⟩ | ⟨hopcd, hxo, hne⟩ | ⟨hopcd, hxo, hne⟩ |
    ⟨hopcd, hxo, hne⟩ | ⟨hopcd, hset, hclear⟩ | ⟨hopcd, hbits⟩
  · rw [decodeWord_float hopcd] at h
    obtain ⟨hlast, -⟩ := decodeFloat_fields h
    simp [hrc] at hlast
  · rw [decodeWord_integer hopcd, decodeInteger_eq_instr] at h
    obtain ⟨-, hoe, hrc, -⟩ := h
    simp [hoe, hrc] at hbits
  · rw [decodeWord_branch hopcd, decodeBranch_eq_instr] at h
    obtain ⟨haa, hlk, -⟩ := h
    simp [haa, hlk] at hbits
  · rw [decodeWord_float hopcd] at h
    obtain ⟨hunary, -, -⟩ := reserved_of_decodeFloat h
    exact hne (hunary hxo)
  · rw [decodeWord_float hopcd] at h
    obtain ⟨-, hfcmpu, -⟩ := reserved_of_decodeFloat h
    exact hne (hfcmpu hxo)
  · rw [decodeWord_float hopcd] at h
    obtain ⟨-, -, hfsub⟩ := reserved_of_decodeFloat h
    exact hne (hfsub hxo)
  · rw [decodeWord_branch hopcd, decodeBranch_eq_instr] at h
    obtain ⟨-, -, ⟨hbo, -⟩ | ⟨hbo, -⟩ | ⟨hbo, -⟩⟩ := h
    · exact hset hbo
    · exact hset hbo
    · exact hclear hbo
  · rw [decodeWord_branch hopcd, decodeBranch_eq_instr] at h
    obtain ⟨-, -, ⟨-, hbit, -⟩ | ⟨-, hbit, -⟩ | ⟨-, hbit, -⟩⟩ := h <;> simp [hbit] at hbits

/-- Settles O6: the decoder, run on each of the twelve words. -/
theorem specWordsDecode : Obligations.SpecWordsDecode := by
  refine ⟨?_, ?_, ?_, ?_, ?_, ?_, ?_, ?_, ?_, ?_, ?_, ?_⟩ <;> decide

end Sys2Proof.Machine
end

section
/-! PROOFS. Frames, what each named write leaves unchanged; displacements and big-endian words as numbers
(30_encoding.md R74; 20_memory.md R51, R54). -/

namespace Sys2Proof.Machine

/-! ### Frames -/

theorem State.setPc_eq_advance {s t : State} (h : t.pc = s.pc) : t.setPc (s.pc + 4#64) = t.advance := by
  rw [State.advance, h]

theorem State.readX_advance (s : State) (j : GReg) : s.advance.readX j = s.readX j := rfl

theorem sequential_of_canAdvance {s : State} (h : s.canAdvance = true) (o : Out) : sequential s o = o :=
  if_pos h

theorem integerFrame_writeX (rt : GReg) (s : State) (v : Dword) : IntegerFrame rt s (s.writeX rt v) where
  gpr := fun j hj => State.readX_writeX_other s rt j v hj.symm
  fpr := fun _ => rfl
  cr := fun _ => rfl
  fpscr := rfl
  mem := fun _ => rfl
  launch := ⟨rfl, rfl, rfl⟩

/-- No frame speaks of `pc`. -/
theorem IntegerFrame.advance {rt : GReg} {s t : State} (h : IntegerFrame rt s t) : IntegerFrame rt s t.advance :=
  ⟨h.gpr, h.fpr, h.cr, h.fpscr, h.mem, h.launch⟩

theorem FloatFrame.advance {frt : FReg} {s t : State} (h : FloatFrame frt s t) : FloatFrame frt s t.advance :=
  ⟨h.fpr, h.gpr, h.cr, h.rn, h.ve, h.oe, h.ue, h.mem, h.launch⟩

theorem floatFrame_writeF (frt : FReg) (s : State) (v : Dword) : FloatFrame frt s (s.writeF frt v) where
  fpr := fun j hj => State.readF_writeF_other s frt j v hj.symm
  gpr := fun _ => rfl
  cr := fun _ => rfl
  rn := rfl
  ve := rfl
  oe := rfl
  ue := rfl
  mem := fun _ => rfl
  launch := ⟨rfl, rfl, rfl⟩

/-- A floating-point result whose FPSCR went through setters changes its target and status fields only. -/
theorem floatFrame_writeFp {may : List StatusField} (frt : FReg) {s : State} {r : FpResult}
    (h : s.fpscr.Updates may r.fpscr) : FloatFrame frt s (s.writeFp frt r) := by
  obtain ⟨hrn, hve, hoe, hue⟩ := h.control
  exact {
    fpr := fun j hj => State.readF_writeTarget_other s frt j r.frt hj.symm
    gpr := fun j => by simp [State.readX, State.writeFp]
    cr := fun j => by simp [State.readCr, State.writeFp]
    rn := hrn
    ve := hve
    oe := hoe
    ue := hue
    mem := fun a => by simp [State.writeFp]
    launch := by simp [SameLaunch, State.writeFp] }

theorem onlyPcMoves_setPc (s : State) (target : Dword) : OnlyPcMoves s (s.setPc target) where
  fpr := fun _ => rfl
  gpr := fun _ => rfl
  cr := fun _ => rfl
  fpscr := rfl
  mem := fun _ => rfl
  launch := ⟨rfl, rfl, rfl⟩

/-! ### Sums modulo 2^`XLEN` -/

theorem xlen_bits_le (x : Xlen) : x.bits ≤ 64 := by
  cases x <;> decide

/-- Adding a signed displacement, as numbers: the sum modulo 2^`XLEN` (30_encoding.md R74; 20_memory.md R54). -/
theorem xlen_trunc_add_signExtend {n : Nat} (x : Xlen) (v : Dword) (d : BitVec n) :
    ((x.trunc (v + d.signExtend 64)).toNat : Int) = (v.toNat + d.toInt) % 2 ^ x.bits := by
  have hdvd : (2 : Int) ^ x.bits ∣ 2 ^ 64 := pow_dvd_pow 2 (xlen_bits_le x)
  have hsum : v + d.signExtend 64 = BitVec.ofInt 64 (v.toNat + d.toInt) := by
    rw [BitVec.ofInt_add, BitVec.ofInt_natCast, BitVec.ofNat_toNat, BitVec.setWidth_eq]
    rfl
  rw [xlen_toNat_trunc, hsum, BitVec.toNat_ofInt, Int.natCast_emod, Int.toNat_of_nonneg (Int.emod_nonneg _ (by decide)),
    Nat.cast_pow, Nat.cast_pow, Nat.cast_two, Int.emod_emod_of_dvd _ hdvd]

/-- A branch displacement counts words (30_encoding.md R74). -/
theorem toInt_branchDisplacement (bd : BitVec 14) : (bd ++ 0#2).toInt = 4 * bd.toInt :=
  BitVec.toInt_append.trans (by simp)

theorem toNat_wordOfBytes (b0 b1 b2 b3 : Byte) :
    (wordOfBytes b0 b1 b2 b3).toNat =
      b0.toNat * 2 ^ 24 + b1.toNat * 2 ^ 16 + b2.toNat * 2 ^ 8 + b3.toNat := by
  have happend {n : Nat} (v : BitVec n) (b : Byte) : (v ++ b).toNat = v.toNat * 2 ^ 8 + b.toNat := by
    rw [BitVec.toNat_append, ← Nat.shiftLeft_add_eq_or_of_lt b.isLt, Nat.shiftLeft_eq]
  simp only [wordOfBytes, happend]
  omega

theorem State.admits_eq_false {s : State} {a n : Nat} (h : ∃ k < n, s.admitsByte (a + k) = false) :
    s.admits a n = false := by
  obtain ⟨k, hk, hbyte⟩ := h
  rw [← Bool.not_eq_true, State.admits_iff]
  intro hall
  simp [hall k hk] at hbyte

end Sys2Proof.Machine
end

section
/-! PROOFS. The statements about the integer, storage and branch instructions and `fmr` (40_conversion_sequences.md). -/

namespace Sys2Proof.Machine

/-- The one meaning of the three branches (40 R116). -/
theorem branchesOn_branch (taken : Bool) (bd : BitVec 14) (s : State) : BranchesOn taken bd s (branch s taken bd) := by
  constructor
  · intro htaken
    refine ⟨_, branch_eq_next.mpr (.inl ⟨htaken, rfl⟩), onlyPcMoves_setPc s _, ?_⟩
    rw [State.setPc_pc, State.branchTarget, xlen_trunc_add_signExtend, toInt_branchDisplacement]
  · intro htaken hadv
    exact ⟨_, branch_eq_next.mpr (.inr ⟨htaken, hadv, rfl⟩), onlyPcMoves_setPc s _, rfl⟩

/-- Settles O12: the target holds the truncated sum, and truncation is reduction modulo 2^`XLEN`. -/
theorem addSumsModuloXlen : Obligations.AddSumsModuloXlen := by
  intro rt ra rb s hadv
  refine ⟨_, sequential_of_canAdvance hadv _, ?_, (integerFrame_writeX rt s _).advance, rfl⟩
  have hdvd : 2 ^ s.params.xlen.bits ∣ 2 ^ 64 := pow_dvd_pow 2 (xlen_bits_le _)
  rw [State.readX_advance, State.readX_writeX_same, xlen_toNat_trunc, BitVec.toNat_add, Nat.mod_mod_of_dvd _ hdvd]

/-- Settles O13: the displacement is added as a signed number. -/
theorem effectiveAddressIsBasePlusDisplacement : Obligations.EffectiveAddressIsBasePlusDisplacement := by
  intro s ra d
  rw [State.effectiveAddress, xlen_trunc_add_signExtend, State.baseX]
  split_ifs <;> rfl

/-- Settles O14: an access checks alignment, then mapping; the store then leaves the bytes of the doubleword. -/
theorem stfdStoresTheDoubleword : Obligations.StfdStoresTheDoubleword := by
  intro frs d ra s hadv hmem ea
  refine ⟨fun h => ?_, fun haligned h => ?_, fun haligned h => ?_⟩
  · exact sequential_eq_fault.mpr ⟨hadv, access_of_misaligned h _⟩
  · exact sequential_eq_fault.mpr ⟨hadv, access_of_not_admits haligned (State.admits_eq_false h) _⟩
  · have hadmits := (State.admits_iff s ea 8).mpr h
    refine ⟨_, exec_stfd_eq_next.mpr ⟨hadv, haligned, hadmits, rfl⟩, ?_, ?_, fun _ => rfl, fun _ => rfl,
      fun _ => rfl, rfl, ⟨rfl, rfl, rfl⟩, rfl⟩
    · exact fun k hk => Memory.read_writeDword s.mem ea (s.readF frs) k hmem hk
    · exact fun a ha => Memory.read_writeDword_outside s.mem ea (s.readF frs) a hmem ha

/-- Settles O15: an access checks alignment, then mapping; the load then writes the big-endian word. -/
theorem lwzLoadsTheWord : Obligations.LwzLoadsTheWord := by
  intro rt d ra s hadv ea
  refine ⟨fun h => ?_, fun haligned h => ?_, fun haligned h => ?_⟩
  · exact sequential_eq_fault.mpr ⟨hadv, access_of_misaligned h _⟩
  · exact sequential_eq_fault.mpr ⟨hadv, access_of_not_admits haligned (State.admits_eq_false h) _⟩
  · have hexec := (exec_lwz_eq_next (rt := rt)).mpr ⟨hadv, haligned, (State.admits_iff s ea 4).mpr h, rfl⟩
    refine ⟨_, hexec, ?_, (integerFrame_writeX rt s _).advance, rfl⟩
    rw [readX_of_exec_lwz hexec, BitVec.toNat_setWidth_of_le (by decide), Memory.readWord, toNat_wordOfBytes]

/-- Settles O17: `bl` is the branch on LT. -/
theorem blBranchesIfLessThan : Obligations.BlBranchesIfLessThan :=
  fun n bd s => branchesOn_branch (s.readCr n).lt bd s

/-- Settles O18: `bgt` is the branch on GT. -/
theorem bgtBranchesIfGreaterThan : Obligations.BgtBranchesIfGreaterThan :=
  fun n bd s => branchesOn_branch (s.readCr n).gt bd s

/-- Settles O19: `bnl` is the branch on LT being 0. -/
theorem bnlBranchesIfNotLessThan : Obligations.BnlBranchesIfNotLessThan :=
  fun n bd s => branchesOn_branch (!(s.readCr n).lt) bd s

/-- Settles O20: the write is the whole of `fmr`. -/
theorem fmrCopiesAllBits : Obligations.FmrCopiesAllBits := by
  intro frt frb s hadv
  exact ⟨_, sequential_of_canAdvance hadv _, State.readF_writeF_same s frt _, rfl,
    (floatFrame_writeF frt s _).advance, rfl⟩

end Sys2Proof.Machine
end

section
/-! PROOFS. A double as a significand: when its 63 low bits are `q * 2 ^ 52 + k`, its magnitude is `k * 2 ^ q`. In this
form `round_double` is the rounding of a number to a whole count of units `2 ^ q` (40 R107). -/

namespace Sys2Proof.Machine

/-- `k` units of `2 ^ q` (times 2^-1074) are a double, or the next power of two: at most 53 bits, and fewer only under
the least exponent. -/
def IsSignificand (q k : Nat) : Prop := k ≤ 2 ^ 53 ∧ (q = 0 ∨ 2 ^ 52 ≤ k)

/-! ### The fields of a double as numbers -/

theorem dSign_eq (v : Dword) : dSign v = decide (2 ^ 63 ≤ v.toNat) :=
  BitVec.msb_eq_decide v

theorem dExp_eq (v : Dword) : dExp v = v.toNat % 2 ^ 63 / 2 ^ 52 := by
  simp only [dExp, msbSlice, BitVec.extractLsb'_toNat, Nat.shiftRight_eq_div_pow]
  omega

theorem toNat_dFrac (v : Dword) : (dFrac v).toNat = v.toNat % 2 ^ 63 % 2 ^ 52 := by
  simp only [dFrac, msbSlice, BitVec.extractLsb'_toNat, Nat.shiftRight_eq_div_pow]
  omega

theorem isFinite_iff (v : Dword) : isFinite v = true ↔ v.toNat % 2 ^ 63 < infMagnitude := by
  rw [isFinite, decide_eq_true_iff, dExp_eq, infMagnitude]
  omega

theorem dMagnitude_of_significand {v : Dword} {q k : Nat} (h : IsSignificand q k)
    (hv : v.toNat % 2 ^ 63 = q * 2 ^ 52 + k) : dMagnitude v = k * 2 ^ q := by
  obtain ⟨hle, hlead⟩ := h
  rw [dMagnitude, dExp_eq, toNat_dFrac, hv]
  by_cases hsmall : k < 2 ^ 52
  · obtain rfl : q = 0 := by omega
    rw [if_pos (by omega)]
    omega
  · rw [if_neg (by omega)]
    by_cases hcarry : k = 2 ^ 53
    · subst hcarry
      rw [show (q * 2 ^ 52 + 2 ^ 53) / 2 ^ 52 - 1 = q + 1 by omega, show (q * 2 ^ 52 + 2 ^ 53) % 2 ^ 52 = 0 by omega,
        Nat.pow_succ]
      omega
    · rw [show (q * 2 ^ 52 + k) / 2 ^ 52 - 1 = q by omega, show 2 ^ 52 + (q * 2 ^ 52 + k) % 2 ^ 52 = k by omega]

theorem exists_significand (v : Dword) :
    ∃ q k, IsSignificand q k ∧ k < 2 ^ 53 ∧ v.toNat % 2 ^ 63 = q * 2 ^ 52 + k := by
  refine ⟨v.toNat % 2 ^ 63 / 2 ^ 52 - 1, v.toNat % 2 ^ 63 - (v.toNat % 2 ^ 63 / 2 ^ 52 - 1) * 2 ^ 52, ?_⟩
  unfold IsSignificand
  omega

/-! ### A sign and 63 low bits -/

theorem toNat_packed (sign : Bool) (p : Nat) :
    (BitVec.ofBool sign ++ BitVec.ofNat 63 p).toNat = sign.toNat * 2 ^ 63 + p % 2 ^ 63 := by
  rw [BitVec.toNat_append, ← Nat.shiftLeft_add_eq_or_of_lt (BitVec.isLt _), Nat.shiftLeft_eq, BitVec.toNat_ofBool,
    BitVec.toNat_ofNat]

theorem dSign_packed (sign : Bool) (p : Nat) : dSign (BitVec.ofBool sign ++ BitVec.ofNat 63 p) = sign := by
  rw [dSign_eq, toNat_packed]
  cases sign with
  | false => exact decide_eq_false (by rw [Bool.toNat_false]; omega)
  | true => exact decide_eq_true (by rw [Bool.toNat_true]; omega)

theorem low_packed (sign : Bool) {p : Nat} (hp : p < 2 ^ 63) :
    (BitVec.ofBool sign ++ BitVec.ofNat 63 p).toNat % 2 ^ 63 = p := by
  rw [toNat_packed]
  omega

theorem packed_self (v : Dword) : BitVec.ofBool (dSign v) ++ BitVec.ofNat 63 (v.toNat % 2 ^ 63) = v := by
  apply BitVec.eq_of_toNat_eq
  have hlt := v.isLt
  rw [toNat_packed, dSign_eq]
  by_cases h : 2 ^ 63 ≤ v.toNat
  · rw [decide_eq_true h, Bool.toNat_true]
    omega
  · rw [decide_eq_false h, Bool.toNat_false]
    omega

/-! ### Values with a sign -/

theorem dValue_eq (v : Dword) : dValue v = applySign (dSign v) (dMagnitude v) := rfl

theorem natAbs_applySign (sign : Bool) (n : Nat) : (applySign sign n).natAbs = n := by
  cases sign <;> simp [applySign]

theorem natAbs_dValue (v : Dword) : (dValue v).natAbs = dMagnitude v :=
  natAbs_applySign _ _

theorem applySign_natAbs (d : Int) : applySign (decide (d < 0)) d.natAbs = d := by
  unfold applySign
  split_ifs with h
  · rw [decide_eq_true_iff] at h
    omega
  · rw [decide_eq_true_iff] at h
    omega

theorem applySign_mul (sign : Bool) (k unit : Nat) : applySign sign (k * unit) = applySign sign k * unit := by
  cases sign <;> simp [applySign]

theorem natAbs_applySign_mul (sign : Bool) (k unit : Nat) : (applySign sign k * unit).natAbs = k * unit := by
  rw [← applySign_mul, natAbs_applySign]

/-- A non-zero value has the sign of its double. -/
theorem decide_dValue_neg {v : Dword} (h : dValue v ≠ 0) : decide (dValue v < 0) = dSign v := by
  rw [dValue_eq] at h ⊢
  cases dSign v with
  | false => exact decide_eq_false (by simp [applySign])
  | true => exact decide_eq_true (by simp only [applySign, ↓reduceIte] at h ⊢; omega)

/-! ### Range and precision -/

theorem significand_le_iff (e : Nat) {q k : Nat} (h : IsSignificand q k) :
    (e + 2) * 2 ^ 52 ≤ q * 2 ^ 52 + k ↔ 2 ^ (53 + e) ≤ k * 2 ^ q := by
  obtain ⟨hle, hlead⟩ := h
  rw [pow_add]
  constructor
  · intro hp
    by_cases hk : k = 2 ^ 53
    · exact Nat.mul_le_mul hk.ge (Nat.pow_le_pow_right two_pos (by omega))
    · calc 2 ^ 53 * 2 ^ e = 2 ^ 52 * 2 ^ (e + 1) := by ring
        _ ≤ k * 2 ^ q := Nat.mul_le_mul (by omega) (Nat.pow_le_pow_right two_pos (by omega))
  · contrapose!
    intro hp
    by_cases hk : k = 2 ^ 53
    · rw [hk]
      exact Nat.mul_lt_mul_of_pos_left (Nat.pow_lt_pow_right one_lt_two (by omega)) (by decide)
    · exact Nat.mul_lt_mul_of_lt_of_le (by omega) (Nat.pow_le_pow_right two_pos (by omega)) (Nat.two_pow_pos e)

theorem infMagnitude_le_iff {q k : Nat} (h : IsSignificand q k) :
    infMagnitude ≤ q * 2 ^ 52 + k ↔ 2 ^ 2098 ≤ k * 2 ^ q := by
  rw [show infMagnitude = (2045 + 2) * 2 ^ 52 from rfl, show 2098 = 53 + 2045 from rfl]
  exact significand_le_iff 2045 h

theorem excessBits_of_significand {q k : Nat} (h : IsSignificand q k) (hk : k < 2 ^ 53) :
    excessBits (k * 2 ^ q) = q := by
  obtain ⟨-, hlead⟩ := h
  unfold excessBits
  by_cases hfull : 2 ^ 52 ≤ k
  · have hlog : (k * 2 ^ q).log2 = 52 + q := by
      rw [Nat.log2_eq_iff (by positivity), pow_add, show 52 + q + 1 = 53 + q by omega, pow_add]
      exact ⟨Nat.mul_le_mul_right _ hfull, Nat.mul_lt_mul_of_pos_right hk (Nat.two_pow_pos q)⟩
    omega
  · obtain rfl : q = 0 := by omega
    have hlog : (k * 2 ^ 0).log2 ≤ 52 := by
      rcases Nat.eq_zero_or_pos k with rfl | hpos
      · decide
      · exact Nat.le_of_lt_succ ((Nat.log2_lt (by omega)).mpr (by omega))
    omega

/-- The leading 53 bits of a magnitude. -/
theorem kept_bounds (m : Nat) :
    m / 2 ^ excessBits m < 2 ^ 53 ∧ (excessBits m = 0 ∨ 2 ^ 52 ≤ m / 2 ^ excessBits m) := by
  have hlt : m < 2 ^ (m.log2 + 1) := Nat.lt_log2_self
  constructor
  · rw [Nat.div_lt_iff_lt_mul (Nat.two_pow_pos _), ← pow_add]
    exact hlt.trans_le (Nat.pow_le_pow_right two_pos (by unfold excessBits; omega))
  · by_cases hq : excessBits m = 0
    · exact .inl hq
    · refine .inr ?_
      have hlog : 52 + excessBits m = m.log2 := by
        unfold excessBits at hq ⊢
        omega
      have hm : m ≠ 0 := by
        rintro rfl
        exact hq (by decide)
      rw [Nat.le_div_iff_mul_le (Nat.two_pow_pos _), ← pow_add, hlog]
      exact Nat.log2_self_le hm

/-! ### Rounding a magnitude -/

/-- The bit below the kept ones says whether at least half a unit remains, the bits under it whether there is more. -/
theorem guard_bits (m q : Nat) :
    (decide (q ≠ 0) && m.testBit (q - 1)) = decide (2 ^ q ≤ 2 * (m % 2 ^ q)) ∧
      (false || (decide (q ≠ 0) && decide (m % 2 ^ (q - 1) ≠ 0))) =
        decide (if 2 ^ q ≤ 2 * (m % 2 ^ q) then 2 ^ q ≠ 2 * (m % 2 ^ q) else m % 2 ^ q ≠ 0) := by
  cases q with
  | zero => simp [Nat.mod_one]
  | succ p =>
    have hrem : m % 2 ^ (p + 1) = m % 2 ^ p + 2 ^ p * (m / 2 ^ p % 2) := by rw [pow_succ, Nat.mod_mul]
    have hlow : m % 2 ^ p < 2 ^ p := Nat.mod_lt _ (Nat.two_pow_pos p)
    have hbit : m.testBit p = decide (m / 2 ^ p % 2 = 1) := Nat.testBit_eq_decide_div_mod_eq
    rw [Nat.add_sub_cancel, hrem, hbit, pow_succ]
    rcases Nat.mod_two_eq_zero_or_one (m / 2 ^ p) with h | h <;> rw [h]
    · have hless : ¬ 2 ^ p * 2 ≤ 2 * (m % 2 ^ p) := by omega
      simp [hless]
    · have hmore : 2 ^ p * 2 ≤ 2 * (m % 2 ^ p + 2 ^ p) := by omega
      have hpart : 2 ^ p * 2 = 2 * (m % 2 ^ p + 2 ^ p) ↔ m % 2 ^ p = 0 := by omega
      simp [hmore, hpart]

theorem roundMagnitude_spec (mode : RoundMode) (sign : Bool) (m : Nat) :
    ∃ k, roundMagnitude mode sign m = excessBits m * 2 ^ 52 + k ∧ IsSignificand (excessBits m) k ∧
      RoundsTo mode (applySign sign m) (2 ^ excessBits m) (applySign sign k) := by
  obtain ⟨hkept, hlead⟩ := kept_bounds m
  obtain ⟨hguard, hrest⟩ := guard_bits m (excessBits m)
  have hround := roundInc_roundsTo mode sign _ _ _ (m / 2 ^ excessBits m) _ _ (Nat.mod_lt m (Nat.two_pow_pos _))
    hguard hrest
  rw [Nat.div_add_mod'] at hround
  refine ⟨_, rfl, ⟨?_, ?_⟩, ?_⟩
  · split_ifs <;> omega
  · exact hlead.imp_right fun h => h.trans (Nat.le_add_right _ _)
  · rw [Nat.testBit_zero]
    exact hround

theorem roundsTo_exact (mode : RoundMode) (r : Int) {unit : Nat} (hu : 0 < unit) : RoundsTo mode (r * unit) unit r := by
  cases mode with
  | nearest | posInf | negInf => simp [RoundsTo, hu, hu.ne]
  | zero =>
    have hsign : 0 ≤ r * unit * r := by
      rw [mul_right_comm]
      exact mul_nonneg (mul_self_nonneg r) (Int.natCast_nonneg unit)
    simp [RoundsTo, hu, hsign]

/-- A magnitude that needs no more than 53 bits stays what it is. -/
theorem roundMagnitude_of_significand (mode : RoundMode) (sign : Bool) {q k : Nat} (h : IsSignificand q k)
    (hk : k < 2 ^ 53) : roundMagnitude mode sign (k * 2 ^ q) = q * 2 ^ 52 + k := by
  obtain ⟨j, hj, -, hround⟩ := roundMagnitude_spec mode sign (k * 2 ^ q)
  rw [excessBits_of_significand h hk] at hj hround
  rw [applySign_mul] at hround
  have hsame := hround.unique (Nat.two_pow_pos q) (roundsTo_exact mode (applySign sign k) (Nat.two_pow_pos q))
  have hkj := congrArg Int.natAbs hsame
  rw [natAbs_applySign, natAbs_applySign] at hkj
  rw [hj, hkj]

/-! ### Rounding a value -/

theorem roundDouble_of_ne_zero (mode : RoundMode) {d : Int} (hd : d ≠ 0) :
    roundDouble mode d = BitVec.ofBool (decide (d < 0)) ++
      BitVec.ofNat 63 (if infMagnitude ≤ roundMagnitude mode (decide (d < 0)) d.natAbs
        then overflowMagnitude mode (decide (d < 0)) else roundMagnitude mode (decide (d < 0)) d.natAbs) :=
  if_neg hd

section
variable {mode : RoundMode} {d r : Int}

/-- The rounded magnitude is the significand of the number `d` rounds to. -/
theorem roundMagnitude_of_roundsTo (hr : RoundsTo mode d (2 ^ excessBits d.natAbs) r) :
    ∃ k, roundMagnitude mode (decide (d < 0)) d.natAbs = excessBits d.natAbs * 2 ^ 52 + k ∧
      IsSignificand (excessBits d.natAbs) k ∧ r = applySign (decide (d < 0)) k := by
  obtain ⟨k, hk, hsig, hround⟩ := roundMagnitude_spec mode (decide (d < 0)) d.natAbs
  rw [applySign_natAbs] at hround
  exact ⟨k, hk, hsig, hr.unique (Nat.two_pow_pos _) hround⟩

/-- In range, the rounded value is delivered with the sign of `d`. -/
theorem roundDouble_of_roundsTo (hd : d ≠ 0) (hr : RoundsTo mode d (2 ^ excessBits d.natAbs) r)
    (hrange : (r * (2 ^ excessBits d.natAbs : Nat)).natAbs < 2 ^ 2098) :
    isFinite (roundDouble mode d) = true ∧ dValue (roundDouble mode d) = r * (2 ^ excessBits d.natAbs : Nat) ∧
      dSign (roundDouble mode d) = decide (d < 0) := by
  obtain ⟨k, hk, hsig, rfl⟩ := roundMagnitude_of_roundsTo hr
  rw [natAbs_applySign_mul, ← not_le, ← infMagnitude_le_iff hsig] at hrange
  have hlow : excessBits d.natAbs * 2 ^ 52 + k < 2 ^ 63 := by
    unfold infMagnitude at hrange
    omega
  rw [roundDouble_of_ne_zero mode hd, hk, if_neg hrange]
  refine ⟨?_, ?_, dSign_packed _ _⟩
  · rw [isFinite_iff, low_packed _ hlow]
    omega
  · rw [dValue_eq, dSign_packed, dMagnitude_of_significand hsig (low_packed _ hlow), applySign_mul]

/-- Out of range, an infinity or the largest double of the sign (IEEE 754) [log 26]. -/
theorem roundDouble_of_overflow (hr : RoundsTo mode d (2 ^ excessBits d.natAbs) r)
    (hrange : 2 ^ 2098 ≤ (r * (2 ^ excessBits d.natAbs : Nat)).natAbs) :
    roundDouble mode d = doubleOverflowTable mode (decide (d < 0)) := by
  have hd : d ≠ 0 := by
    rintro rfl
    have hzero : r = 0 := hr.unique (Nat.two_pow_pos _) (by simpa using roundsTo_exact mode 0 (Nat.two_pow_pos _))
    rw [hzero, zero_mul] at hrange
    exact absurd hrange (Nat.not_le.mpr (pow_pos two_pos _))
  obtain ⟨k, hk, hsig, rfl⟩ := roundMagnitude_of_roundsTo hr
  rw [natAbs_applySign_mul, ← infMagnitude_le_iff hsig] at hrange
  rw [roundDouble_of_ne_zero mode hd, hk, if_pos hrange]
  cases mode <;> cases decide (d < 0) <;> rfl

end

/-- A finite double is its own rounding. -/
theorem roundDouble_dValue (mode : RoundMode) {c : Dword} (hc : isFinite c = true) (h0 : dValue c ≠ 0) :
    roundDouble mode (dValue c) = c := by
  obtain ⟨q, k, hsig, hk, hlow⟩ := exists_significand c
  rw [isFinite_iff] at hc
  rw [roundDouble_of_ne_zero mode h0, natAbs_dValue, dMagnitude_of_significand hsig hlow,
    roundMagnitude_of_significand mode _ hsig hk, ← hlow, if_neg (by omega), decide_dValue_neg h0, packed_self]

theorem isDouble_dValue {c : Dword} (hc : isFinite c = true) : isDouble (dValue c) = true := by
  obtain ⟨q, k, hsig, hk, hlow⟩ := exists_significand c
  rw [isFinite_iff, hlow, ← not_le, infMagnitude_le_iff hsig, not_le] at hc
  rw [isDouble, natAbs_dValue, dMagnitude_of_significand hsig hlow, excessBits_of_significand hsig hk]
  simp only [Nat.mul_mod_left, hc, decide_true, Bool.and_self]

end Sys2Proof.Machine
end

section
/-! PROOFS. What `fcmpu` and `fsub` leave, and how they end (40_conversion_sequences.md R106, R107). -/

namespace Sys2Proof.Machine

/-! ### Classes of operands -/

theorem not_isNaN_of_isFinite {v : Dword} (h : isFinite v = true) : isNaN v = false := by
  have hexp : dExp v < 2047 := of_decide_eq_true h
  simp [isNaN, hexp.ne]

theorem not_isInf_of_isFinite {v : Dword} (h : isFinite v = true) : isInf v = false := by
  have hexp : dExp v < 2047 := of_decide_eq_true h
  simp [isInf, hexp.ne]

theorem not_isNaN_of_isInf {v : Dword} (h : isInf v = true) : isNaN v = false := by
  simp only [isInf, Bool.and_eq_true, decide_eq_true_eq] at h
  simp [isNaN, h]

theorem not_isSNaN_of_isFinite {v : Dword} (h : isFinite v = true) : isSNaN v = false := by
  simp [isSNaN, not_isNaN_of_isFinite h]

/-! ### The end of an instruction that can raise VXSNAN only -/

/-- Without an SNaN or with VE = 0 it advances, else it stops and names VXSNAN (60_exceptions.md R252). -/
theorem raiseOrAdvance_vxsnan (w : State) (snan : Bool) :
    ((w.fpscr.ve && snan) = false → raiseOrAdvance w (if snan then [.vxsnan] else []) = .next w.advance) ∧
      ((w.fpscr.ve && snan) = true →
        raiseOrAdvance w (if snan then [.vxsnan] else []) = .fault (.fpEnabledException .vxsnan w)) := by
  cases snan <;> cases h : w.fpscr.ve <;> simp [raiseOrAdvance, Fpscr.enables, h]

/-! ### fcmpu -/

theorem compareResult_of_isNaN {a b : Dword} (h : isNaN a = true ∨ isNaN b = true) :
    compareResult a b = ⟨false, false, false, true⟩ := by
  simp [compareResult, h]

theorem compareResult_of_not_isNaN {a b : Dword} (ha : isNaN a = false) (hb : isNaN b = false) :
    compareResult a b =
      ⟨decide (dValue a < dValue b), decide (dValue b < dValue a), decide (dValue a = dValue b), false⟩ := by
  rcases lt_trichotomy (dValue a) (dValue b) with h | h | h
  · simp [compareResult, ha, hb, h, h.not_gt, h.ne]
  · simp [compareResult, ha, hb, h]
  · simp [compareResult, ha, hb, h, h.not_gt, h.ne']

/-! ### fsub: what it leaves -/

/-- The state the writes of `fsub` leave. -/
def State.afterFsub (s : State) (frt fra frb : FReg) : State :=
  s.writeFp frt (fsubResult (s.readF fra) (s.readF frb) s.fpscr s.draws)

section
variable (s : State) (frt fra frb : FReg)

theorem exec_fsub {s : State} (hadv : s.canAdvance = true) :
    exec (.fsub frt fra frb) s = raiseOrAdvance (s.afterFsub frt fra frb)
      (fsubResult (s.readF fra) (s.readF frb) s.fpscr s.draws).raised :=
  sequential_of_canAdvance hadv _

theorem readF_afterFsub :
    (s.afterFsub frt fra frb).readF frt = fsubValue s.fpscr.mode (s.readF fra) (s.readF frb) :=
  State.readF_writeF_same s frt _

theorem pc_afterFsub : (s.afterFsub frt fra frb).pc = s.pc :=
  (Writes.fsub frt fra frb rfl).pc_eq

theorem floatFrame_afterFsub : FloatFrame frt s (s.afterFsub frt fra frb) :=
  floatFrame_writeFp frt (fsubResult_updates _ _ _)

end

theorem fsubValue_of_isFinite (mode : RoundMode) {a b : Dword} (ha : isFinite a = true) (hb : isFinite b = true) :
    fsubValue mode a b = roundDouble mode (dValue a - dValue b) := by
  simp [fsubValue, not_isNaN_of_isFinite, not_isInf_of_isFinite, ha, hb]

@[simp] theorem Fpscr.setXx_false (f : Fpscr) : f.setXx false = f := by simp [Fpscr.setXx]
@[simp] theorem Fpscr.setOx_false (f : Fpscr) : f.setOx false = f := by simp [Fpscr.setOx]
@[simp] theorem Fpscr.setUx_false (f : Fpscr) : f.setUx false = f := by simp [Fpscr.setUx]
@[simp] theorem Fpscr.setVxsnan_false (f : Fpscr) : f.setVxsnan false = f := by simp [Fpscr.setVxsnan]

theorem Fpscr.setXx_setOx_setUx_setFrFi_setFprf (f : Fpscr) (x o u fr fi : Bool) (c : Fprf) :
    ((((f.setXx x).setOx o).setUx u).setFrFi fr fi).setFprf c =
      { f with xx := f.xx || x, ox := f.ox || o, ux := f.ux || u, fr := fr, fi := fi, fprf := c } := rfl

/-- Finite operands set XX, OX and UX, each only under its condition on the exact difference. -/
theorem fsubResult_of_isFinite {a b : Dword} (ha : isFinite a = true) (hb : isFinite b = true) (f : Fpscr) (n : Nat) :
    let r := fsubResult a b f n
    let d := dValue a - dValue b
    r.fpscr = { f with
      xx := f.xx || (!isDouble d && Config.freeSetsXx n)
      ox := f.ox || (mayOverflow d && Config.freeSetsOx n)
      ux := f.ux || (belowNormal d && Config.freeSetsUx n)
      fr := r.fpscr.fr, fi := r.fpscr.fi, fprf := r.fpscr.fprf } ∧
    r.raised = (if mayOverflow d && Config.freeSetsOx n then [.ox] else []) ++
      (if belowNormal d && Config.freeSetsUx n then [.ux] else []) := by
  simp only [fsubResult, not_isSNaN_of_isFinite ha, not_isSNaN_of_isFinite hb, ha, hb, Bool.or_false, Bool.and_self,
    Bool.true_and, Bool.false_eq_true, ↓reduceIte, List.nil_append, Fpscr.setVxsnan_false]
  exact ⟨Fpscr.setXx_setOx_setUx_setFrFi_setFprf .., trivial⟩

/-- Another operand sets VXSNAN only, and that for an SNaN. -/
theorem fsubResult_of_not_isFinite {a b : Dword} (h : (isFinite a && isFinite b) = false) (f : Fpscr) (n : Nat) :
    let r := fsubResult a b f n
    r.fpscr = { f with
      vxsnan := f.vxsnan || (isSNaN a || isSNaN b)
      fr := r.fpscr.fr, fi := r.fpscr.fi, fprf := r.fpscr.fprf } ∧
    r.raised = if isSNaN a || isSNaN b then [.vxsnan] else [] := by
  simp only [fsubResult, h, Bool.false_and, Bool.false_eq_true, ↓reduceIte, List.append_nil, Fpscr.setXx_false,
    Fpscr.setOx_false, Fpscr.setUx_false]
  exact ⟨rfl, trivial⟩

/-! ### fsub of finite operands: the exact difference and the end -/

theorem mayOverflow_eq_false {d : Int} : mayOverflow d = false ↔ d.natAbs < 2 ^ 2098 - 2 ^ 2044 := by
  rw [mayOverflow, decide_eq_false_iff_not, not_le]

theorem belowNormal_eq_true {d : Int} : belowNormal d = true ↔ 0 < d.natAbs ∧ d.natAbs < 2 ^ 52 := by
  rw [belowNormal, Bool.and_eq_true, decide_eq_true_iff, decide_eq_true_iff]

/-- An instruction that raised bits either advances or stops for one of them. -/
theorem raiseOrAdvance_cases (w : State) (raised : List FpBit) :
    raiseOrAdvance w raised = .next w.advance ∨
      ∃ b ∈ raised, w.fpscr.enables b = true ∧ raiseOrAdvance w raised = .fault (.fpEnabledException b w) := by
  cases h : raiseOrAdvance w raised with
  | next t => exact .inl (by rw [(raiseOrAdvance_eq_next.mp h).2])
  | fault r =>
    obtain ⟨b, hb, hon, rfl⟩ := raiseOrAdvance_eq_fault h
    exact .inr ⟨b, hb, hon, rfl⟩
  | refused r => exact absurd h raiseOrAdvance_ne_refused

section
variable {s : State} {frt fra frb : FReg} (ha : isFinite (s.readF fra) = true) (hb : isFinite (s.readF frb) = true)
include ha hb

theorem fpscr_afterFsub_of_isFinite :
    let t := s.afterFsub frt fra frb
    let d := dValue (s.readF fra) - dValue (s.readF frb)
    t.fpscr = { s.fpscr with
      xx := s.fpscr.xx || (!isDouble d && Config.freeSetsXx s.draws)
      ox := s.fpscr.ox || (mayOverflow d && Config.freeSetsOx s.draws)
      ux := s.fpscr.ux || (belowNormal d && Config.freeSetsUx s.draws)
      fr := t.fpscr.fr, fi := t.fpscr.fi, fprf := t.fpscr.fprf } := by
  obtain ⟨hfpscr, -⟩ := fsubResult_of_isFinite ha hb s.fpscr s.draws
  exact hfpscr

/-- A raised bit was set, under its condition. -/
theorem raised_fsub_of_isFinite {b : FpBit}
    (hraised : b ∈ (fsubResult (s.readF fra) (s.readF frb) s.fpscr s.draws).raised) :
    let d := dValue (s.readF fra) - dValue (s.readF frb)
    (b = .ox ∧ (s.afterFsub frt fra frb).fpscr.ox = true ∧ mayOverflow d = true) ∨
      (b = .ux ∧ (s.afterFsub frt fra frb).fpscr.ux = true ∧ belowNormal d = true) := by
  obtain ⟨-, hbits⟩ := fsubResult_of_isFinite ha hb s.fpscr s.draws
  rw [fpscr_afterFsub_of_isFinite ha hb]
  rw [hbits, List.mem_append] at hraised
  rcases hraised with h | h
  · obtain ⟨hset, hox⟩ := List.mem_ite_nil_right.mp h
    simp_all
  · obtain ⟨hset, hux⟩ := List.mem_ite_nil_right.mp h
    simp_all

theorem fsubEnds_of_isFinite (hadv : s.canAdvance = true) :
    FsubEnds (exec (.fsub frt fra frb) s) s (s.afterFsub frt fra frb)
      (dValue (s.readF fra) - dValue (s.readF frb)) := by
  have hpc := pc_afterFsub s frt fra frb
  have hframe := floatFrame_afterFsub s frt fra frb
  refine ⟨hpc, ?_, ?_⟩ <;> rw [exec_fsub frt fra frb hadv, State.setPc_eq_advance hpc]
  · refine (raiseOrAdvance_cases _ _).imp_right ?_
    rintro ⟨b, hraised, hon, hstop⟩
    rcases raised_fsub_of_isFinite (frt := frt) ha hb hraised with ⟨rfl, hset, hcond⟩ | ⟨rfl, hset, hcond⟩
    · exact .inl ⟨hframe.oe ▸ hon, hset, of_decide_eq_true hcond, hstop⟩
    · obtain ⟨hpos, hsmall⟩ := belowNormal_eq_true.mp hcond
      exact .inr ⟨hframe.ue ▸ hon, hset, hpos, hsmall, hstop⟩
  · intro hox hux
    refine raiseOrAdvance_eq_next.mpr ⟨fun b hraised => ?_, rfl⟩
    rcases raised_fsub_of_isFinite (frt := frt) ha hb hraised with ⟨rfl, -, hcond⟩ | ⟨rfl, -, hcond⟩
    · exact hframe.oe.trans (hox.resolve_right (not_lt.mpr (of_decide_eq_true hcond)))
    · obtain ⟨hpos, hsmall⟩ := belowNormal_eq_true.mp hcond
      exact hframe.ue.trans (hux.resolve_right (by omega))

end

/-! ### fsub: exact differences -/

/-- 53 bits under a power of two stay half a unit below the next (R107: "half a unit in the last place"). -/
theorem significand_lt_halfway {k q e : Nat} (hk : k < 2 ^ 53) (hq : q ≤ e + 1) :
    k * 2 ^ q < 2 ^ (54 + e) - 2 ^ e := by
  have hle : k * 2 ^ q ≤ (2 ^ 53 - 1) * 2 ^ (e + 1) := Nat.mul_le_mul (by omega) (Nat.pow_le_pow_right two_pos hq)
  have hpos := Nat.two_pow_pos e
  rw [pow_succ] at hle
  rw [pow_add]
  omega

theorem not_mayOverflow_dValue {c : Dword} (hc : isFinite c = true) : mayOverflow (dValue c) = false := by
  obtain ⟨q, k, hsig, hk, hlow⟩ := exists_significand c
  rw [isFinite_iff, hlow, infMagnitude] at hc
  rw [mayOverflow_eq_false, natAbs_dValue, dMagnitude_of_significand hsig hlow, show 2098 = 54 + 2044 from rfl]
  have hq : q ≤ 2044 + 1 := by
    obtain ⟨-, hlead⟩ := hsig
    omega
  exact significand_lt_halfway hk hq

theorem isDouble_of_units {d r : Int} (h : r * (2 ^ excessBits d.natAbs : Nat) = d) (hd : d.natAbs < 2 ^ 2098) :
    isDouble d = true := by
  have hunits : d.natAbs = r.natAbs * 2 ^ excessBits d.natAbs := by
    rw [← Int.natAbs_natCast (2 ^ excessBits d.natAbs), ← Int.natAbs_mul, h]
  have hmod : d.natAbs % 2 ^ excessBits d.natAbs = 0 :=
    Nat.mod_eq_zero_of_dvd ⟨r.natAbs, by rw [mul_comm, ← hunits]⟩
  simp only [isDouble, hmod, hd, decide_true, Bool.and_self]

theorem roundDouble_zero : ∀ rn : BitVec 2,
    roundDouble (RoundMode.ofRn rn) 0 = if rn = 0b11#2 then 0x8000000000000000#64 else 0#64 := by
  decide

/-- Below the normal range a difference is a whole number of units, so rounding it changes nothing. -/
theorem eq_of_roundsTo_of_belowNormal {mode : RoundMode} {d r : Int} (h : belowNormal d = true)
    (hr : RoundsTo mode d (2 ^ excessBits d.natAbs) r) : r * (2 ^ excessBits d.natAbs : Nat) = d := by
  obtain ⟨-, hsmall⟩ := belowNormal_eq_true.mp h
  have hexcess : excessBits d.natAbs = 0 := by
    have hsig : IsSignificand 0 d.natAbs := ⟨by omega, .inl rfl⟩
    simpa using excessBits_of_significand hsig (by omega)
  rw [hexcess] at hr ⊢
  have hexact : RoundsTo mode d (2 ^ 0) d := by simpa using roundsTo_exact mode d (Nat.two_pow_pos 0)
  rw [hr.unique (Nat.two_pow_pos 0) hexact]
  simp

/-! ### fsub: the sticky bits -/

/-- A bit that is set under a condition and changes is 1, and the condition holds. -/
theorem or_and_ne : ∀ {bit cond draw : Bool}, (bit || (cond && draw)) ≠ bit →
    (bit || (cond && draw)) = true ∧ cond = true := by
  decide

section
variable {s : State} {frt fra frb : FReg} (ha : isFinite (s.readF fra) = true) (hb : isFinite (s.readF frb) = true)
include ha hb

theorem sticky_afterFsub_of_isFinite :
    let t := s.afterFsub frt fra frb
    let d := dValue (s.readF fra) - dValue (s.readF frb)
    t.fpscr = { s.fpscr with xx := t.fpscr.xx, ox := t.fpscr.ox, ux := t.fpscr.ux, fr := t.fpscr.fr,
                             fi := t.fpscr.fi, fprf := t.fpscr.fprf } ∧
      (t.fpscr.xx ≠ s.fpscr.xx → t.fpscr.xx = true ∧ isDouble d = false) ∧
      (t.fpscr.ox ≠ s.fpscr.ox → t.fpscr.ox = true ∧ mayOverflow d = true) ∧
      (t.fpscr.ux ≠ s.fpscr.ux → t.fpscr.ux = true ∧ belowNormal d = true) := by
  have hf := fpscr_afterFsub_of_isFinite (frt := frt) ha hb
  refine ⟨?_, ?_, ?_, ?_⟩ <;> rw [hf]
  · exact fun h => (or_and_ne h).imp_right fun hc => by simpa using hc
  · exact or_and_ne
  · exact or_and_ne

theorem readF_afterFsub_of_isFinite :
    (s.afterFsub frt fra frb).readF frt =
      roundDouble s.fpscr.mode (dValue (s.readF fra) - dValue (s.readF frb)) :=
  (readF_afterFsub s frt fra frb).trans (fsubValue_of_isFinite _ ha hb)

/-- A difference that meets none of the three conditions: `fsub` completes and changes no sticky bit. -/
theorem exec_fsub_of_exact (hadv : s.canAdvance = true)
    (hxx : isDouble (dValue (s.readF fra) - dValue (s.readF frb)) = true)
    (hox : mayOverflow (dValue (s.readF fra) - dValue (s.readF frb)) = false)
    (hux : belowNormal (dValue (s.readF fra) - dValue (s.readF frb)) = false) :
    ∃ t, exec (.fsub frt fra frb) s = .next t ∧
      t.readF frt = roundDouble s.fpscr.mode (dValue (s.readF fra) - dValue (s.readF frb)) ∧
      t.fpscr = { s.fpscr with fr := t.fpscr.fr, fi := t.fpscr.fi, fprf := t.fpscr.fprf } ∧
      FloatFrame frt s t ∧ t.pc = s.pc + 4#64 := by
  obtain ⟨hpc, -, hnext⟩ := fsubEnds_of_isFinite (frt := frt) ha hb hadv
  have hf := fpscr_afterFsub_of_isFinite (frt := frt) ha hb
  simp only [hxx, hox, hux, Bool.not_true, Bool.false_and, Bool.or_false] at hf
  have hsmall := not_le.mp (of_decide_eq_false hox)
  refine ⟨_, hnext (.inr hsmall) (.inr ?_), readF_afterFsub_of_isFinite ha hb, hf,
    (floatFrame_afterFsub s frt fra frb).advance, rfl⟩
  simp only [belowNormal, Bool.and_eq_false_iff, decide_eq_false_iff_not] at hux
  omega

end

/-! ### fsub: NaN and infinite operands -/

section
variable (mode : RoundMode) {a b : Dword}

theorem fsubValue_of_isNaN_left (b : Dword) (ha : isNaN a = true) : fsubValue mode a b = quieted a := by
  simp [fsubValue, ha]

theorem fsubValue_of_isNaN_right (ha : isNaN a = false) (hb : isNaN b = true) : fsubValue mode a b = quieted b := by
  simp [fsubValue, ha, hb]

theorem fsubValue_of_same_isInf (ha : isInf a = true) (hb : isInf b = true) (hsign : dSign a = dSign b) :
    fsubValue mode a b = 0x7FF8000000000000#64 := by
  simp [fsubValue, not_isNaN_of_isInf, ha, hb, hsign]

theorem fsubValue_of_isInf_left (ha : isInf a = true) (hb : isNaN b = false)
    (hsign : isInf b = true → dSign a ≠ dSign b) : fsubValue mode a b = a := by
  simpa [fsubValue, not_isNaN_of_isInf ha, ha, hb] using fun hinf hsame => absurd hsame (hsign hinf)

theorem fsubValue_of_isInf_right (ha : isFinite a = true) (hb : isInf b = true) :
    fsubValue mode a b = b ^^^ 0x8000000000000000#64 := by
  simp [fsubValue, not_isNaN_of_isFinite ha, not_isInf_of_isFinite ha, not_isNaN_of_isInf hb, hb]

end

theorem isInf_changeSign (v : Dword) : isInf (v ^^^ 0x8000000000000000#64) = isInf v := by
  have hexp : dExp (v ^^^ 0x8000000000000000#64) = dExp v := by
    simp [dExp, msbSlice, BitVec.extractLsb'_xor]
  have hfrac : dFrac (v ^^^ 0x8000000000000000#64) = dFrac v := by
    simp [dFrac, msbSlice, BitVec.extractLsb'_xor]
  rw [isInf, isInf, hexp, hfrac]

theorem dSign_changeSign (v : Dword) : dSign (v ^^^ 0x8000000000000000#64) = !dSign v := by
  simp [dSign]

end Sys2Proof.Machine
end

section
/-! PROOFS. The statements about `fcmpu` and `fsub` (40_conversion_sequences.md R106, R107). -/

namespace Sys2Proof.Machine

/-- Settles O22: the writes come first, then VXSNAN decides the end. -/
theorem fcmpuRecordsTheRelation : Obligations.FcmpuRecordsTheRelation := by
  intro bf fra frb s hadv a b snan
  obtain ⟨hnext, hstop⟩ := raiseOrAdvance_vxsnan (s.writeCompare bf a b) snan
  have hexec : exec (.fcmpu bf fra frb) s = raiseOrAdvance (s.writeCompare bf a b) (if snan then [.vxsnan] else []) :=
    sequential_of_canAdvance hadv _
  have hcr : (s.writeCompare bf a b).readCr bf = compareResult a b := State.readCr_writeCr_same s bf _
  refine ⟨s.writeCompare bf a b, fun j hj => State.readCr_writeCr_other s bf j _ hj.symm, fun h => ?_,
    fun ha hb h => ?_, fun ha hb h => ?_, fun ha hb h => ?_, rfl, fun _ => rfl, fun _ => rfl, fun _ => rfl,
    ⟨rfl, rfl, rfl⟩, fun h => hexec.trans (hnext h), fun h => ⟨hexec.trans (hstop h), rfl⟩⟩
  · rw [hcr, compareResult_of_isNaN h]
  · simp [hcr, compareResult_of_not_isNaN ha hb, h, h.not_gt, h.ne]
  · simp [hcr, compareResult_of_not_isNaN ha hb, h, h.not_gt, h.ne']
  · simp [hcr, compareResult_of_not_isNaN ha hb, h]

/-- Settles O23: the model's rounding and `r` round the same difference, so they are one number; an inexact one is not a
double, and each other bit has its condition. -/
theorem fsubRoundsTheExactDifference : Obligations.FsubRoundsTheExactDifference := by
  intro frt fra frb s r hadv ha hb d unit hd hr hrange
  have hread : (s.afterFsub frt fra frb).readF frt = roundDouble s.fpscr.mode d := readF_afterFsub_of_isFinite ha hb
  obtain ⟨hfinite, hvalue, hsign⟩ := roundDouble_of_roundsTo hd hr hrange
  obtain ⟨hfpscr, hxx, hox, hux⟩ := sticky_afterFsub_of_isFinite (frt := frt) ha hb
  rw [← hread] at hfinite hvalue hsign
  refine ⟨s.afterFsub frt fra frb, hfinite, hvalue, hsign, hfpscr, fun h => (hxx h).imp_right fun hinexact => ?_,
    fun h => (hox h).imp_right of_decide_eq_true, fun h => (hux h).imp_right fun hbelow => ?_,
    floatFrame_afterFsub s frt fra frb, fsubEnds_of_isFinite ha hb hadv⟩
  · refine decide_eq_true fun hexact => ?_
    have hdouble : isDouble d = true := isDouble_of_units hexact (hexact ▸ hrange)
    exact absurd (hdouble.symm.trans hinexact) (by decide)
  · obtain ⟨-, hsmall⟩ := belowNormal_eq_true.mp hbelow
    exact hsmall

/-- Settles O24: the rounded magnitude lies beyond the last finite pattern. UX stays, since a difference below the
normal range is exact and so in range. -/
theorem fsubOutOfRange : Obligations.FsubOutOfRange := by
  intro frt fra frb s r hadv ha hb d unit hr hrange
  have hread : (s.afterFsub frt fra frb).readF frt = roundDouble s.fpscr.mode d := readF_afterFsub_of_isFinite ha hb
  obtain ⟨hfpscr, hxx, hox, hux⟩ := sticky_afterFsub_of_isFinite (frt := frt) ha hb
  refine ⟨s.afterFsub frt fra frb, hread.trans (roundDouble_of_overflow hr hrange), ?_, fun h => (hxx h).left,
    fun h => (hox h).imp_right of_decide_eq_true, floatFrame_afterFsub s frt fra frb, fsubEnds_of_isFinite ha hb hadv⟩
  have hsame : (s.afterFsub frt fra frb).fpscr.ux = s.fpscr.ux := by
    by_contra hne
    obtain ⟨-, hbelow⟩ := hux hne
    obtain ⟨-, hsmall⟩ := belowNormal_eq_true.mp hbelow
    have hpow : 2 ^ 52 ≤ 2 ^ 2098 := pow_le_pow_right₀ one_le_two (by decide)
    have hexact : r * (unit : Int) = d := eq_of_roundsTo_of_belowNormal hbelow hr
    rw [hexact] at hrange
    exact absurd (hpow.trans hrange) (Nat.not_le.mpr hsmall)
  rw [hsame] at hfpscr
  exact hfpscr

/-- Settles O25: a finite double is its own rounding, and meets none of the conditions on the sticky bits. -/
theorem fsubExactDifferenceChangesNoStickyBit : Obligations.FsubExactDifferenceChangesNoStickyBit := by
  intro frt fra frb s c hadv ha hb hc hd hnormal
  have hux : belowNormal (dValue c) = false := by
    simp only [belowNormal, decide_eq_false (not_lt.mpr hnormal), Bool.and_false]
  obtain ⟨t, hexec, hread, hrest⟩ := exec_fsub_of_exact (frt := frt) ha hb hadv (hd ▸ isDouble_dValue hc)
    (hd ▸ not_mayOverflow_dValue hc) (hd ▸ hux)
  have hnonzero : dValue c ≠ 0 := by
    intro h
    simp [h] at hnormal
  rw [← hd, roundDouble_dValue _ hc hnonzero] at hread
  exact ⟨t, hexec, hread, hrest⟩

/-- Settles O26: the difference is the value of +0, which meets none of the conditions on the sticky bits. -/
theorem fsubExactZero : Obligations.FsubExactZero := by
  intro frt fra frb s hadv ha hb hequal
  have hd : dValue (s.readF fra) - dValue (s.readF frb) = dValue 0#64 := sub_eq_zero.mpr hequal
  have hzero : isFinite 0#64 = true := by decide
  obtain ⟨t, hexec, hread, hrest⟩ := exec_fsub_of_exact (frt := frt) ha hb hadv (hd ▸ isDouble_dValue hzero)
    (hd ▸ not_mayOverflow_dValue hzero) (hd ▸ rfl)
  rw [hd] at hread
  exact ⟨t, hexec, hread.trans (roundDouble_zero s.fpscr.rn), hrest⟩

/-- Settles O27: case by case as R107 orders them; XX, OX and UX need finite operands, so only VXSNAN can stop it. -/
theorem fsubSpecialOperands : Obligations.FsubSpecialOperands := by
  intro frt fra frb s hadv a b snan hspecial
  obtain ⟨hfpscr, hraised⟩ := fsubResult_of_not_isFinite hspecial s.fpscr s.draws
  obtain ⟨hnext, hstop⟩ := raiseOrAdvance_vxsnan (s.afterFsub frt fra frb) snan
  have hread : (s.afterFsub frt fra frb).readF frt = fsubValue s.fpscr.mode a b := readF_afterFsub s frt fra frb
  have hexec := exec_fsub frt fra frb hadv
  rw [hraised] at hexec
  have hpc := pc_afterFsub s frt fra frb
  have hframe := floatFrame_afterFsub s frt fra frb
  rw [hframe.ve] at hnext hstop
  refine ⟨s.afterFsub frt fra frb, fun ha => ?_, fun ha hb => ?_, fun ha hb hsign => ?_, fun ha hb hsign => ?_,
    fun ha hb => ?_, hfpscr, hframe, fun h => ?_, fun h => ⟨hexec.trans (hstop h), hpc⟩⟩
  · exact hread.trans (fsubValue_of_isNaN_left _ _ ha)
  · exact hread.trans (fsubValue_of_isNaN_right _ ha hb)
  · rw [hread, fsubValue_of_same_isInf _ ha hb hsign]
  · rw [hread, fsubValue_of_isInf_left _ ha hb hsign]
  · rw [hread, fsubValue_of_isInf_right _ ha hb, isInf_changeSign, dSign_changeSign]
    exact ⟨hb, rfl⟩
  · rw [State.setPc_eq_advance hpc]
    exact hexec.trans (hnext h)

end Sys2Proof.Machine
end

section
/-! PROOFS. What rounding as a relation rests on (10_state.md R27): how the number compares with each whole number of
half units. So scaling keeps it, and so does the sticky right shift (41_frsp.md R143, 42_fcti.md R182). -/

namespace Sys2Proof.Machine

/-- `x` in units of `u` stands to every whole number of half units as `y` in units of `v` does. -/
def SameHalfUnits (x : Int) (u : Nat) (y : Int) (v : Nat) : Prop :=
  ∀ h : Int, (2 * x < h * u ↔ 2 * y < h * v) ∧ (h * u < 2 * x ↔ h * v < 2 * y)

namespace SameHalfUnits

variable {x y z : Int} {u v w : Nat}

theorem symm (h : SameHalfUnits x u y v) : SameHalfUnits y v x u :=
  fun k => ⟨(h k).1.symm, (h k).2.symm⟩

theorem trans (h : SameHalfUnits x u y v) (h' : SameHalfUnits y v z w) : SameHalfUnits x u z w :=
  fun k => ⟨(h k).1.trans (h' k).1, (h k).2.trans (h' k).2⟩

theorem neg (h : SameHalfUnits x u y v) : SameHalfUnits (-x) u (-y) v := by
  intro k
  obtain ⟨hlt, hgt⟩ := h (-k)
  simp only [neg_mul] at hlt hgt
  omega

theorem applySign {m n : Nat} (h : SameHalfUnits m u n v) (sign : Bool) :
    SameHalfUnits (applySign sign m) u (applySign sign n) v := by
  cases sign with
  | false => exact h
  | true => exact h.neg

theorem scale (x : Int) (u : Nat) {c : Nat} (hc : 0 < c) : SameHalfUnits x u (x * c) (u * c : Nat) := by
  have hpos : (0 : Int) < c := by exact_mod_cast hc
  intro k
  push_cast
  rw [← mul_assoc, ← mul_assoc, mul_lt_mul_iff_of_pos_right hpos, mul_lt_mul_iff_of_pos_right hpos]
  exact ⟨Iff.rfl, Iff.rfl⟩

end SameHalfUnits

/-- The definition of each mode (10_state.md R27) compares `x` with 0 and with half units up to one unit on each side of
`r`. -/
theorem RoundsTo.of_sameHalfUnits {mode : RoundMode} {x y r : Int} {u v : Nat} (h : SameHalfUnits x u y v)
    (hr : RoundsTo mode x u r) : RoundsTo mode y v r := by
  have hhalf (d : Int) : (2 * x < 2 * (r * u) + d * u ↔ 2 * y < 2 * (r * v) + d * v) ∧
      (2 * (r * u) + d * u < 2 * x ↔ 2 * (r * v) + d * v < 2 * y) := by
    have hd := h (2 * r + d)
    simpa only [add_mul, mul_assoc] using hd
  have hbelow := hhalf (-1)
  have hat := hhalf 0
  have habove := hhalf 1
  have hprev := hhalf (-2)
  have hnext := hhalf 2
  cases mode with
  | nearest =>
    obtain ⟨hnear, htie⟩ := hr
    refine ⟨by omega, fun h => htie (by omega)⟩
  | posInf =>
    obtain ⟨hle, hlt⟩ := hr
    exact ⟨by omega, by omega⟩
  | negInf =>
    obtain ⟨hle, hlt⟩ := hr
    exact ⟨by omega, by omega⟩
  | zero =>
    obtain ⟨hle, hlt, hsign⟩ := hr
    have hzero := h 0
    rcases lt_trichotomy r 0 with hneg | rfl | hpos
    · have hx : x ≤ 0 := by by_contra hc; nlinarith
      have hy : y ≤ 0 := by omega
      have hv : r * v ≤ 0 := mul_nonpos_of_nonpos_of_nonneg hneg.le (Int.natCast_nonneg v)
      exact ⟨by omega, by omega, mul_nonneg_of_nonpos_of_nonpos hy hneg.le⟩
    · exact ⟨by simp, by omega, by simp⟩
    · have hx : 0 ≤ x := by by_contra hc; nlinarith
      have hy : 0 ≤ y := by omega
      have hv : 0 ≤ r * v := mul_nonneg hpos.le (Int.natCast_nonneg v)
      exact ⟨by omega, by omega, mul_nonneg hy hpos.le⟩

/-- The sticky shift by `n` places moves no number across a half unit, nor on or off one, when half a unit is even. -/
theorem sameHalfUnits_stickyShift {w u : Nat} (n : Nat) (v : BitVec w) (hu : 4 ∣ u) :
    SameHalfUnits (stickyShift n v).toNat u v.toNat (u * 2 ^ n : Nat) := by
  rw [toNat_stickyShift]
  split_ifs with hexact
  · have hv : v.toNat = v.toNat / 2 ^ n * 2 ^ n := (Nat.div_mul_cancel (Nat.dvd_of_mod_eq_zero hexact)).symm
    have hscale := SameHalfUnits.scale (v.toNat / 2 ^ n : Nat) u (Nat.two_pow_pos n)
    rw [← Nat.cast_mul, ← hv] at hscale
    exact hscale
  · obtain ⟨c, rfl⟩ := hu
    intro h
    have hpos : (0 : Int) < 2 ^ (n + 1) := by positivity
    have hne : h * c * 2 ^ (n + 1) ≠ v.toNat := by
      intro he
      have hdvd : (2 ^ n : Int) ∣ v.toNat := he ▸ Dvd.intro_left (h * c * 2) (by ring)
      exact hexact (Nat.mod_eq_zero_of_dvd (by exact_mod_cast hdvd))
    have hlt : (v.toNat : Int) < h * c * 2 ^ (n + 1) ↔ (v.toNat / 2 ^ (n + 1) : Int) < h * c :=
      (Int.ediv_lt_iff_lt_mul hpos).symm
    have hunit : h * ((4 * c : Nat) : Int) = 4 * (h * c) := by push_cast; ring
    have hshifted : h * ((4 * c * 2 ^ n : Nat) : Int) = 2 * (h * c * 2 ^ (n + 1)) := by push_cast; ring
    rw [hunit, hshifted]
    push_cast
    omega

/-- Every number rounds. -/
theorem exists_roundsTo (mode : RoundMode) (x : Int) {unit : Nat} (hu : 0 < unit) : ∃ r, RoundsTo mode x unit r := by
  have hround := roundInc_roundsTo mode (decide (x < 0)) _ false _ (x.natAbs / unit) _ unit
    (Nat.mod_lt x.natAbs hu) rfl (Bool.false_or _)
  rw [Nat.div_add_mod', applySign_natAbs] at hround
  exact ⟨_, hround⟩

/-- A rounded number is less than one unit away. -/
theorem RoundsTo.natAbs_mul_lt {mode : RoundMode} {x r : Int} {unit : Nat} (hu : 0 < unit)
    (hr : RoundsTo mode x unit r) : (r * unit).natAbs < x.natAbs + unit := by
  cases mode with
  | nearest | posInf | negInf =>
    obtain ⟨hle, hlt⟩ := hr
    omega
  | zero =>
    obtain ⟨hle, -, -⟩ := hr
    omega

end Sys2Proof.Machine
end

section
/-! PROOFS. Round Single as rounding to a whole count of units of bit 23 (41_frsp.md R152, R153(a)), and the unpacked
and packed doubles around it (41_frsp.md R142, R143). -/

namespace Sys2Proof.Machine

/-! ### Bit strings as numbers -/

theorem toNat_append_add {n m : Nat} (a : BitVec n) (b : BitVec m) : (a ++ b).toNat = a.toNat * 2 ^ m + b.toNat := by
  rw [BitVec.toNat_append, ← Nat.shiftLeft_add_eq_or_of_lt b.isLt, Nat.shiftLeft_eq]

theorem toNat_append_zeros {n : Nat} (a : BitVec n) (m : Nat) : (a ++ 0#m).toNat = a.toNat * 2 ^ m := by
  rw [toNat_append_add, BitVec.toNat_ofNat, Nat.zero_mod, Nat.add_zero]

theorem toNat_msbSlice {w : Nat} (v : BitVec w) (i n : Nat) :
    (msbSlice v i n).toNat = v.toNat / 2 ^ (w - i - n) % 2 ^ n := by
  rw [msbSlice, BitVec.extractLsb'_toNat, Nat.shiftRight_eq_div_pow]

theorem msbSlice_ne_zero {w : Nat} (v : BitVec w) (i n : Nat) :
    decide (msbSlice v i n ≠ 0) = decide (v.toNat / 2 ^ (w - i - n) % 2 ^ n ≠ 0) := by
  rw [← toNat_msbSlice]
  exact decide_eq_decide.mpr (not_congr BitVec.toNat_inj.symm)

theorem getMsbD_eq_decide {w : Nat} (v : BitVec w) {i : Nat} (hi : i < w) :
    v.getMsbD i = decide (v.toNat / 2 ^ (w - 1 - i) % 2 = 1) := by
  rw [BitVec.getMsbD, decide_eq_true hi, Bool.true_and, BitVec.getLsbD, Nat.testBit_eq_decide_div_mod_eq]

theorem msbSlice_self {n : Nat} (a : BitVec n) : msbSlice a 0 n = a := by
  apply BitVec.eq_of_toNat_eq
  rw [toNat_msbSlice, Nat.sub_zero, Nat.sub_self, pow_zero, Nat.div_one, Nat.mod_eq_of_lt a.isLt]

theorem msbSlice_append_of_le {n m i k : Nat} (a : BitVec n) (b : BitVec m) (h : i + k ≤ n) :
    msbSlice (a ++ b) i k = msbSlice a i k := by
  apply BitVec.eq_of_toNat_eq
  rw [toNat_msbSlice, toNat_msbSlice, toNat_append_add, show n + m - i - k = m + (n - i - k) by omega, pow_add,
    ← Nat.div_div_eq_div_mul, mul_comm, Nat.mul_add_div (Nat.two_pow_pos m), Nat.div_eq_of_lt b.isLt, Nat.add_zero]

theorem msbSlice_append_right {n m : Nat} (a : BitVec n) (b : BitVec m) : msbSlice (a ++ b) n m = b := by
  apply BitVec.eq_of_toNat_eq
  rw [toNat_msbSlice, toNat_append_add, Nat.add_sub_cancel_left, Nat.sub_self, pow_zero, Nat.div_one, mul_comm,
    Nat.mul_add_mod, Nat.mod_eq_of_lt b.isLt]

theorem getMsbD_eq_true_iff {w i : Nat} (v : BitVec w) (hi : i < w) : v.getMsbD i = true ↔ msbSlice v i 1 = 1#1 := by
  rw [getMsbD_eq_decide v hi, decide_eq_true_iff, ← BitVec.toNat_inj, toNat_msbSlice, Nat.sub_right_comm]
  rfl

/-! ### Unpacking and packing -/

/-- An operand is its unpacked significand under its exponent, in the form of `IsSignificand`. -/
theorem exists_unpacked (v : Dword) :
    ∃ q : Nat, (unpack v).exp = q - 1022 ∧ IsSignificand q (unpack v).frac.toNat ∧
      v.toNat % 2 ^ 63 = q * 2 ^ 52 + (unpack v).frac.toNat := by
  have hfrac : (unpack v).frac.toNat = (if dExp v = 0 then 0 else 2 ^ 52) + (dFrac v).toNat := by
    have hdef : (unpack v).frac = (if dExp v = 0 then 0b0#1 else 0b1#1) ++ dFrac v := rfl
    rw [hdef, toNat_append_add]
    by_cases h0 : dExp v = 0
    · rw [if_pos h0, if_pos h0]
      rfl
    · rw [if_neg h0, if_neg h0]
      rfl
  have hexp : (unpack v).exp = if dExp v = 0 then -1022 else (dExp v : Int) - 1023 := rfl
  refine ⟨dExp v - 1, ?_, ?_, ?_⟩
  · rw [hexp]
    by_cases h0 : dExp v = 0
    · rw [if_pos h0, h0]
      rfl
    · rw [if_neg h0]
      omega
  · rw [hfrac, IsSignificand, toNat_dFrac, dExp_eq]
    split_ifs <;> omega
  · rw [hfrac, toNat_dFrac, dExp_eq]
    split_ifs <;> omega

/-- A significand with its leading bit 1 and its low 29 bits cleared is packed without loss. -/
theorem packSingle_eq {sign : Bool} {exp : Int} {frac : BitVec 53} {q : Nat} (hlead : 2 ^ 52 ≤ frac.toNat)
    (hcleared : frac.toNat % 2 ^ 29 = 0) (hq : exp + 1022 = q) :
    packSingle sign exp frac = BitVec.ofBool sign ++ BitVec.ofNat 63 (q * 2 ^ 52 + frac.toNat) := by
  obtain rfl : exp = q - 1022 := by omega
  have hexp : (BitVec.ofInt 11 (q - 1022 + 1023)).toNat = (q + 1) % 2 ^ 11 := by
    rw [BitVec.toNat_ofInt]
    omega
  apply BitVec.eq_of_toNat_eq
  rw [packSingle, toNat_packed, toNat_append_zeros, toNat_append_add, toNat_append_add, hexp, toNat_msbSlice,
    BitVec.toNat_ofBool]
  omega

theorem dValue_packed (sign : Bool) {q k : Nat} (h : IsSignificand q k) (hlow : q * 2 ^ 52 + k < 2 ^ 63) :
    dValue (BitVec.ofBool sign ++ BitVec.ofNat 63 (q * 2 ^ 52 + k)) = applySign sign (k * 2 ^ q) := by
  rw [dValue_eq, dSign_packed, dMagnitude_of_significand h (low_packed sign hlow)]

theorem isFinite_packed (sign : Bool) {p : Nat} (hp : p < infMagnitude) :
    isFinite (BitVec.ofBool sign ++ BitVec.ofNat 63 p) = true := by
  have hlow : p < 2 ^ 63 := hp.trans (by decide)
  rw [isFinite_iff, low_packed sign hlow]
  exact hp

/-! ### Round Single -/

/-- FI says that a bit below bit 23 was 1. -/
theorem roundSingle_inexact (mode : RoundMode) (sign : Bool) (exp : Int) (v : BitVec 56) :
    (roundSingle mode sign exp v).inexact = decide (v.toNat % 2 ^ 32 ≠ 0) := by
  simp only [roundSingle]
  rw [getMsbD_eq_decide v (by decide), getMsbD_eq_decide v (by decide), msbSlice_ne_zero, Bool.eq_iff_iff]
  simp only [Bool.or_eq_true, decide_eq_true_eq]
  omega

/-- The kept bits with the increment FR are the whole bit string rounded to units of bit 23. -/
theorem roundSingle_roundsTo (mode : RoundMode) (sign : Bool) (exp : Int) (v : BitVec 56) :
    RoundsTo mode (applySign sign v.toNat) (2 ^ 32)
      (applySign sign (v.toNat / 2 ^ 32 + if (roundSingle mode sign exp v).inc then 1 else 0)) := by
  obtain ⟨hguard, hrest⟩ := guard_bits v.toNat 32
  have hlsb : v.getMsbD 23 = decide (v.toNat / 2 ^ 32 % 2 = 1) := getMsbD_eq_decide v (by decide)
  have hbit : v.getMsbD 24 = decide (2 ^ 32 ≤ 2 * (v.toNat % 2 ^ 32)) := by
    rw [getMsbD_eq_decide v (by decide)]
    exact decide_eq_decide.mpr (by omega)
  have hlow : (v.getMsbD 25 || decide (msbSlice v 26 30 ≠ 0)) = decide (v.toNat % 2 ^ 31 ≠ 0) := by
    rw [getMsbD_eq_decide v (by decide), msbSlice_ne_zero, Bool.eq_iff_iff]
    simp only [Bool.or_eq_true, decide_eq_true_eq]
    omega
  have hround := roundInc_roundsTo mode sign _ (v.getMsbD 25) (decide (msbSlice v 26 30 ≠ 0)) (v.toNat / 2 ^ 32) _ _
    (Nat.mod_lt v.toNat (Nat.two_pow_pos 32)) hbit (hlow.trans hrest)
  rw [Nat.div_add_mod', ← hlsb] at hround
  exact hround

/-- `r` holds `k` units of bit 23 under the exponent `exp`; a carry out of bit 0 stands under the next exponent. -/
def Rounded.Holds (r : Rounded) (exp : Int) (k : Nat) : Prop :=
  (k < 2 ^ 24 ∧ r.exp = exp ∧ r.frac.toNat = k * 2 ^ 29) ∨
    (k = 2 ^ 24 ∧ r.exp = exp + 1 ∧ r.frac.toNat = 2 ^ 52)

theorem roundSingle_holds (mode : RoundMode) (sign : Bool) (exp : Int) (v : BitVec 56) :
    (roundSingle mode sign exp v).Holds exp
      (v.toNat / 2 ^ 32 + if (roundSingle mode sign exp v).inc then 1 else 0) := by
  have hkept : (msbSlice v 0 24).toNat = v.toNat / 2 ^ 32 := by
    rw [toNat_msbSlice]
    omega
  have hlt : v.toNat / 2 ^ 32 < 2 ^ 24 := hkept ▸ (msbSlice v 0 24).isLt
  have hall : msbSlice v 0 24 = BitVec.allOnes 24 ↔ v.toNat / 2 ^ 32 = 2 ^ 24 - 1 := by
    rw [← BitVec.toNat_inj, hkept, BitVec.toNat_allOnes]
  have hinc : incBits 24 (roundSingle mode sign exp v).inc =
      BitVec.ofNat 24 (if (roundSingle mode sign exp v).inc then 1 else 0) := by
    unfold incBits
    split_ifs <;> rfl
  by_cases hcarry : ((roundSingle mode sign exp v).inc && decide (msbSlice v 0 24 = BitVec.allOnes 24)) = true
  · have hexp : (roundSingle mode sign exp v).exp = exp + 1 := if_pos hcarry
    have hfrac : (roundSingle mode sign exp v).frac =
        0b1#1 ++ msbSlice (msbSlice v 0 24 + incBits 24 (roundSingle mode sign exp v).inc) 0 23 ++ 0#29 :=
      congrArg (· ++ 0#29) (if_pos hcarry)
    obtain ⟨hup, hones⟩ := Bool.and_eq_true_iff.mp hcarry
    rw [decide_eq_true_iff] at hones
    rw [hup, hones] at hfrac
    rw [hall] at hones
    exact .inr ⟨by rw [if_pos hup, hones]; rfl, hexp, by rw [hfrac]; rfl⟩
  · have hexp : (roundSingle mode sign exp v).exp = exp := if_neg hcarry
    have hfrac : (roundSingle mode sign exp v).frac =
        msbSlice v 0 24 + incBits 24 (roundSingle mode sign exp v).inc ++ 0#29 :=
      congrArg (· ++ 0#29) (if_neg hcarry)
    rw [Bool.and_eq_true, decide_eq_true_iff, hall] at hcarry
    have hfits : v.toNat / 2 ^ 32 + (if (roundSingle mode sign exp v).inc then 1 else 0) < 2 ^ 24 := by
      split_ifs with hup
      · have : v.toNat / 2 ^ 32 ≠ 2 ^ 24 - 1 := fun h => hcarry ⟨hup, h⟩
        omega
      · exact hlt
    refine .inl ⟨hfits, hexp, ?_⟩
    rw [hfrac, toNat_append_zeros, hinc, BitVec.toNat_add, hkept, BitVec.toNat_ofNat, Nat.add_mod_mod,
      Nat.mod_eq_of_lt hfits]

namespace Rounded.Holds

variable {r : Rounded} {exp : Int} {k : Nat}

theorem le (h : r.Holds exp k) : k ≤ 2 ^ 24 := by
  rcases h with ⟨hk, -, -⟩ | ⟨hk, -, -⟩ <;> omega

theorem isSignificand (h : r.Holds exp k) (hlead : 2 ^ 23 ≤ k) (q : Nat) : IsSignificand q (k * 2 ^ 29) :=
  ⟨by have := h.le; omega, .inr (by omega)⟩

/-- The rounded significand, packed under its exponent moved to `e`: the same pattern with and without a carry. -/
theorem packSingle (h : r.Holds exp k) (hlead : 2 ^ 23 ≤ k) (sign : Bool) {e : Int} {q : Nat}
    (hq : e + exp + 1022 = r.exp + q) :
    packSingle sign e r.frac = BitVec.ofBool sign ++ BitVec.ofNat 63 (q * 2 ^ 52 + k * 2 ^ 29) := by
  rcases h with ⟨hk, hexp, hfrac⟩ | ⟨hk, hexp, hfrac⟩
  · rw [packSingle_eq (q := q) (by omega) (by omega) (by omega), hfrac]
  · rw [packSingle_eq (q := q + 1) (by omega) (by omega) (by push_cast; omega), hfrac,
      show (q + 1) * 2 ^ 52 + 2 ^ 52 = q * 2 ^ 52 + k * 2 ^ 29 by omega]

end Rounded.Holds

/-- A number of whole units rounds to itself. -/
theorem eq_mul_of_roundsTo_of_mod {mode : RoundMode} {sign : Bool} {n k : Nat}
    (hr : RoundsTo mode (applySign sign n) (2 ^ 32) (applySign sign k)) (h : n % 2 ^ 32 = 0) : n = k * 2 ^ 32 := by
  have hunits : n = n / 2 ^ 32 * 2 ^ 32 := by omega
  have hself := roundsTo_exact mode (applySign sign (n / 2 ^ 32)) (Nat.two_pow_pos 32)
  rw [← applySign_mul, ← hunits] at hself
  have hsame := congrArg Int.natAbs (hr.unique (Nat.two_pow_pos 32) hself)
  rw [natAbs_applySign, natAbs_applySign] at hsame
  rw [hsame]
  exact hunits

/-- The significand with G, R and X below it, after `n` passes, stands to units of bit 23 as the significand does to
units `n` places higher. -/
theorem sameHalfUnits_shifted (frac : BitVec 53) (n : Nat) :
    SameHalfUnits (stickyShift n (frac ++ 0#3)).toNat (2 ^ 32) frac.toNat (2 ^ 29 * 2 ^ n) := by
  refine (sameHalfUnits_stickyShift n _ (by decide)).trans ?_
  have hscale := SameHalfUnits.scale (frac.toNat : Int) (2 ^ 29 * 2 ^ n) (show 0 < 2 ^ 3 by decide)
  rw [toNat_append_zeros, Nat.cast_mul, show 2 ^ 32 * 2 ^ n = 2 ^ 29 * 2 ^ n * 2 ^ 3 by ring]
  exact hscale.symm

/-- Round Single on a significand shifted right by `n` places: `k` units of the bit that bit 23 stood for before the
shift, and FR and FI as comparisons of numbers. -/
theorem roundSingle_of_roundsTo {mode : RoundMode} {sign : Bool} (exp : Int) {frac : BitVec 53} {n : Nat} {r : Int}
    (hr : RoundsTo mode (applySign sign frac.toNat) (2 ^ 29 * 2 ^ n) r) :
    ∃ k : Nat, r = applySign sign k ∧ frac.toNat / (2 ^ 29 * 2 ^ n) ≤ k ∧
      (roundSingle mode sign exp (stickyShift n (frac ++ 0#3))).Holds exp k ∧
      (roundSingle mode sign exp (stickyShift n (frac ++ 0#3))).inc = decide (frac.toNat < k * (2 ^ 29 * 2 ^ n)) ∧
      (roundSingle mode sign exp (stickyShift n (frac ++ 0#3))).inexact =
        decide (k * (2 ^ 29 * 2 ^ n) ≠ frac.toNat) := by
  have hshift := sameHalfUnits_shifted frac n
  generalize hv : stickyShift n (frac ++ 0#3) = v at hshift
  have hround := roundSingle_roundsTo mode sign exp v
  have hholds := roundSingle_holds mode sign exp v
  generalize hk : v.toNat / 2 ^ 32 + (if (roundSingle mode sign exp v).inc then 1 else 0) = k at hround hholds
  obtain ⟨hlt, hgt⟩ := hshift (2 * k)
  obtain ⟨hfloor, -⟩ := hshift (2 * (frac.toNat / (2 ^ 29 * 2 ^ n) : Nat))
  have hdiv := Nat.div_mul_le_self frac.toNat (2 ^ 29 * 2 ^ n)
  simp only [mul_assoc (2 : Int), ← Nat.cast_mul] at hlt hgt hfloor
  refine ⟨k, hr.unique (by positivity) (hround.of_sameHalfUnits (hshift.applySign sign)), ?_, hholds, ?_, ?_⟩
  · split_ifs at hk <;> omega
  · rw [Bool.eq_iff_iff, decide_eq_true_iff]
    split_ifs at hk with hinc
    · exact iff_of_true hinc (by omega)
    · exact iff_of_false hinc (by omega)
  · rw [roundSingle_inexact]
    refine decide_eq_decide.mpr (not_congr ⟨fun h => ?_, fun h => ?_⟩)
    · have hsame := eq_mul_of_roundsTo_of_mod hround h
      omega
    · omega

end Sys2Proof.Machine
end

section
/-! PROOFS. The rounded operand as a number: how many units Round Single keeps of it, on the normalized significand and
on the one shifted right to exponent -126 (41_frsp.md R143, R144, R151, R152). -/

namespace Sys2Proof.Machine

theorem applySign_inj {sign : Bool} {m n : Nat} : applySign sign m = applySign sign n ↔ m = n := by
  cases sign <;> simp [applySign]

/-- The unit of the last of the 24 leading bits of `x`; 1 when `x` has fewer. -/
def singleUnit (x : Int) : Nat := 2 ^ (x.natAbs.log2 - 23)

theorem singleUnit_pos (x : Int) : 0 < singleUnit x := Nat.two_pow_pos _

/-- From 2^-126 up (2^948) the unit of 24 bits is at least 2^-149 (2^925). -/
theorem singleUnit_of_normal {x : Int} (h : 2 ^ 948 ≤ x.natAbs) : 2 ^ max 925 (x.natAbs.log2 - 23) = singleUnit x := by
  have hlog : 948 ≤ x.natAbs.log2 := by
    by_contra hshort
    have hpow : 2 ^ (x.natAbs.log2 + 1) ≤ 2 ^ 948 := pow_le_pow_right₀ one_le_two (by omega)
    have hlt : x.natAbs < 2 ^ (x.natAbs.log2 + 1) := Nat.lt_log2_self
    omega
  rw [singleUnit, max_eq_right (by omega)]

/-- Below 2^-126 it is less. -/
theorem singleUnit_of_tiny {x : Int} (h : x.natAbs < 2 ^ 948) : 2 ^ max 925 (x.natAbs.log2 - 23) = 2 ^ 925 := by
  have hlog : x.natAbs.log2 ≤ 948 := by
    by_cases h0 : x.natAbs = 0
    · simp [h0]
    · exact ((Nat.log2_lt h0).mpr h).le
  rw [max_eq_left (by omega)]

/-- FR and FI as R27 has them, from the same comparisons on scaled numbers. -/
theorem grew_inexact_of_scaled {sign : Bool} {m unit frac kept c d : Nat} {r : Int} (hc : 0 < c) (hd : 0 < d)
    (hm : m * c = frac * d) (hr : r * unit * c = applySign sign (kept * d)) :
    grew (applySign sign m) unit r = decide (frac < kept) ∧
      inexact (applySign sign m) unit r = decide (kept ≠ frac) := by
  constructor
  · have habs : (r * unit).natAbs * c = kept * d := by
      rw [← natAbs_applySign sign (kept * d), ← hr, Int.natAbs_mul (r * unit), Int.natAbs_natCast]
    rw [grew, natAbs_applySign]
    refine decide_eq_decide.mpr ?_
    rw [← Nat.mul_lt_mul_right hc, hm, habs, Nat.mul_lt_mul_right hd]
  · have hc' : (c : Int) ≠ 0 := by exact_mod_cast hc.ne'
    refine decide_eq_decide.mpr (not_congr ?_)
    rw [← mul_left_inj' hc', hr, ← applySign_mul, hm, applySign_inj, Nat.mul_left_inj hd.ne']

/-- The leading bit of a number whose normalized significand has 53 bits. -/
theorem log2_of_normalized {frac m j q : Nat} (hlead : 2 ^ 52 ≤ frac) (hlt : frac < 2 ^ 53)
    (hm : m * 2 ^ j = frac * 2 ^ q) : m.log2 + j = 52 + q := by
  have hpos : frac * 2 ^ q ≠ 0 := Nat.mul_ne_zero (by omega) (Nat.two_pow_pos q).ne'
  have hm0 : m ≠ 0 := by
    rintro rfl
    exact hpos (by rw [← hm, Nat.zero_mul])
  have hscaled : (m * 2 ^ j).log2 = m.log2 + j := by
    rw [Nat.log2_eq_iff (hm ▸ hpos), pow_add, pow_succ, pow_add, mul_right_comm]
    exact ⟨Nat.mul_le_mul_right _ (Nat.log2_self_le hm0),
      Nat.mul_lt_mul_of_pos_right (pow_succ 2 m.log2 ▸ Nat.lt_log2_self) (Nat.two_pow_pos j)⟩
  rw [← hscaled, hm, Nat.log2_eq_iff hpos, pow_succ, pow_add, mul_right_comm]
  exact ⟨Nat.mul_le_mul_right _ hlead, Nat.mul_lt_mul_of_pos_right (by omega) (Nat.two_pow_pos q)⟩

section
variable {mode : RoundMode} {sign : Bool} {frac : BitVec 53} {m q : Nat} {r : Int}

/-- Rounding an operand to 24 bits is rounding its normalized significand to units of bit 23. An operand of fewer than
24 bits is exact, in units of 1 and in those of bit 23. -/
theorem exists_roundsTo_normalized {j : Nat} (hlead : 2 ^ 52 ≤ frac.toNat) (hm : m * 2 ^ j = frac.toNat * 2 ^ q)
    (hr : RoundsTo mode (applySign sign m) (singleUnit (applySign sign m)) r) :
    ∃ k : Int, RoundsTo mode (applySign sign frac.toNat) (2 ^ 29 * 2 ^ 0) k ∧
      r * singleUnit (applySign sign m) * (2 ^ j : Nat) = k * (2 ^ 29 * 2 ^ q : Nat) := by
  have hlog := log2_of_normalized hlead frac.isLt hm
  unfold singleUnit at hr ⊢
  rw [natAbs_applySign] at hr ⊢
  by_cases hwide : 23 ≤ m.log2
  · have hunit : 2 ^ (m.log2 - 23) * 2 ^ j = 2 ^ 29 * 2 ^ q := by
      rw [← pow_add, ← pow_add]
      congr 1
      omega
    have hsig := (SameHalfUnits.scale (frac.toNat : Int) (2 ^ 29 * 2 ^ 0) (Nat.two_pow_pos q)).symm
    have hop := SameHalfUnits.scale (m : Int) (2 ^ (m.log2 - 23)) (Nat.two_pow_pos j)
    rw [← Nat.cast_mul, pow_zero, mul_one, ← hm, ← hunit] at hsig
    rw [← Nat.cast_mul] at hop
    refine ⟨r, hr.of_sameHalfUnits ((hop.trans hsig).applySign sign), ?_⟩
    rw [mul_assoc, ← Nat.cast_mul, hunit]
  · have hone : m.log2 - 23 = 0 := by omega
    obtain ⟨i, hi⟩ : ∃ i, j = i + (29 + q) := ⟨j - (29 + q), by omega⟩
    have hfrac : frac.toNat = m * 2 ^ i * 2 ^ 29 := by
      refine Nat.eq_of_mul_eq_mul_right (Nat.two_pow_pos q) ?_
      rw [← hm, hi, pow_add, pow_add]
      ring
    rw [hone] at hr ⊢
    have hexact : r = applySign sign m := by
      refine hr.unique (Nat.two_pow_pos 0) ?_
      simpa using roundsTo_exact mode (applySign sign m) (Nat.two_pow_pos 0)
    refine ⟨applySign sign (m * 2 ^ i), ?_, ?_⟩
    · rw [hfrac, applySign_mul]
      exact roundsTo_exact mode _ (by decide)
    · rw [hexact, hi, applySign_mul, pow_add, pow_add]
      push_cast
      ring

/-- Round Single on a normalized significand rounds the operand to 24 bits. -/
theorem roundSingle_of_normalized {j : Nat} (exp : Int) (hlead : 2 ^ 52 ≤ frac.toNat)
    (hm : m * 2 ^ j = frac.toNat * 2 ^ q) (hr : RoundsTo mode (applySign sign m) (singleUnit (applySign sign m)) r) :
    ∃ k, 2 ^ 23 ≤ k ∧ (roundSingle mode sign exp (frac ++ 0#3)).Holds exp k ∧
      r * singleUnit (applySign sign m) * (2 ^ j : Nat) = applySign sign (k * 2 ^ 29 * 2 ^ q) ∧
      (roundSingle mode sign exp (frac ++ 0#3)).inc = grew (applySign sign m) (singleUnit (applySign sign m)) r ∧
      (roundSingle mode sign exp (frac ++ 0#3)).inexact =
        inexact (applySign sign m) (singleUnit (applySign sign m)) r := by
  obtain ⟨_, hround, hvalue⟩ := exists_roundsTo_normalized hlead hm hr
  obtain ⟨k, rfl, hfloor, hholds, hinc, hinexact⟩ := roundSingle_of_roundsTo exp hround
  rw [← applySign_mul, ← mul_assoc] at hvalue
  obtain ⟨hgrew, hinex⟩ := grew_inexact_of_scaled (Nat.two_pow_pos j) (Nat.two_pow_pos q) hm hvalue
  rw [pow_zero, mul_one] at hfloor hinc hinexact
  exact ⟨k, by omega, hholds, hvalue, hinc.trans hgrew.symm, hinexact.trans hinex.symm⟩

/-- Round Single on the significand shifted right to exponent -126 rounds the operand to a multiple of 2^-149, 2^925
units. -/
theorem roundSingle_of_denormalized (exp : Int) (hq : q ≤ 896)
    (hr : RoundsTo mode (applySign sign (frac.toNat * 2 ^ q)) (2 ^ 925) r) :
    ∃ k, r = applySign sign k ∧
      (roundSingle mode sign exp (stickyShift (896 - q) (frac ++ 0#3))).Holds exp k ∧
      (roundSingle mode sign exp (stickyShift (896 - q) (frac ++ 0#3))).inc =
        grew (applySign sign (frac.toNat * 2 ^ q)) (2 ^ 925) r ∧
      (roundSingle mode sign exp (stickyShift (896 - q) (frac ++ 0#3))).inexact =
        inexact (applySign sign (frac.toNat * 2 ^ q)) (2 ^ 925) r := by
  have hunit : 2 ^ 29 * 2 ^ (896 - q) * 2 ^ q = 2 ^ 925 := by
    rw [← pow_add, ← pow_add]
    congr 1
    omega
  have hscale := (SameHalfUnits.scale (frac.toNat : Int) (2 ^ 29 * 2 ^ (896 - q)) (Nat.two_pow_pos q)).symm
  rw [← Nat.cast_mul, hunit] at hscale
  obtain ⟨k, rfl, -, hholds, hinc, hinexact⟩ :=
    roundSingle_of_roundsTo exp (hr.of_sameHalfUnits (hscale.applySign sign))
  obtain ⟨hgrew, hinex⟩ := grew_inexact_of_scaled (sign := sign) (m := frac.toNat * 2 ^ q) (frac := frac.toNat)
    (kept := k * (2 ^ 29 * 2 ^ (896 - q))) (r := applySign sign k) (unit := 2 ^ 925) one_pos (Nat.two_pow_pos q)
    (mul_one _) (by rw [mul_assoc k, hunit, applySign_mul, Nat.cast_one, mul_one])
  exact ⟨k, rfl, hholds, hinc.trans hgrew.symm, hinexact.trans hinex.symm⟩

end

theorem decide_discarded_eq_inexact (mode : RoundMode) (sign : Bool) (exp : Int) (frac : BitVec 53) :
    decide (msbSlice frac 24 29 ≠ 0) = (roundSingle mode sign exp (frac ++ 0#3)).inexact := by
  rw [roundSingle_inexact, toNat_append_zeros, msbSlice_ne_zero]
  exact decide_eq_decide.mpr (by omega)

theorem discarded_ne_zero_iff_inexact (mode : RoundMode) (sign : Bool) (exp : Int) (v : BitVec 56) :
    msbSlice v 24 32 ≠ 0 ↔ (roundSingle mode sign exp v).inexact = true := by
  rw [← decide_eq_true_iff (p := msbSlice v 24 32 ≠ 0), msbSlice_ne_zero,
    roundSingle_inexact, decide_eq_true_iff, decide_eq_true_iff]
  omega

end Sys2Proof.Machine
end

section
/-! PROOFS. The dispatch of `frsp` by the magnitude of its operand (41_frsp.md R141), how it ends (R155), and what each
block of a finite operand leaves (R143 to R146, R151). Magnitudes are in units of 2^-1074: 2^948 is 2^-126 and 2^1202 is
2^128. -/

namespace Sys2Proof.Machine

/-! ### Dispatch -/

theorem le_dExp_iff (e : Nat) (v : Dword) : e + 2 ≤ dExp v ↔ 2 ^ (53 + e) ≤ dMagnitude v := by
  obtain ⟨q, k, hsig, -, hlow⟩ := exists_significand v
  rw [dMagnitude_of_significand hsig hlow, ← significand_le_iff e hsig, ← hlow, dExp_eq,
    Nat.le_div_iff_mul_le (Nat.two_pow_pos 52)]

theorem normal_le_dExp_iff (v : Dword) : 897 ≤ dExp v ↔ 2 ^ 948 ≤ dMagnitude v := by
  rw [show 948 = 53 + 895 from rfl]
  exact le_dExp_iff 895 v

theorem overflow_le_dExp_iff (v : Dword) : 1151 ≤ dExp v ↔ 2 ^ 1202 ≤ dMagnitude v := by
  rw [show 1202 = 53 + 1149 from rfl]
  exact le_dExp_iff 1149 v

theorem toNat_msbSlice_low (v : Dword) : (msbSlice v 1 63).toNat = v.toNat % 2 ^ 63 := by
  rw [toNat_msbSlice]
  omega

theorem msbSlice_low_eq_zero_iff (v : Dword) : msbSlice v 1 63 = 0#63 ↔ dMagnitude v = 0 := by
  obtain ⟨q, k, hsig, -, hlow⟩ := exists_significand v
  rw [← BitVec.toNat_inj, toNat_msbSlice_low, hlow, dMagnitude_of_significand hsig hlow, BitVec.toNat_ofNat,
    Nat.zero_mod, Nat.mul_eq_zero, or_iff_left (Nat.two_pow_pos q).ne']
  obtain ⟨-, hlead⟩ := hsig
  omega

theorem exponent_lt_of_tiny {v : Dword} {q k : Nat} (hsig : IsSignificand q k)
    (hpat : v.toNat % 2 ^ 63 = q * 2 ^ 52 + k) (h : dMagnitude v < 2 ^ 948) : q < 896 := by
  rw [← not_le, ← normal_le_dExp_iff, dExp_eq, hpat] at h
  obtain ⟨-, hlead⟩ := hsig
  omega

theorem lead_of_normal {v : Dword} {q k : Nat} (hsig : IsSignificand q k)
    (hpat : v.toNat % 2 ^ 63 = q * 2 ^ 52 + k) (h : 2 ^ 948 ≤ dMagnitude v) : 2 ^ 52 ≤ k := by
  rw [← normal_le_dExp_iff, dExp_eq, hpat] at h
  obtain ⟨hle, hlead⟩ := hsig
  omega

section
variable (p : Params) {b : Dword} (f : Fpscr) (n : Nat)

theorem frspResult_of_tiny (h0 : dMagnitude b ≠ 0) (h : dMagnitude b < 2 ^ 948) :
    frspResult p b f n = if f.ue then frspEnabledUnderflow b f else frspDisabledUnderflow b f := by
  rw [← not_le, ← normal_le_dExp_iff, not_le] at h
  exact if_pos ⟨h, fun hz => h0 ((msbSlice_low_eq_zero_iff b).mp hz)⟩

theorem frspResult_of_normal (hlow : 2 ^ 948 ≤ dMagnitude b) (hhigh : dMagnitude b < 2 ^ 1202) :
    frspResult p b f n = frspNormal p b f n := by
  rw [← normal_le_dExp_iff] at hlow
  rw [← not_le, ← overflow_le_dExp_iff, not_le] at hhigh
  rw [frspResult, if_neg (by omega), if_neg (by omega), if_pos (by omega)]

theorem frspResult_of_large (hb : isFinite b = true) (h : 2 ^ 1202 ≤ dMagnitude b) :
    frspResult p b f n = if f.oe then frspEnabledOverflow b f else frspDisabledOverflow p b f n := by
  have hexp : dExp b < 2047 := of_decide_eq_true hb
  rw [← overflow_le_dExp_iff] at h
  rw [frspResult, if_neg (by omega), if_pos (by omega)]

theorem frspResult_of_zero (h : msbSlice b 1 63 = 0#63) : frspResult p b f n = frspZero b f := by
  have hexp : ¬ 897 ≤ dExp b := by
    rw [normal_le_dExp_iff, (msbSlice_low_eq_zero_iff b).mp h, not_le]
    exact pow_pos two_pos _
  rw [frspResult, if_neg (fun hc => hc.2 h), if_neg (by omega), if_neg (by omega)]
  exact if_pos h

theorem frspResult_of_special (hexp : dExp b = 2047) :
    frspResult p b f n =
      if dFrac b = 0 then frspInfinity b f n else if dQuiet b then frspQNaN b f else frspSNaN b f := by
  have hne : msbSlice b 1 63 ≠ 0#63 := by
    rw [Ne, msbSlice_low_eq_zero_iff]
    exact ((pow_pos two_pos _).trans_le ((normal_le_dExp_iff b).mp (by omega))).ne'
  rw [frspResult, if_neg (by omega), if_neg (by omega), if_neg (by omega)]
  exact if_neg hne

theorem frspResult_of_isInf (h : isInf b = true) : frspResult p b f n = frspInfinity b f n := by
  obtain ⟨hexp, hfrac⟩ := Bool.and_eq_true_iff.mp h
  rw [frspResult_of_special p f n (of_decide_eq_true hexp), if_pos (of_decide_eq_true hfrac)]

theorem frspResult_of_isNaN (h : isNaN b = true) :
    frspResult p b f n = if dQuiet b then frspQNaN b f else frspSNaN b f := by
  obtain ⟨hexp, hfrac⟩ := Bool.and_eq_true_iff.mp h
  rw [frspResult_of_special p f n (of_decide_eq_true hexp), if_neg (of_decide_eq_true hfrac)]

end

/-! ### Ends -/

theorem Fpscr.Updates.enables {may : List StatusField} {f g : Fpscr} (h : f.Updates may g) (bit : FpBit) :
    g.enables bit = f.enables bit := by
  obtain ⟨-, hve, hoe, hue⟩ := h.control
  cases bit <;> assumption

section
variable {frt frb : FReg} {s : State} {r : FpResult} (hadv : s.canAdvance = true)
  (hr : frspResult s.params (s.readF frb) s.fpscr s.draws = r)
include hadv hr

theorem exec_frsp_completes {v : Dword} (hv : r.frt = some v) (hoff : ∀ bit ∈ r.raised, s.fpscr.enables bit = false) :
    ∃ t, exec (.frsp frt frb) s = .next t ∧ t.readF frt = v ∧ t.fpscr = r.fpscr ∧ FloatFrame frt s t ∧
      t.pc = s.pc + 4#64 := by
  subst hr
  have hupdates := frspResult_updates (s.readF frb) s.draws (f := s.fpscr) s.params
  refine ⟨_, completeFp_eq_next.mpr ⟨hadv, fun bit hbit => (hupdates.enables bit).trans (hoff bit hbit), rfl⟩, ?_, rfl,
    (floatFrame_writeFp frt hupdates).advance, ?_⟩
  · rw [hv]
    exact State.readF_writeF_same s frt v
  · rw [hv]
    rfl

theorem exec_frsp_stops {bit : FpBit} (hraised : r.raised = [bit]) (hon : s.fpscr.enables bit = true) :
    ∃ t, exec (.frsp frt frb) s = .fault (.fpEnabledException bit t) ∧ t.readF frt = r.frt.getD (s.readF frt) ∧
      t.fpscr = r.fpscr ∧ FloatFrame frt s t ∧ t.pc = s.pc := by
  have hupdates : s.fpscr.Updates frspStatus r.fpscr := hr ▸ frspResult_updates (s.readF frb) s.draws s.params
  have hend : raiseOrAdvance (s.writeFp frt r) [bit] = .fault (.fpEnabledException bit (s.writeFp frt r)) := by
    have hset : (s.writeFp frt r).fpscr.enables bit = true := (hupdates.enables bit).trans hon
    rw [raiseOrAdvance, List.find?_cons_of_pos hset]
  have hexec : exec (.frsp frt frb) s = raiseOrAdvance (s.writeFp frt r) r.raised := by
    subst hr
    exact sequential_of_canAdvance hadv _
  refine ⟨_, hexec.trans (hraised ▸ hend), ?_, rfl, floatFrame_writeFp frt hupdates, ?_⟩
  · cases hfrt : r.frt with
    | none => simp [State.writeFp, hfrt, State.readF]
    | some v =>
      rw [State.writeFp, hfrt]
      exact State.readF_writeF_same s frt v
  · simp [State.writeFp]

end

/-! ### The FPSCR -/

theorem Fpscr.setOx_true (f : Fpscr) : f.setOx true = { f with ox := true } := by simp [Fpscr.setOx]
theorem Fpscr.setUx_true (f : Fpscr) : f.setUx true = { f with ux := true } := by simp [Fpscr.setUx]
theorem Fpscr.setXx_true (f : Fpscr) : f.setXx true = { f with xx := true } := by simp [Fpscr.setXx]
theorem Fpscr.setVxsnan_true (f : Fpscr) : f.setVxsnan true = { f with vxsnan := true } := by simp [Fpscr.setVxsnan]

/-- XX, FR and FI as rounding `x` to `r` units leaves them (41_frsp.md R152, R154). -/
def Fpscr.afterRounding (f : Fpscr) (x : Int) (unit : Nat) (r : Int) : Fpscr :=
  (f.setXx (inexact x unit r)).setFrFi (grew x unit r) (inexact x unit r)

/-! ### A normalized significand: Normal Operand and the enabled blocks -/

/-- The rounded exponent is above 127 exactly from 2^128 up (41_frsp.md R151). -/
theorem Rounded.Holds.exp_gt_iff {r : Rounded} {q k : Nat} (h : r.Holds ((q : Int) - 1022) k) (hlead : 2 ^ 23 ≤ k) :
    127 < r.exp ↔ 2 ^ 1202 ≤ k * 2 ^ 29 * 2 ^ q := by
  rw [show 1202 = 53 + 1149 from rfl, ← significand_le_iff 1149 (h.isSignificand hlead q)]
  rcases h with ⟨hk, hexp, -⟩ | ⟨hk, hexp, -⟩ <;> omega

/-- Unpack and Round Single on an operand from 2^-126 up: `k` units of bit 23 of its significand, the operand rounded to
24 bits. -/
theorem frspRound_of_roundsTo {b : Dword} {f : Fpscr} {r : Int} (hlow : 2 ^ 948 ≤ dMagnitude b)
    (hr : RoundsTo f.mode (dValue b) (singleUnit (dValue b)) r) :
    ∃ q k : Nat, 2 ^ 52 ≤ (unpack b).frac.toNat ∧ b.toNat % 2 ^ 63 = q * 2 ^ 52 + (unpack b).frac.toNat ∧
      2 ^ 23 ≤ k ∧ (frspRound b f).1.Holds ((q : Int) - 1022) k ∧
      r * singleUnit (dValue b) = applySign (dSign b) (k * 2 ^ 29 * 2 ^ q) ∧
      (frspRound b f).2 = f.afterRounding (dValue b) (singleUnit (dValue b)) r := by
  obtain ⟨q, hexp, hsig, hpat⟩ := exists_unpacked b
  have hmag := dMagnitude_of_significand hsig hpat
  have hlead := lead_of_normal hsig hpat hlow
  obtain ⟨k, hk, hholds, hvalue, hinc, hinexact⟩ :=
    roundSingle_of_normalized (j := 0) (q := q) (unpack b).exp hlead ((mul_one _).trans hmag) hr
  rw [pow_zero, Nat.cast_one, mul_one] at hvalue
  have hdef : frspRound b f = (roundSingle f.mode (dSign b) (unpack b).exp ((unpack b).frac ++ 0#3),
      (f.setXx (msbSlice (unpack b).frac 24 29 ≠ 0)).setFrFi
        (roundSingle f.mode (dSign b) (unpack b).exp ((unpack b).frac ++ 0#3)).inc
        (roundSingle f.mode (dSign b) (unpack b).exp ((unpack b).frac ++ 0#3)).inexact) := rfl
  refine ⟨q, k, hlead, hpat, hk, ?_, hvalue, ?_⟩
  · rw [hdef, ← hexp]
    exact hholds
  · rw [hdef, decide_discarded_eq_inexact f.mode (dSign b) (unpack b).exp, hinc, hinexact]
    rfl

end Sys2Proof.Machine
end

section
/-! PROOFS. What each block of `frsp` leaves for a finite operand (41_frsp.md R143 to R146, R151), as numbers. -/

namespace Sys2Proof.Machine

theorem singleClass_of_normal {n : Nat} (sign : Bool) (h : 2 ^ 948 ≤ n) : singleClass sign n = .normal sign := by
  have hpos : n ≠ 0 := by omega
  rw [singleClass, if_neg hpos, if_neg (not_lt.mpr h)]

section
variable {b : Dword} {f : Fpscr} {r : Int}

/-! ### Normal Operand in range -/

theorem frspNormal_of_in_range (p : Params) (n : Nat) (hlow : 2 ^ 948 ≤ dMagnitude b)
    (hr : RoundsTo f.mode (dValue b) (singleUnit (dValue b)) r)
    (hrange : (r * singleUnit (dValue b)).natAbs < 2 ^ 1202) :
    ∃ c, frspNormal p b f n =
        { frt := some c
          fpscr := (f.afterRounding (dValue b) (singleUnit (dValue b)) r).setFprf
            (singleClass (dSign b) (r * singleUnit (dValue b)).natAbs)
          draws := 0
          raised := [] } ∧
      isFinite c = true ∧ dValue c = r * singleUnit (dValue b) ∧ dSign c = dSign b := by
  obtain ⟨q, k, hlead, hpat, hk, hholds, hvalue, hfpscr⟩ := frspRound_of_roundsTo hlow hr
  have hclass : singleClass (dSign b) (k * 2 ^ 29 * 2 ^ q) = .normal (dSign b) := by
    rw [← normal_le_dExp_iff, dExp_eq, hpat] at hlow
    refine singleClass_of_normal _ ?_
    rw [show 948 = 53 + 895 from rfl, ← significand_le_iff 895 (hholds.isSignificand hk q)]
    omega
  rw [hvalue, natAbs_applySign, ← not_le, ← hholds.exp_gt_iff hk] at hrange
  have hfinite : q * 2 ^ 52 + k * 2 ^ 29 < infMagnitude := by
    unfold infMagnitude
    rcases hholds with ⟨_, hexp, _⟩ | ⟨_, hexp, _⟩ <;> omega
  have hpack := hholds.packSingle hk (dSign b) (e := (frspRound b f).1.exp) (q := q) (by omega)
  refine ⟨packSingle (dSign b) (frspRound b f).1.exp (frspRound b f).1.frac, ?_, ?_, ?_, ?_⟩
  · simp only [frspNormal, if_neg hrange, hfpscr, hvalue, natAbs_applySign, hclass]
  · rw [hpack]
    exact isFinite_packed _ hfinite
  · rw [hpack, dValue_packed _ (hholds.isSignificand hk q) (hfinite.trans (by decide)), hvalue]
  · rw [hpack, dSign_packed]

/-- An operand at or beyond 2^128 does not round below it. -/
theorem lt_of_rounded_in_range (hlow : 2 ^ 948 ≤ dMagnitude b)
    (hr : RoundsTo f.mode (dValue b) (singleUnit (dValue b)) r)
    (hrange : (r * singleUnit (dValue b)).natAbs < 2 ^ 1202) : dMagnitude b < 2 ^ 1202 := by
  obtain ⟨q, k, hlead, hpat, hk, hholds, hvalue, -⟩ := frspRound_of_roundsTo hlow hr
  rw [hvalue, natAbs_applySign, ← not_le, ← hholds.exp_gt_iff hk] at hrange
  rw [← not_le, ← overflow_le_dExp_iff, dExp_eq, hpat]
  rcases hholds with ⟨_, hexp, _⟩ | ⟨_, hexp, _⟩ <;> omega

/-! ### Overflow -/

/-- The printed overflow block overwrites what Normal Operand has written before it. -/
theorem frspDisabledOverflow_frspRound (p : Params) (n : Nat) :
    frspDisabledOverflow p b (frspRound b f).2 n = frspDisabledOverflow p b f n := by
  simp [frspDisabledOverflow, frspRound, Fpscr.setOx, Fpscr.setXx, Fpscr.setFrFi, Fpscr.setFprf, Fpscr.mode]

/-- An operand that rounds up to 2^128 is not far below it. -/
theorem normal_le_of_rounds_up (hr : RoundsTo f.mode (dValue b) (singleUnit (dValue b)) r)
    (hover : 2 ^ 1202 ≤ (r * singleUnit (dValue b)).natAbs) : 2 ^ 948 ≤ dMagnitude b := by
  have hnear := hr.natAbs_mul_lt (singleUnit_pos _)
  rw [natAbs_dValue] at hnear
  by_contra hnot
  have hsmall := not_le.mp hnot
  have hunit : singleUnit (dValue b) ≤ 2 ^ 948 := by
    rw [singleUnit, natAbs_dValue]
    refine pow_le_pow_right₀ one_le_two ?_
    by_cases h0 : dMagnitude b = 0
    · simp [h0]
    · have := (Nat.log2_lt h0).mpr hsmall
      omega
  omega

/-- The operands of the overflow blocks (41_frsp.md R145): at or beyond 2^128, or rounded up to it. -/
def Overflows (b : Dword) (f : Fpscr) (r : Int) : Prop :=
  2 ^ 1202 ≤ (dValue b).natAbs ∨
    (RoundsTo f.mode (dValue b) (singleUnit (dValue b)) r ∧ 2 ^ 1202 ≤ (r * singleUnit (dValue b)).natAbs)

theorem frspResult_of_overflows (p : Params) (n : Nat) (hb : isFinite b = true) (h : Overflows b f r) :
    frspResult p b f n = if f.oe then frspEnabledOverflow b f else frspDisabledOverflow p b f n := by
  unfold Overflows at h
  rw [natAbs_dValue] at h
  by_cases hlarge : 2 ^ 1202 ≤ dMagnitude b
  · exact frspResult_of_large p f n hb hlarge
  · obtain ⟨hr, hover⟩ := h.resolve_left hlarge
    have hlow := normal_le_of_rounds_up hr hover
    obtain ⟨q, k, -, -, hk, hholds, hvalue, -⟩ := frspRound_of_roundsTo hlow hr
    rw [hvalue, natAbs_applySign, ← hholds.exp_gt_iff hk] at hover
    rw [frspResult_of_normal p f n hlow (not_le.mp hlarge), frspNormal, if_pos hover, frspDisabledOverflow_frspRound]
    rfl

/-- As bit strings, the operands of the overflow blocks lie above the largest single-precision number. -/
theorem maxSingle_lt_of_overflows (h : Overflows b f r) : maxSingle.toNat < b.toNat % 2 ^ 63 := by
  unfold Overflows at h
  rw [natAbs_dValue] at h
  have hmax : maxSingle.toNat = 1149 * 2 ^ 52 + (2 ^ 24 - 1) * 2 ^ 29 := by decide
  by_cases hlarge : 2 ^ 1202 ≤ dMagnitude b
  · rw [← overflow_le_dExp_iff, dExp_eq] at hlarge
    omega
  · obtain ⟨hr, hover⟩ := h.resolve_left hlarge
    obtain ⟨q, k, hlead, hpat, hk, hholds, hvalue, -⟩ := frspRound_of_roundsTo (normal_le_of_rounds_up hr hover) hr
    have hmag := dMagnitude_of_significand ⟨(unpack b).frac.isLt.le, .inr hlead⟩ hpat
    have hnear := hr.natAbs_mul_lt (singleUnit_pos _)
    rw [hvalue, natAbs_applySign, ← hholds.exp_gt_iff hk] at hover
    rw [← overflow_le_dExp_iff, dExp_eq, hpat] at hlarge
    have hlt := (unpack b).frac.isLt
    obtain ⟨rfl, rfl⟩ : k = 2 ^ 24 ∧ q = 1149 := by
      rcases hholds with ⟨_, hexp, _⟩ | ⟨_, hexp, _⟩ <;> omega
    have hlog := log2_of_normalized (j := 0) hlead hlt ((mul_one _).trans hmag)
    have hunit : singleUnit (dValue b) = 2 ^ 29 * 2 ^ 1149 := by
      rw [singleUnit, natAbs_dValue, ← pow_add]
      congr 1
      omega
    rw [hvalue, natAbs_applySign, natAbs_dValue, hmag, hunit, ← add_mul] at hnear
    have := Nat.lt_of_mul_lt_mul_right hnear
    omega

theorem frspDisabledOverflow_of_overflows (p : Params) (n : Nat) (h : Overflows b f r) :
    ∃ fr, frspDisabledOverflow p b f n =
        { frt := some (overflowTable f.mode (dSign b)).1
          fpscr := (((f.setOx true).setXx true).setFrFi fr true).setFprf (overflowTable f.mode (dSign b)).2.1
          draws := if p.frspOvfFrDraw then 1 else 0
          raised := [.ox] } ∧
      (p.frspOvfFrDraw = false → fr = (overflowTable f.mode (dSign b)).2.2) := by
  have hmax := maxSingle_lt_of_overflows h
  have hresult : frspOverflowResult f.mode (dSign b) =
      ((overflowTable f.mode (dSign b)).1, (overflowTable f.mode (dSign b)).2.1) := by
    cases f.mode <;> cases dSign b <;> rfl
  have hinc : frspOverflowInc f.mode b = (overflowTable f.mode (dSign b)).2.2 := by
    have hpos : ¬ b.toNat < maxSingle.toNat := by omega
    have hneg : dSign b = true → negMaxSingle.toNat < b.toNat := by
      rw [dSign_eq, decide_eq_true_iff, show negMaxSingle.toNat = 2 ^ 63 + maxSingle.toNat by decide]
      omega
    cases f.mode <;> cases hsign : dSign b <;> simp_all [frspOverflowInc, overflowTable]
  refine ⟨if p.frspOvfFrDraw then Config.freeFr n else frspOverflowInc f.mode b, ?_, fun hp => ?_⟩
  · simp only [frspDisabledOverflow, hresult]
  · simp only [hp, hinc, Bool.false_eq_true, ↓reduceIte]

/-- Enabled Overflow: the operand rounded to 24 bits, its exponent lowered by 192. -/
theorem frspEnabledOverflow_of_roundsTo (hb : isFinite b = true)
    (hr : RoundsTo f.mode (dValue b) (singleUnit (dValue b)) r)
    (hover : 2 ^ 1202 ≤ (r * singleUnit (dValue b)).natAbs) :
    ∃ c, frspEnabledOverflow b f =
        { frt := some c
          fpscr := ((f.afterRounding (dValue b) (singleUnit (dValue b)) r).setOx true).setFprf (.normal (dSign b))
          draws := 0
          raised := [.ox] } ∧
      dValue c * 2 ^ 192 = r * singleUnit (dValue b) := by
  obtain ⟨q, k, -, hpat, hk, hholds, hvalue, hfpscr⟩ := frspRound_of_roundsTo (normal_le_of_rounds_up hr hover) hr
  rw [hvalue, natAbs_applySign, ← hholds.exp_gt_iff hk] at hover
  rw [isFinite_iff, infMagnitude] at hb
  have hlow : 192 ≤ q := by
    rcases hholds with ⟨_, hexp, _⟩ | ⟨_, hexp, _⟩ <;> omega
  have hpack := hholds.packSingle hk (dSign b) (e := (frspRound b f).1.exp - 192) (q := q - 192) (by omega)
  have hscale : (2 : Int) ^ 192 = (2 ^ 192 : Nat) := by norm_num
  refine ⟨packSingle (dSign b) ((frspRound b f).1.exp - 192) (frspRound b f).1.frac, ?_, ?_⟩
  · simp only [frspEnabledOverflow, frspEnabledOverflowTail, hfpscr]
  · have hle := hholds.le
    rw [hpack, dValue_packed _ (hholds.isSignificand hk _) (by omega), hvalue, hscale, ← applySign_mul, mul_assoc,
      ← pow_add, Nat.sub_add_cancel hlow]

/-! ### Underflow -/

/-- The Normalize loop on a non-zero 53-bit significand: at most 52 places. -/
theorem exists_normalized (exp : Int) {frac : BitVec 53} (h0 : frac.toNat ≠ 0) :
    ∃ j : Nat, j ≤ 52 ∧ (normalizeFrac 53 exp frac).1 = exp - j ∧
      (normalizeFrac 53 exp frac).2.toNat = frac.toNat * 2 ^ j ∧ 2 ^ 52 ≤ (normalizeFrac 53 exp frac).2.toNat := by
  obtain ⟨j, hexp, hfrac, hlead, hlt⟩ := normalizeFrac_spec 53 exp frac h0 (by omega)
  have hj : 2 ^ j < 2 ^ 53 := (Nat.le_mul_of_pos_left _ (Nat.pos_of_ne_zero h0)).trans_lt hlt
  exact ⟨j, Nat.lt_succ_iff.mp ((Nat.pow_lt_pow_iff_right one_lt_two).mp hj), hexp, hfrac, by omega⟩

/-- Enabled Exponent Underflow: the operand rounded to 24 bits, its exponent raised by 192. -/
theorem frspEnabledUnderflow_of_roundsTo (h0 : dMagnitude b ≠ 0) (hsmall : dMagnitude b < 2 ^ 948)
    (hr : RoundsTo f.mode (dValue b) (singleUnit (dValue b)) r) :
    ∃ c, frspEnabledUnderflow b f =
        { frt := some c
          fpscr := ((f.setUx true).afterRounding (dValue b) (singleUnit (dValue b)) r).setFprf (.normal (dSign b))
          draws := 0
          raised := [.ux] } ∧
      dValue c = r * singleUnit (dValue b) * 2 ^ 192 := by
  obtain ⟨q, hexp, hsig, hpat⟩ := exists_unpacked b
  have hmag := dMagnitude_of_significand hsig hpat
  have hfrac0 : (unpack b).frac.toNat ≠ 0 := by
    intro h
    rw [hmag, h, Nat.zero_mul] at h0
    exact h0 rfl
  obtain ⟨j, hj, hnexp, hnfrac, hlead⟩ := exists_normalized (unpack b).exp hfrac0
  generalize hnorm : normalizeFrac 53 (unpack b).exp (unpack b).frac = normalized at hnexp hnfrac hlead
  have hscaled : dMagnitude b * 2 ^ j = normalized.2.toNat * 2 ^ q := by
    rw [hmag, hnfrac, mul_right_comm]
  obtain ⟨k, hk, hholds, hvalue, hinc, hinexact⟩ := roundSingle_of_normalized normalized.1 hlead hscaled hr
  rw [← dValue_eq] at hvalue hinc hinexact
  have hle := hholds.le
  have hq := exponent_lt_of_tiny hsig hpat hsmall
  have hpack := hholds.packSingle hk (dSign b)
    (e := (roundSingle f.mode (dSign b) normalized.1 (normalized.2 ++ 0#3)).exp + 192) (q := q + 192 - j) (by omega)
  refine ⟨packSingle (dSign b) ((roundSingle f.mode (dSign b) normalized.1 (normalized.2 ++ 0#3)).exp + 192)
    (roundSingle f.mode (dSign b) normalized.1 (normalized.2 ++ 0#3)).frac, ?_, ?_⟩
  · simp only [frspEnabledUnderflow, hnorm]
    rw [show (unpack b).sign = dSign b from rfl, decide_discarded_eq_inexact f.mode (dSign b) normalized.1, hinc,
      hinexact]
    rfl
  · have hj0 : ((2 ^ j : Nat) : Int) ≠ 0 := by exact_mod_cast (Nat.two_pow_pos j).ne'
    have hscale : (2 : Int) ^ 192 = (2 ^ 192 : Nat) := by norm_num
    have hshift : k * 2 ^ 29 * 2 ^ (q + 192 - j) * 2 ^ j = k * 2 ^ 29 * 2 ^ q * 2 ^ 192 := by
      rw [mul_assoc, ← pow_add, Nat.sub_add_cancel (by omega), pow_add, ← mul_assoc]
    rw [hpack, dValue_packed _ (hholds.isSignificand hk _) (by omega), ← mul_left_inj' hj0, ← applySign_mul, hshift,
      applySign_mul, ← hvalue, hscale, mul_right_comm]

/-- The pattern Disabled Exponent Underflow delivers from its rounded significand (41_frsp.md R143). -/
def packDenormalized (sign : Bool) (r : Rounded) : Dword :=
  if r.frac = 0#53 then BitVec.ofBool sign ++ 0#63
  else packSingle sign (normalizeFrac 53 r.exp r.frac).1 (normalizeFrac 53 r.exp r.frac).2

theorem packDenormalized_of_holds {rounded : Rounded} {k : Nat} (h : rounded.Holds (-126) k) (sign : Bool) :
    isFinite (packDenormalized sign rounded) = true ∧
      dValue (packDenormalized sign rounded) = applySign sign (k * 2 ^ 925) ∧
      dSign (packDenormalized sign rounded) = sign := by
  have hpow : 2 ^ 29 * 2 ^ 896 = 2 ^ 925 := by rw [← pow_add]
  obtain ⟨e, hexp, hlow, hhigh, hvalue⟩ : ∃ e : Nat, rounded.exp + 1022 = e ∧ 52 ≤ e ∧ e ≤ 897 ∧
      rounded.frac.toNat * 2 ^ e = k * 2 ^ 925 := by
    rcases h with ⟨-, hexp, hfrac⟩ | ⟨rfl, hexp, hfrac⟩
    · refine ⟨896, by omega, by decide, by decide, ?_⟩
      rw [hfrac, mul_assoc, hpow]
    · refine ⟨897, by omega, by decide, by decide, ?_⟩
      rw [hfrac, ← pow_add, ← pow_add]
  unfold packDenormalized
  rw [← hvalue]
  by_cases hzero : rounded.frac = 0#53
  · have hpattern : BitVec.ofBool sign ++ 0#63 = BitVec.ofBool sign ++ BitVec.ofNat 63 (0 * 2 ^ 52 + 0) := rfl
    have hsig : IsSignificand 0 0 := ⟨by decide, .inl rfl⟩
    rw [if_pos hzero, hzero, hpattern, dValue_packed sign hsig (by decide), dSign_packed]
    exact ⟨isFinite_packed sign (by decide), by simp, rfl⟩
  · have h0 : rounded.frac.toNat ≠ 0 := fun h => hzero (BitVec.eq_of_toNat_eq h)
    obtain ⟨j, hj, hnexp, hnfrac, hlead⟩ := exists_normalized rounded.exp h0
    have hcleared : rounded.frac.toNat * 2 ^ j % 2 ^ 29 = 0 := by
      rw [Nat.mul_mod, show rounded.frac.toNat % 2 ^ 29 = 0 by rcases h with ⟨-, -, h⟩ | ⟨-, -, h⟩ <;> omega]
      simp
    have hlt := (normalizeFrac 53 rounded.exp rounded.frac).2.isLt
    have hscaled : rounded.frac.toNat * 2 ^ j * 2 ^ (e - j) = rounded.frac.toNat * 2 ^ e := by
      rw [mul_assoc, ← pow_add, Nat.add_sub_cancel' (by omega)]
    rw [if_neg hzero, packSingle_eq (q := e - j) hlead (hnfrac ▸ hcleared) (by omega),
      dValue_packed sign ⟨hlt.le, .inr hlead⟩ (by omega), dSign_packed, hnfrac, hscaled]
    exact ⟨isFinite_packed sign (by unfold infMagnitude; omega), rfl, rfl⟩

/-- FPRF names the class of the rounded operand as a single-precision number. -/
theorem frspUnderflowClass_of_holds {rounded : Rounded} {exp : Int} {k : Nat} (h : rounded.Holds exp k) (sign : Bool) :
    frspUnderflowClass sign rounded.frac = singleClass sign (k * 2 ^ 925) := by
  have hzero : rounded.frac = 0#53 ↔ k * 2 ^ 925 = 0 := by
    rw [Nat.mul_eq_zero, or_iff_left (pow_pos two_pos 925).ne', ← BitVec.toNat_inj, BitVec.toNat_ofNat, Nat.zero_mod]
    rcases h with ⟨_, -, hfrac⟩ | ⟨_, -, hfrac⟩ <;> omega
  have hnormal : rounded.frac.getMsbD 0 = decide (¬ k * 2 ^ 925 < 2 ^ 948) := by
    rw [getMsbD_eq_decide _ (by decide)]
    refine decide_eq_decide.mpr ?_
    rw [show 948 = 23 + 925 from rfl, pow_add, Nat.mul_lt_mul_right (pow_pos two_pos _)]
    rcases h with ⟨_, -, hfrac⟩ | ⟨_, -, hfrac⟩ <;> omega
  simp only [frspUnderflowClass, singleClass, hzero, hnormal, decide_eq_true_eq, ite_not]

/-- Disabled Exponent Underflow: the operand rounded to a multiple of 2^-149. -/
theorem frspDisabledUnderflow_of_roundsTo (hsmall : dMagnitude b < 2 ^ 948)
    (hr : RoundsTo f.mode (dValue b) (2 ^ 925) r) :
    ∃ c, frspDisabledUnderflow b f =
        { frt := some c
          fpscr := ((f.setUx (inexact (dValue b) (2 ^ 925) r)).afterRounding (dValue b) (2 ^ 925) r).setFprf
            (singleClass (dSign b) (r * (2 ^ 925 : Nat)).natAbs)
          draws := 0
          raised := if inexact (dValue b) (2 ^ 925) r then [.ux] else [] } ∧
      isFinite c = true ∧ dValue c = r * (2 ^ 925 : Nat) ∧ dSign c = dSign b := by
  obtain ⟨q, hexp, hsig, hpat⟩ := exists_unpacked b
  have hq := exponent_lt_of_tiny hsig hpat hsmall
  have hvalue : dValue b = applySign (dSign b) ((unpack b).frac.toNat * 2 ^ q) := by
    rw [dValue_eq, dMagnitude_of_significand hsig hpat]
  rw [hvalue] at hr ⊢
  obtain ⟨k, rfl, hholds, hinc, hinexact⟩ := roundSingle_of_denormalized (-126) hq.le hr
  obtain ⟨hfinite, hpacked, hsign⟩ := packDenormalized_of_holds hholds (dSign b)
  rw [applySign_mul] at hpacked
  refine ⟨_, ?_, hfinite, hpacked, hsign⟩
  have hpasses : (-126 - (unpack b).exp).toNat = 896 - q := by omega
  have hstart : (unpack b).exp + (896 - q : Nat) = -126 := by omega
  simp only [frspDisabledUnderflow, hpasses, hstart, discarded_ne_zero_iff_inexact f.mode (dSign b) (-126),
    Bool.decide_eq_true]
  rw [show (unpack b).sign = dSign b from rfl, hinc, hinexact, frspUnderflowClass_of_holds hholds,
    natAbs_applySign_mul]
  rfl

end

end Sys2Proof.Machine
end

section
/-! PROOFS. The statements about `frsp` of a zero, an infinity, a NaN, and of a finite operand (41_frsp.md R143 to
R155). -/

namespace Sys2Proof.Machine

/-! ### Zero, infinity and NaN -/

/-- Settles O28: the dispatch reaches the Zero block, which raises nothing. -/
theorem frspOfZero : Obligations.FrspOfZero := fun _ _ s hadv hzero =>
  exec_frsp_completes hadv (frspResult_of_zero s.params s.fpscr s.draws hzero) rfl (by simp [frspZero])

/-- Settles O29: the draw decides between the two outcomes for FR and FI. -/
theorem frspOfInfinity : Obligations.FrspOfInfinity := by
  intro frt frb s hadv hinf cls
  obtain ⟨t, hexec, hread, hfpscr, hrest⟩ := exec_frsp_completes (frt := frt) hadv
    (frspResult_of_isInf s.params s.fpscr s.draws hinf) rfl (by simp [frspInfinity])
  refine ⟨t, hexec, hread, ?_, hrest⟩
  rw [hfpscr]
  cases hdraw : Config.freeClearsFrFi s.draws with
  | false =>
    left
    simp only [frspInfinity, hdraw, Bool.not_false, Bool.and_true]
    rfl
  | true =>
    right
    simp only [frspInfinity, hdraw, Bool.not_true, Bool.and_false]
    rfl

/-- Settles O30: the QNaN block raises nothing and does not read VE. -/
theorem frspOfQuietNaN : Obligations.FrspOfQuietNaN := by
  intro frt frb s hadv hnan hquiet
  have hresult := (frspResult_of_isNaN s.params s.fpscr s.draws hnan).trans (if_pos hquiet)
  obtain ⟨t, hexec, hread, hrest⟩ := exec_frsp_completes (frt := frt) hadv hresult rfl (by simp [frspQNaN])
  refine ⟨t, hexec, ?_, ?_, hrest⟩
  · rw [hread]
    exact (msbSlice_append_of_le _ 0#29 (by decide)).trans (msbSlice_self _)
  · rw [hread]
    exact msbSlice_append_right (n := 35) _ _

/-- Settles O31: VE decides whether the SNaN block writes FRT and FPRF, and whether VXSNAN stops it. -/
theorem frspOfSignallingNaN : Obligations.FrspOfSignallingNaN := by
  intro frt frb s hadv hsnan
  obtain ⟨hnan, hsignalling⟩ := Bool.and_eq_true_iff.mp hsnan
  have hquiet : ¬ dQuiet (s.readF frb) = true := by simpa using hsignalling
  have hresult := (frspResult_of_isNaN s.params s.fpscr s.draws hnan).trans (if_neg hquiet)
  constructor
  · intro hve
    obtain ⟨t, hexec, hread, hfpscr, hrest⟩ := exec_frsp_completes (frt := frt) hadv hresult
      (if_neg (by simp [hve])) (by simp [frspSNaN, Fpscr.enables, hve])
    refine ⟨t, hexec, ?_, ?_, ?_, ?_, ?_, hrest⟩
    · rw [hread]
      exact (msbSlice_append_of_le _ 0#29 (by decide)).trans ((msbSlice_append_of_le (n := 13) _ _ (by decide)).trans
        ((msbSlice_append_of_le _ 1#1 (by decide)).trans (msbSlice_self _)))
    · rw [hread, getMsbD_eq_true_iff _ (by decide)]
      exact (msbSlice_append_of_le _ 0#29 (by decide)).trans ((msbSlice_append_of_le (n := 13) _ _ (by decide)).trans
        (msbSlice_append_right _ 1#1))
    · rw [hread]
      exact (msbSlice_append_of_le _ 0#29 (by decide)).trans (msbSlice_append_right (n := 13) _ _)
    · rw [hread]
      exact msbSlice_append_right (n := 35) _ _
    · rw [hfpscr]
      simp only [frspSNaN, hve, Bool.false_eq_true, ↓reduceIte, Fpscr.setVxsnan_true]
      rfl
  · intro hve
    obtain ⟨t, hexec, hread, hfpscr, hrest⟩ := exec_frsp_stops (frt := frt) hadv hresult (bit := .vxsnan) rfl hve
    refine ⟨t, hexec, ?_, ?_, hrest⟩
    · rw [hread]
      simp [frspSNaN, hve]
    · rw [hfpscr]
      simp only [frspSNaN, hve, ↓reduceIte, Fpscr.setVxsnan_true]
      rfl

/-! ### Finite operands -/

/-- Settles O32: from 2^-126 up the operand goes through Normal Operand, below through Disabled Exponent Underflow. -/
theorem frspRoundsCorrectly : Obligations.FrspRoundsCorrectly := by
  intro frt frb s r hadv hb x unit tiny hx hue hr hrange
  by_cases hsmall : x.natAbs < 2 ^ 948
  · have hunit : unit = 2 ^ 925 := singleUnit_of_tiny hsmall
    have htiny : tiny = true := decide_eq_true hsmall
    have hmag : dMagnitude (s.readF frb) = x.natAbs := (natAbs_dValue _).symm
    rw [htiny, Bool.and_true] at hue
    rw [hunit] at hr ⊢
    obtain ⟨c, hblock, hfinite, hvalue, hsign⟩ := frspDisabledUnderflow_of_roundsTo (hmag ▸ hsmall) hr
    have hresult := (frspResult_of_tiny s.params s.fpscr s.draws (by omega) (hmag ▸ hsmall)).trans
      ((if_neg (by simp [hue])).trans hblock)
    obtain ⟨t, hexec, rfl, hfpscr, hrest⟩ := exec_frsp_completes (frt := frt) hadv hresult rfl
      (fun bit hbit => by
        obtain ⟨-, hux⟩ := List.mem_ite_nil_right.mp hbit
        rw [List.mem_singleton.mp hux]
        exact hue)
    refine ⟨t, hexec, hfinite, hvalue, hsign, ?_, hrest⟩
    rw [hfpscr, htiny, Bool.true_and]
    rfl
  · have hnormal := not_lt.mp hsmall
    have hunit : unit = singleUnit x := singleUnit_of_normal hnormal
    have htiny : tiny = false := decide_eq_false hsmall
    have hmag : dMagnitude (s.readF frb) = x.natAbs := (natAbs_dValue _).symm
    rw [hunit] at hr hrange ⊢
    obtain ⟨c, hblock, hfinite, hvalue, hsign⟩ :=
      frspNormal_of_in_range s.params s.draws (hmag ▸ hnormal) hr hrange
    have hlarge := lt_of_rounded_in_range (hmag ▸ hnormal) hr hrange
    have hresult := (frspResult_of_normal s.params s.fpscr s.draws (hmag ▸ hnormal) hlarge).trans hblock
    obtain ⟨t, hexec, rfl, hfpscr, hrest⟩ := exec_frsp_completes (frt := frt) hadv hresult rfl (by simp)
    refine ⟨t, hexec, hfinite, hvalue, hsign, ?_, hrest⟩
    rw [hfpscr, htiny, Bool.false_and, Bool.or_false]
    rfl

/-- Settles O33: both entries lead to the printed block, and its comparisons of bit strings come out as in the table. -/
theorem frspDisabledOverflowTable : Obligations.FrspDisabledOverflowTable := by
  intro frt frb s r hadv hb hoe x unit row h
  obtain ⟨fr, hblock, hfr⟩ := frspDisabledOverflow_of_overflows s.params s.draws (show Overflows _ s.fpscr r from h)
  have hresult := (frspResult_of_overflows s.params s.draws hb h).trans ((if_neg (by simp [hoe])).trans hblock)
  obtain ⟨t, hexec, hread, hfpscr, hrest⟩ := exec_frsp_completes (frt := frt) hadv hresult rfl (by
    simp [Fpscr.enables, hoe])
  refine ⟨t, hexec, hread, ?_, ?_, hrest⟩
  · rw [hfpscr]
    rw [Fpscr.setOx_true, Fpscr.setXx_true]
    rfl
  · intro hp
    rw [hfpscr]
    exact hfr hp

/-- Settles O34: UX is raised whatever the operand, and its enable is 1. -/
theorem frspEnabledUnderflowScalesUp : Obligations.FrspEnabledUnderflowScalesUp := by
  intro frt frb s r hadv hb hue x unit hx hsmall hr
  have hmag : dMagnitude (s.readF frb) = x.natAbs := (natAbs_dValue _).symm
  obtain ⟨c, hblock, hvalue⟩ := frspEnabledUnderflow_of_roundsTo (by omega) (hmag ▸ hsmall) hr
  have hresult := (frspResult_of_tiny s.params s.fpscr s.draws (by omega) (hmag ▸ hsmall)).trans
    ((if_pos hue).trans hblock)
  obtain ⟨t, hexec, hread, hfpscr, hrest⟩ := exec_frsp_stops (frt := frt) hadv hresult rfl hue
  refine ⟨t, hexec, ?_, ?_, hrest⟩
  · rw [hread]
    exact hvalue
  · rw [hfpscr]
    rw [Fpscr.setUx_true]
    rfl

/-- Settles O35: OX is raised whatever the operand, and its enable is 1. -/
theorem frspEnabledOverflowScalesDown : Obligations.FrspEnabledOverflowScalesDown := by
  intro frt frb s r hadv hb hoe x unit hr hover
  obtain ⟨c, hblock, hvalue⟩ := frspEnabledOverflow_of_roundsTo hb hr hover
  have hresult := (frspResult_of_overflows s.params s.draws hb (.inr ⟨hr, hover⟩)).trans ((if_pos hoe).trans hblock)
  obtain ⟨t, hexec, hread, hfpscr, hrest⟩ := exec_frsp_stops (frt := frt) hadv hresult rfl hoe
  refine ⟨t, hexec, ?_, ?_, hrest⟩
  · rw [hread]
    exact hvalue
  · rw [hfpscr, Fpscr.setOx_true]
    rfl

end Sys2Proof.Machine
end

section
/-! PROOFS. What `frsp` writes to FRT, block by block, has the fraction of a single-precision number (41_frsp.md R140,
10_state.md R22). -/

namespace Sys2Proof.Machine

theorem low_bits_eq_zero_iff (v : Dword) : msbSlice v 35 29 = 0#29 ↔ v.toNat % 2 ^ 29 = 0 := by
  rw [← BitVec.toNat_inj, toNat_msbSlice, Nat.sub_sub, Nat.sub_self, pow_zero, Nat.div_one, BitVec.toNat_ofNat,
    Nat.zero_mod]

/-- What FRT receives has its low 29 bits 0, unless VE = 1 withholds the write. -/
def FpResult.HasSingleFraction (f : Fpscr) (r : FpResult) : Prop :=
  (∃ v, r.frt = some v ∧ msbSlice v 35 29 = 0#29) ∨ (r.frt = none ∧ r.raised = [.vxsnan] ∧ f.ve = true)

section
variable (b : Dword) (f : Fpscr) (n : Nat)

theorem low_bits_packSingle (sign : Bool) (exp : Int) (frac : BitVec 53) :
    msbSlice (packSingle sign exp frac) 35 29 = 0#29 :=
  msbSlice_append_right (n := 35) _ _

theorem frspDisabledOverflow_hasSingleFraction (p : Params) (g : Fpscr) :
    (frspDisabledOverflow p b g n).HasSingleFraction f := by
  refine .inl ⟨_, rfl, ?_⟩
  cases g.mode <;> cases dSign b <;> decide

theorem frspNormal_hasSingleFraction (p : Params) : (frspNormal p b f n).HasSingleFraction f := by
  simp only [frspNormal]
  split_ifs
  · exact .inl ⟨_, rfl, low_bits_packSingle _ _ _⟩
  · exact frspDisabledOverflow_hasSingleFraction b f n p _
  · exact .inl ⟨_, rfl, low_bits_packSingle _ _ _⟩

theorem frspDisabledUnderflow_hasSingleFraction : (frspDisabledUnderflow b f).HasSingleFraction f := by
  refine .inl ⟨_, rfl, ?_⟩
  split_ifs
  · rw [low_bits_eq_zero_iff, toNat_append_zeros]
    omega
  · exact low_bits_packSingle _ _ _

theorem frspSNaN_hasSingleFraction : (frspSNaN b f).HasSingleFraction f := by
  cases hve : f.ve with
  | false => exact .inl ⟨_, by simp only [frspSNaN, hve]; rfl, msbSlice_append_right (n := 35) _ _⟩
  | true => exact .inr ⟨by simp only [frspSNaN, hve]; rfl, rfl, hve⟩

theorem frspResult_hasSingleFraction (p : Params) : (frspResult p b f n).HasSingleFraction f := by
  unfold frspResult
  split_ifs with htiny hue hlarge hoe hnormal hzero hinf hquiet
  · exact .inl ⟨_, rfl, low_bits_packSingle _ _ _⟩
  · exact frspDisabledUnderflow_hasSingleFraction b f
  · exact .inl ⟨_, rfl, low_bits_packSingle _ _ _⟩
  · exact frspDisabledOverflow_hasSingleFraction b f n p f
  · exact frspNormal_hasSingleFraction b f n p
  · refine .inl ⟨b, rfl, (low_bits_eq_zero_iff b).mpr ?_⟩
    have hlow := toNat_msbSlice_low b
    rw [show msbSlice b 1 63 = 0#63 from hzero, BitVec.toNat_ofNat] at hlow
    omega
  · refine .inl ⟨b, rfl, (low_bits_eq_zero_iff b).mpr ?_⟩
    have hlow := toNat_dFrac b
    rw [show dFrac b = 0#52 from hinf, BitVec.toNat_ofNat] at hlow
    omega
  · exact .inl ⟨_, rfl, msbSlice_append_right (n := 35) _ _⟩
  · exact frspSNaN_hasSingleFraction b f

end

/-- Settles O36: every block that writes FRT clears the low 29 bits, and the one that does not write it stops. -/
theorem frspResultHasSingleFraction : Obligations.FrspResultHasSingleFraction := by
  intro frt frb s t hexec
  obtain ⟨-, hoff, rfl⟩ := completeFp_eq_next.mp hexec
  rcases frspResult_hasSingleFraction (s.readF frb) s.fpscr s.draws s.params with ⟨v, hfrt, hlow⟩ | ⟨-, hraised, hve⟩
  · rw [hfrt, State.writeTarget_some]
    exact (congrArg (msbSlice · 35 29) (State.readF_writeF_same s frt v)).trans hlow
  · have hupdates := frspResult_updates (f := s.fpscr) (s.readF frb) s.draws s.params
    have hdisabled := (hupdates.enables .vxsnan).symm.trans (hoff .vxsnan (by simp [hraised]))
    exact absurd (hve.symm.trans hdisabled) (by decide)

end Sys2Proof.Machine
end

section
/-! PROOFS. What a completed `frsp` with UE = 0 delivers is a single-precision number, an infinity or a QNaN, and `frsp`
delivers it again (41_frsp.md R143, R147 to R151; 10_state.md R22). -/

namespace Sys2Proof.Machine

/-! ### The results of frsp -/

/-- A pattern that a completed `frsp` with UE = 0 delivers, with the class FPRF names for it (10_state.md R22, R31). -/
inductive SingleResult (c : Dword) : Fprf → Prop where
  | zero (hzero : msbSlice c 1 63 = 0#63) : SingleResult c (if dSign c then .negZero else .posZero)
  | infinity (hinf : isInf c = true) : SingleResult c (if dSign c then .negInfinity else .posInfinity)
  | quietNaN (hnan : isNaN c = true) (hquiet : dQuiet c = true) (hlow : msbSlice c 35 29 = 0#29) : SingleResult c .qnan
  | number (hfinite : isFinite c = true) (hne : dValue c ≠ 0) (hrange : (dValue c).natAbs < 2 ^ 1202)
    (hgrid : 2 ^ 925 ∣ (dValue c).natAbs) (hlow : msbSlice c 35 29 = 0#29) :
    SingleResult c (singleClass (dSign c) (dValue c).natAbs)

theorem isNaN_iff (v : Dword) : isNaN v = true ↔ dExp v = 2047 ∧ dFrac v ≠ 0 := by
  rw [isNaN, Bool.and_eq_true, decide_eq_true_iff, decide_eq_true_iff]

theorem operand_cases (b : Dword) :
    msbSlice b 1 63 = 0#63 ∨ isInf b = true ∨ (isNaN b = true ∧ dQuiet b = true) ∨ isSNaN b = true ∨
      (isFinite b = true ∧ dValue b ≠ 0) := by
  by_cases hfinite : dExp b < 2047
  · by_cases hzero : dMagnitude b = 0
    · exact .inl ((msbSlice_low_eq_zero_iff b).mpr hzero)
    · refine .inr (.inr (.inr (.inr ⟨decide_eq_true hfinite, ?_⟩)))
      rwa [← Int.natAbs_ne_zero, natAbs_dValue]
  · have hexp : dExp b = 2047 := by
      unfold dExp at hfinite ⊢
      omega
    by_cases hfrac : dFrac b = 0
    · exact .inr (.inl (by simp [isInf, hexp, hfrac]))
    · have hnan : isNaN b = true := (isNaN_iff b).mpr ⟨hexp, hfrac⟩
      cases hquiet : dQuiet b with
      | true => exact .inr (.inr (.inl ⟨hnan, rfl⟩))
      | false => exact .inr (.inr (.inr (.inl (by simp [isSNaN, hnan, hquiet]))))

/-- A NaN stays one when its sign and exponent are kept and bit 12 is 1. -/
theorem isNaN_of_quieted {b c : Dword} (hb : isNaN b = true) (hsame : msbSlice c 0 12 = msbSlice b 0 12)
    (hquiet : dQuiet c = true) : isNaN c = true := by
  obtain ⟨hexp, -⟩ := (isNaN_iff b).mp hb
  have hslice (v : Dword) : msbSlice (msbSlice v 0 12) 1 11 = msbSlice v 1 11 :=
    msbSlice_msbSlice v 0 12 1 11 (by decide) (by decide)
  have hexpc : dExp c = 2047 := by
    rw [← hexp, dExp, dExp, ← hslice c, hsame, hslice b]
  have hfrac : dFrac c ≠ 0 := by
    intro h
    have hbit : msbSlice (dFrac c) 0 1 = 1#1 :=
      (msbSlice_msbSlice c 12 52 0 1 (by decide) (by decide)).trans ((getMsbD_eq_true_iff c (by decide)).mp hquiet)
    rw [h] at hbit
    exact absurd hbit (by decide)
  exact (isNaN_iff c).mpr ⟨hexpc, hfrac⟩

theorem grew_inexact_of_exact {x r : Int} {unit : Nat} (h : x = r * unit) :
    grew x unit r = false ∧ inexact x unit r = false := by
  simp [grew, inexact, h]

theorem singleResult_of_value {c : Dword} (hfinite : isFinite c = true) (hrange : (dValue c).natAbs < 2 ^ 1202)
    (hgrid : 2 ^ 925 ∣ (dValue c).natAbs) (hlow : msbSlice c 35 29 = 0#29) :
    SingleResult c (singleClass (dSign c) (dValue c).natAbs) := by
  by_cases hzero : dValue c = 0
  · rw [singleClass, if_pos (by simp [hzero])]
    refine .zero ((msbSlice_low_eq_zero_iff c).mpr ?_)
    rw [← natAbs_dValue, hzero, Int.natAbs_zero]
  · exact .number hfinite hzero hrange hgrid hlow

/-- The largest single-precision number of a sign. -/
theorem singleResult_max (sign : Bool) :
    SingleResult (BitVec.ofBool sign ++ BitVec.ofNat 63 (1149 * 2 ^ 52 + (2 ^ 53 - 2 ^ 29))) (.normal sign) := by
  have hsig : IsSignificand 1149 (2 ^ 53 - 2 ^ 29) := ⟨by decide, .inr (by decide)⟩
  have hvalue := dValue_packed sign hsig (by decide)
  have habs := congrArg Int.natAbs hvalue
  rw [natAbs_applySign] at habs
  have hstep : 2 ^ 948 ≤ 2 ^ 1149 := pow_le_pow_right₀ one_le_two (by decide)
  have hnormal : 2 ^ 948 ≤ (2 ^ 53 - 2 ^ 29) * 2 ^ 1149 := hstep.trans (Nat.le_mul_of_pos_left _ (by decide))
  have hrange : (2 ^ 53 - 2 ^ 29) * 2 ^ 1149 < 2 ^ 1202 := by
    rw [show 1202 = 53 + 1149 from rfl, pow_add]
    exact Nat.mul_lt_mul_of_pos_right (by decide) (pow_pos two_pos _)
  have hpow : 2 ^ 925 ∣ 2 ^ 1149 := pow_dvd_pow 2 (by decide)
  have hgrid : 2 ^ 925 ∣ (2 ^ 53 - 2 ^ 29) * 2 ^ 1149 := Dvd.dvd.mul_left hpow (2 ^ 53 - 2 ^ 29)
  have hresult := singleResult_of_value (isFinite_packed sign (p := 1149 * 2 ^ 52 + (2 ^ 53 - 2 ^ 29)) (by decide))
    (by rw [habs]; exact hrange) (by rw [habs]; exact hgrid) (by cases sign <;> decide)
  rw [dSign_packed, habs, singleClass_of_normal sign hnormal] at hresult
  exact hresult

theorem singleResult_of_overflow (mode : RoundMode) (sign : Bool) :
    SingleResult (overflowTable mode sign).1 (overflowTable mode sign).2.1 := by
  cases mode <;> cases sign
  case zero.false | negInf.false => exact singleResult_max false
  case zero.true | posInf.true => exact singleResult_max true
  case nearest.false | posInf.false | nearest.true | negInf.true => exact .infinity (by decide)

theorem quietNaN_of_kept {b c : Dword} (hb : isNaN b = true) (hsame : msbSlice c 0 12 = msbSlice b 0 12)
    (hquiet : dQuiet c = true) (hlow : msbSlice c 35 29 = 0#29) : SingleResult c .qnan :=
  .quietNaN (isNaN_of_quieted hb hsame hquiet) hquiet hlow

/-- Rounding up to 2^128 happens to operands that are rounded to 24 bits only. -/
theorem singleUnit_of_rounds_up {mode : RoundMode} {x r : Int}
    (hr : RoundsTo mode x (2 ^ max 925 (x.natAbs.log2 - 23)) r)
    (hover : 2 ^ 1202 ≤ (r * (2 ^ max 925 (x.natAbs.log2 - 23) : Nat)).natAbs) :
    2 ^ max 925 (x.natAbs.log2 - 23) = singleUnit x := by
  refine singleUnit_of_normal (le_of_not_gt fun hsmall => ?_)
  rw [singleUnit_of_tiny hsmall] at hr hover
  have hnear := hr.natAbs_mul_lt (pow_pos two_pos _)
  omega

section
variable {f g : FReg} {s t : State} (hexec : exec (.frsp g f) s = .next t)
include hexec

theorem singleResult_of_isNaN (hnan : isNaN (s.readF f) = true) : SingleResult (t.readF g) t.fpscr.fprf := by
  obtain ⟨hadv, -⟩ := completeFp_eq_next.mp hexec
  have hlow := frspResultHasSingleFraction g f s t hexec
  cases hquiet : dQuiet (s.readF f) with
  | true =>
    obtain ⟨u, hexec', hkept, -, hfpscr, -⟩ := frspOfQuietNaN g f s hadv hnan hquiet
    cases hexec.symm.trans hexec'
    have hsame : msbSlice (t.readF g) 0 12 = msbSlice (s.readF f) 0 12 := by
      rw [← msbSlice_msbSlice (t.readF g) 0 35 0 12 (by decide) (by decide), hkept,
        msbSlice_msbSlice _ 0 35 0 12 (by decide) (by decide)]
    have hbit : dQuiet (t.readF g) = true := by
      rw [dQuiet, getMsbD_eq_true_iff _ (by decide)] at hquiet ⊢
      rw [← hquiet, ← msbSlice_msbSlice (t.readF g) 0 35 12 1 (by decide) (by decide), hkept,
        msbSlice_msbSlice _ 0 35 12 1 (by decide) (by decide)]
    rw [hfpscr]
    exact quietNaN_of_kept hnan hsame hbit hlow
  | false =>
    obtain ⟨hdisabled, henabled⟩ := frspOfSignallingNaN g f s hadv (by simp [isSNaN, hnan, hquiet])
    cases hve : s.fpscr.ve with
    | true =>
      obtain ⟨u, hstop, -⟩ := henabled hve
      cases hexec.symm.trans hstop
    | false =>
      obtain ⟨u, hexec', hsame, hbit, -, -, hfpscr, -⟩ := hdisabled hve
      cases hexec.symm.trans hexec'
      rw [hfpscr]
      exact quietNaN_of_kept hnan hsame hbit hlow

theorem singleResult_of_isFinite (hue : s.fpscr.ue = false) (hb : isFinite (s.readF f) = true)
    (hne : dValue (s.readF f) ≠ 0) : SingleResult (t.readF g) t.fpscr.fprf := by
  obtain ⟨hadv, -⟩ := completeFp_eq_next.mp hexec
  have hlow := frspResultHasSingleFraction g f s t hexec
  obtain ⟨r, hr⟩ := exists_roundsTo s.fpscr.mode (dValue (s.readF f))
    (Nat.two_pow_pos (max 925 ((dValue (s.readF f)).natAbs.log2 - 23)))
  by_cases hrange : (r * (2 ^ max 925 ((dValue (s.readF f)).natAbs.log2 - 23) : Nat)).natAbs < 2 ^ 1202
  · obtain ⟨u, hexec', hfinite, hvalue, hsign, hfpscr, -⟩ :=
      frspRoundsCorrectly g f s r hadv hb hne (by rw [hue, Bool.false_and]) hr hrange
    cases hexec.symm.trans hexec'
    have hgrid : 2 ^ 925 ∣ (dValue (t.readF g)).natAbs := by
      rw [hvalue, Int.natAbs_mul, Int.natAbs_natCast]
      exact (pow_dvd_pow 2 (le_max_left _ _)).mul_left _
    rw [hfpscr, ← hsign, ← hvalue]
    exact singleResult_of_value hfinite (hvalue ▸ hrange) hgrid hlow
  · have hover := not_lt.mp hrange
    have hunit := singleUnit_of_rounds_up hr hover
    rw [hunit] at hr hover
    cases hoe : s.fpscr.oe with
    | true =>
      obtain ⟨u, hstop, -⟩ := frspEnabledOverflowScalesDown g f s r hadv hb hoe hr hover
      cases hexec.symm.trans hstop
    | false =>
      obtain ⟨u, hexec', hread, hfpscr, -⟩ := frspDisabledOverflowTable g f s r hadv hb hoe (.inr ⟨hr, hover⟩)
      cases hexec.symm.trans hexec'
      rw [hread, hfpscr]
      exact singleResult_of_overflow _ _

theorem singleResult_of_exec (hue : t.fpscr.ue = false) : SingleResult (t.readF g) t.fpscr.fprf := by
  obtain ⟨hadv, -⟩ := completeFp_eq_next.mp hexec
  obtain ⟨-, -, -, hcontrol⟩ := (exec_updates (.inl hexec)).control
  rcases operand_cases (s.readF f) with hzero | hinf | ⟨hnan, -⟩ | hsnan | ⟨hb, hne⟩
  · obtain ⟨u, hexec', hread, hfpscr, -⟩ := frspOfZero g f s hadv hzero
    cases hexec.symm.trans hexec'
    rw [hfpscr, hread]
    exact .zero hzero
  · obtain ⟨u, hexec', hread, hfpscr, -⟩ := frspOfInfinity g f s hadv hinf
    cases hexec.symm.trans hexec'
    rcases hfpscr with hfpscr | hfpscr <;> rw [hfpscr, hread] <;> exact .infinity hinf
  · exact singleResult_of_isNaN hexec hnan
  · obtain ⟨hnan, -⟩ := Bool.and_eq_true_iff.mp hsnan
    exact singleResult_of_isNaN hexec hnan
  · exact singleResult_of_isFinite hexec (hcontrol.symm.trans hue) hb hne

end

/-! ### frsp of a result of frsp -/

/-- A number of 24 significant bits, a multiple of 2^-149, is a whole number of the units it is rounded to. -/
theorem exists_units_of_single {c : Dword} (hgrid : 2 ^ 925 ∣ (dValue c).natAbs) (hlow : msbSlice c 35 29 = 0#29) :
    ∃ r : Int, dValue c = r * (2 ^ max 925 ((dValue c).natAbs.log2 - 23) : Nat) := by
  suffices hdvd : 2 ^ max 925 ((dValue c).natAbs.log2 - 23) ∣ (dValue c).natAbs by
    obtain ⟨r, hr⟩ := Int.natCast_dvd.mpr hdvd
    exact ⟨r, hr.trans (mul_comm _ _)⟩
  by_cases hsmall : (dValue c).natAbs < 2 ^ 948
  · rwa [singleUnit_of_tiny hsmall]
  · have hnormal := not_lt.mp hsmall
    obtain ⟨q, k, hsig, hk, hpat⟩ := exists_significand c
    have hmag := dMagnitude_of_significand hsig hpat
    rw [low_bits_eq_zero_iff] at hlow
    have hlead := lead_of_normal hsig hpat (natAbs_dValue c ▸ hnormal)
    have hlog := log2_of_normalized (j := 0) hlead hk ((mul_one _).trans hmag)
    rw [singleUnit_of_normal hnormal, singleUnit, natAbs_dValue, show (dMagnitude c).log2 - 23 = 29 + q by omega, hmag,
      pow_add]
    exact Nat.mul_dvd_mul_right (Nat.dvd_of_mod_eq_zero (by omega)) _

/-- A finite non-zero pattern is fixed by its value. -/
theorem eq_of_dValue_eq {b c : Dword} (hb : isFinite b = true) (hc : isFinite c = true) (h : dValue b = dValue c)
    (hne : dValue c ≠ 0) : b = c := by
  rw [← roundDouble_dValue .nearest hb (h ▸ hne), h, roundDouble_dValue .nearest hc hne]

theorem exec_frsp_of_singleResult {g h : FReg} {t : State} (hc : SingleResult (t.readF g) t.fpscr.fprf)
    (hadv : t.canAdvance = true) (hue : t.fpscr.ue = false) :
    ∃ u, exec (.frsp h g) t = .next u ∧ u.readF h = t.readF g ∧
      u.fpscr = { t.fpscr with fr := u.fpscr.fr, fi := u.fpscr.fi } ∧
      (isInf (t.readF g) = false → u.fpscr.fr = false ∧ u.fpscr.fi = false) ∧
      FloatFrame h t u ∧ u.pc = t.pc + 4#64 := by
  generalize hclass : t.fpscr.fprf = c at hc
  cases hc with
  | zero hzero =>
    obtain ⟨u, hexec, hread, hfpscr, hrest⟩ := frspOfZero h g t hadv hzero
    rw [← hclass] at hfpscr
    exact ⟨u, hexec, hread, by rw [hfpscr], fun _ => by rw [hfpscr]; exact ⟨rfl, rfl⟩, hrest⟩
  | infinity hinf =>
    obtain ⟨u, hexec, hread, hfpscr, hrest⟩ := frspOfInfinity h g t hadv hinf
    rw [← hclass] at hfpscr
    refine ⟨u, hexec, hread, ?_, fun hnot => absurd (hinf.symm.trans hnot) (by decide), hrest⟩
    rcases hfpscr with hfpscr | hfpscr <;> rw [hfpscr]
  | quietNaN hnan hquiet hlow =>
    obtain ⟨u, hexec, hhigh, hlow', hfpscr, hrest⟩ := frspOfQuietNaN h g t hadv hnan hquiet
    rw [← hclass] at hfpscr
    have hread : u.readF h = t.readF g := by
      rw [← msbSlice_self (u.readF h), ← msbSlice_self (t.readF g)]
      refine (msbSlice_add _ 0 35 29 (by decide)).trans (Eq.trans ?_ (msbSlice_add _ 0 35 29 (by decide)).symm)
      rw [hhigh, hlow', hlow]
    exact ⟨u, hexec, hread, by rw [hfpscr], fun _ => by rw [hfpscr]; exact ⟨rfl, rfl⟩, hrest⟩
  | number hfinite hne hrange hgrid hlow =>
    obtain ⟨r, hr⟩ := exists_units_of_single hgrid hlow
    obtain ⟨hgrew, hinexact⟩ := grew_inexact_of_exact hr
    have hround := roundsTo_exact t.fpscr.mode r
      (Nat.two_pow_pos (max 925 ((dValue (t.readF g)).natAbs.log2 - 23)))
    rw [← hr] at hround
    obtain ⟨u, hexec, hfinite', hvalue, -, hfpscr, hrest⟩ :=
      frspRoundsCorrectly h g t r hadv hfinite hne (by rw [hue, Bool.false_and]) hround (hr ▸ hrange)
    rw [← hr] at hvalue
    rw [← hr, hgrew, hinexact, Bool.and_false, Bool.or_false, Bool.or_false, ← hclass] at hfpscr
    exact ⟨u, hexec, eq_of_dValue_eq hfinite' hfinite hvalue hne, by rw [hfpscr],
      fun _ => by rw [hfpscr]; exact ⟨rfl, rfl⟩, hrest⟩

/-- Settles O37: the first `frsp` has left a single-precision result with its class, and the second keeps both. -/
theorem frspIsIdempotent : Obligations.FrspIsIdempotent :=
  fun _ _ _ _ _ hexec hadv hue => exec_frsp_of_singleResult (singleResult_of_exec hexec hue) hadv hue

end Sys2Proof.Machine
end

section
/-! PROOFS. Round Integer as rounding to an integer (42_fcti.md R182 to R185): the shifted significand stands to whole and
half integers as the operand does. Magnitudes are in units of 2^-1074, so 1 is `dOne`. -/

namespace Sys2Proof.Machine

/-! ### Rounding -/

/-- A rounded number keeps the sign. -/
theorem RoundsTo.exists_applySign {mode : RoundMode} {sign : Bool} {m unit : Nat} {r : Int} (hu : 0 < unit)
    (hr : RoundsTo mode (applySign sign m) unit r) : ∃ k : Nat, r = applySign sign k := by
  have hround := roundInc_roundsTo mode sign _ false _ (m / unit) _ unit (Nat.mod_lt m hu) rfl (Bool.false_or _)
  rw [Nat.div_add_mod'] at hround
  exact ⟨_, hr.unique hu hround⟩

/-- The number is less than one unit away from what it rounds to. -/
theorem RoundsTo.natAbs_lt {mode : RoundMode} {x r : Int} {unit : Nat} (hu : 0 < unit)
    (hr : RoundsTo mode x unit r) : x.natAbs < (r * unit).natAbs + unit := by
  cases mode with
  | nearest | posInf | negInf =>
    obtain ⟨hle, hlt⟩ := hr
    omega
  | zero =>
    obtain ⟨-, hlt, -⟩ := hr
    omega

/-- Rounding discards something exactly when the number is no whole number of units. -/
theorem RoundsTo.inexact_eq {mode : RoundMode} {x r : Int} {unit : Nat} (hu : 0 < unit) (hr : RoundsTo mode x unit r) :
    inexact x unit r = decide (x % unit ≠ 0) := by
  refine decide_eq_decide.mpr (not_congr ⟨fun h => ?_, fun h => ?_⟩)
  · rw [← h]
    exact Int.mul_emod_left r unit
  · have hunits : x / unit * unit = x := Int.ediv_mul_cancel (Int.dvd_of_emod_eq_zero h)
    have hexact := roundsTo_exact mode (x / unit) hu
    rw [hunits] at hexact
    rw [hr.unique hu hexact, hunits]

theorem dOne_pos : 0 < dOne := pow_pos two_pos _

/-! ### The shifted significand -/

/-- The dispatch lets through the magnitudes below 2^64 (42_fcti.md R181). -/
theorem largeOperand_iff (b : Dword) : 1086 < dExp b ↔ 2 ^ 64 * dOne ≤ dMagnitude b := by
  have hpow : 2 ^ 64 * dOne = 2 ^ (53 + 1085) := by rw [dOne, ← pow_add]
  rw [hpow]
  exact le_dExp_iff 1085 b

/-- The 68-bit string before the shift: the significand with 11 places and G, R and X below it. -/
def fctiUnshifted (b : Dword) : BitVec 68 := (if dExp b = 0 then 0b00#2 else 0b01#2) ++ dFrac b ++ 0#11 ++ 0#3

theorem toNat_fctiUnshifted (b : Dword) : (fctiUnshifted b).toNat = (unpack b).frac.toNat * 2 ^ 14 := by
  have hdef : (unpack b).frac = (if dExp b = 0 then 0b0#1 else 0b1#1) ++ dFrac b := rfl
  rw [fctiUnshifted, toNat_append_zeros, toNat_append_zeros, toNat_append_add, hdef, toNat_append_add]
  by_cases h0 : dExp b = 0
  · rw [if_pos h0, if_pos h0, BitVec.toNat_ofNat, BitVec.toNat_ofNat]
    omega
  · rw [if_neg h0, if_neg h0, BitVec.toNat_ofNat, BitVec.toNat_ofNat]
    omega

theorem fctiShifted_eq (b : Dword) :
    fctiShifted b = stickyShift (63 - (unpack b).exp).toNat (fctiUnshifted b) := rfl

/-- The shifted significand, in units of its integer bit, stands to whole and half integers as the operand does. -/
theorem sameHalfUnits_fctiShifted {b : Dword} (hb : dExp b ≤ 1086) :
    SameHalfUnits (fctiShifted b).toNat (2 ^ 3) (dMagnitude b) dOne := by
  obtain ⟨q, hexp, hsig, hlow⟩ := exists_unpacked b
  have hlt := (unpack b).frac.isLt
  have hq : q ≤ 1085 := by
    rw [dExp_eq, hlow] at hb
    obtain ⟨-, hlead⟩ := hsig
    omega
  have hpasses : (63 - (unpack b).exp).toNat = 1085 - q := by omega
  have hshift := sameHalfUnits_stickyShift (u := 2 ^ 3) (1085 - q) (fctiUnshifted b) (by decide)
  have hunshifted := SameHalfUnits.scale ((unpack b).frac.toNat * 2 ^ 14 : Nat) (2 ^ 3 * 2 ^ (1085 - q))
    (Nat.two_pow_pos q)
  have hop := SameHalfUnits.scale (dMagnitude b) dOne (c := 2 ^ 14) (by decide)
  have hunit : 2 ^ 3 * 2 ^ (1085 - q) * 2 ^ q = dOne * 2 ^ 14 := by
    rw [dOne, ← pow_add, ← pow_add, ← pow_add]
    congr 1
    omega
  have hvalue : (unpack b).frac.toNat * 2 ^ 14 * 2 ^ q = dMagnitude b * 2 ^ 14 := by
    rw [dMagnitude_of_significand hsig hlow, mul_right_comm]
  rw [← Nat.cast_mul, hvalue, hunit] at hunshifted
  rw [← Nat.cast_mul] at hop
  rw [fctiShifted_eq, hpasses]
  rw [toNat_fctiUnshifted] at hshift
  exact (hshift.trans hunshifted).trans hop.symm

/-! ### Round Integer -/

/-- The increment of Round Integer on `v`, whose last three bits are G, R and X (42_fcti.md R184). -/
def fctiInc (mode : RoundMode) (sign : Bool) (v : Nat) : Bool :=
  roundInc mode sign (decide (v / 2 ^ 3 % 2 = 1)) (decide (v / 2 ^ 2 % 2 = 1)) (decide (v / 2 % 2 = 1))
    (decide (v % 2 = 1))

/-- Round Integer on numbers: it rounds `v` to whole units of the bit above G. -/
theorem fctiInc_roundsTo (mode : RoundMode) (sign : Bool) (v : Nat) :
    RoundsTo mode (applySign sign v) (2 ^ 3)
      (applySign sign (v / 2 ^ 3 + if fctiInc mode sign v then 1 else 0)) := by
  have hguard : decide (v / 2 ^ 2 % 2 = 1) = decide (2 ^ 3 ≤ 2 * (v % 2 ^ 3)) := decide_eq_decide.mpr (by omega)
  have hrest : (decide (v / 2 % 2 = 1) || decide (v % 2 = 1)) =
      decide (if 2 ^ 3 ≤ 2 * (v % 2 ^ 3) then 2 ^ 3 ≠ 2 * (v % 2 ^ 3) else v % 2 ^ 3 ≠ 0) := by
    rw [← Bool.decide_or]
    exact decide_eq_decide.mpr (by split_ifs <;> omega)
  have hround := roundInc_roundsTo mode sign _ _ _ (v / 2 ^ 3) _ _ (Nat.mod_lt v (by decide)) hguard hrest
  rw [Nat.div_add_mod'] at hround
  exact hround

/-- Without a bit below the unit nothing is added. -/
theorem fctiInc_of_whole (mode : RoundMode) (sign : Bool) {v : Nat} (h : v % 2 ^ 3 = 0) :
    fctiInc mode sign v = false := by
  have hg : v / 2 ^ 2 % 2 ≠ 1 := by omega
  have hr : v / 2 % 2 ≠ 1 := by omega
  have hx : v % 2 ≠ 1 := by omega
  rw [fctiInc, decide_eq_false hg, decide_eq_false hr, decide_eq_false hx]
  cases mode <;> simp [roundInc]

section
variable (v : BitVec 68)

theorem toNat_kept : (msbSlice v 0 65).toNat = v.toNat / 2 ^ 3 := by
  have hlt := v.isLt
  rw [toNat_msbSlice]
  omega

theorem guardBits_eq : v.getMsbD 65 = decide (v.toNat / 2 ^ 2 % 2 = 1) ∧ v.getMsbD 66 = decide (v.toNat / 2 % 2 = 1) ∧
    v.getMsbD 67 = decide (v.toNat % 2 = 1) := by
  refine ⟨getMsbD_eq_decide v (by decide), getMsbD_eq_decide v (by decide), ?_⟩
  rw [getMsbD_eq_decide v (by decide), Nat.sub_self, pow_zero, Nat.div_one]

/-- FR, from the bits of the string. -/
theorem roundInc_eq_fctiInc (mode : RoundMode) (sign : Bool) :
    roundInc mode sign ((msbSlice v 0 65).getMsbD 64) (v.getMsbD 65) (v.getMsbD 66) (v.getMsbD 67) =
      fctiInc mode sign v.toNat := by
  obtain ⟨hg, hr, hx⟩ := guardBits_eq v
  rw [getMsbD_eq_decide (msbSlice v 0 65) (by decide), toNat_kept, Nat.sub_self, pow_zero, Nat.div_one, hg, hr, hx,
    fctiInc]

/-- FI: a bit below the unit is 1. -/
theorem guardBits_or_eq : (v.getMsbD 65 || v.getMsbD 66 || v.getMsbD 67) = decide (v.toNat % 2 ^ 3 ≠ 0) := by
  obtain ⟨hg, hr, hx⟩ := guardBits_eq v
  rw [hg, hr, hx, ← Bool.decide_or, ← Bool.decide_or]
  exact decide_eq_decide.mpr (by omega)

theorem kept_add_incBits (inc : Bool) :
    msbSlice v 0 65 + incBits 65 inc = BitVec.ofInt 65 (v.toNat / 2 ^ 3 + if inc then 1 else 0 : Nat) := by
  apply BitVec.eq_of_toNat_eq
  rw [BitVec.ofInt_natCast, BitVec.toNat_ofNat, BitVec.toNat_add, toNat_kept]
  cases inc <;> rfl

end

/-- The two's complement of R185 is the sign. -/
theorem applySign_bits (sign : Bool) (k : Nat) :
    (if sign then ~~~(BitVec.ofInt 65 k) + 1#65 else BitVec.ofInt 65 k) = BitVec.ofInt 65 (applySign sign k) := by
  cases sign with
  | false => rfl
  | true =>
    rw [if_pos rfl, ← BitVec.neg_eq_not_add, ← BitVec.ofInt_neg]
    rfl

/-- What Round Integer and the sign leave, as numbers (42_fcti.md R183 to R185). -/
theorem fctiRounded_eq (mode : RoundMode) (b : Dword) :
    fctiRounded mode b =
      (BitVec.ofInt 65 (applySign (dSign b) ((fctiShifted b).toNat / 2 ^ 3 +
          if fctiInc mode (dSign b) (fctiShifted b).toNat then 1 else 0)),
        fctiInc mode (dSign b) (fctiShifted b).toNat, decide ((fctiShifted b).toNat % 2 ^ 3 ≠ 0)) := by
  simp only [fctiRounded, roundInc_eq_fctiInc, guardBits_or_eq, kept_add_incBits, applySign_bits]

/-- Round Integer on an operand that passes the dispatch: the rounded operand in 65 bits, FR and FI. -/
theorem fctiRounded_of_roundsTo {b : Dword} {mode : RoundMode} {r : Int} (hb : dExp b ≤ 1086)
    (hr : RoundsTo mode (dValue b) dOne r) :
    fctiRounded mode b = (BitVec.ofInt 65 r, grew (dValue b) dOne r, inexact (dValue b) dOne r) := by
  have hshift := sameHalfUnits_fctiShifted hb
  rw [fctiRounded_eq]
  generalize hv : (fctiShifted b).toNat = v at hshift
  have hround := (fctiInc_roundsTo mode (dSign b) v).of_sameHalfUnits (hshift.applySign (dSign b))
  obtain rfl := hr.unique dOne_pos hround
  generalize hk : v / 2 ^ 3 + (if fctiInc mode (dSign b) v then 1 else 0) = k
  obtain ⟨hlt, hgt⟩ := hshift (2 * k)
  simp only [mul_assoc (2 : Int), ← Nat.cast_mul] at hlt hgt
  refine Prod.ext rfl (Prod.ext ?_ ?_)
  · rw [grew, natAbs_applySign_mul, natAbs_dValue, Bool.eq_iff_iff, decide_eq_true_iff]
    split_ifs at hk with hinc
    · exact iff_of_true hinc (by omega)
    · exact iff_of_false hinc (by omega)
  · rw [inexact, ← applySign_mul, dValue_eq]
    refine decide_eq_decide.mpr (not_congr ?_)
    rw [applySign_inj]
    by_cases hwhole : v % 2 ^ 3 = 0
    · rw [fctiInc_of_whole mode _ hwhole, if_neg Bool.false_ne_true] at hk
      exact iff_of_true hwhole (by omega)
    · exact iff_of_false hwhole (by omega)

end Sys2Proof.Machine
end

section
/-! PROOFS. What the conversions to integer leave (42_fcti.md R181, R186 to R191, R200): the rounded operand when it is in
the range of the target, else what the invalid-operation blocks write. -/

namespace Sys2Proof.Machine

/-! ### Integers of the target width -/

namespace IntTarget

variable (tgt : IntTarget)

theorem min_neg : tgt.min < 0 := by
  cases tgt <;> decide

theorem max_pos : 0 < tgt.max := by
  cases tgt <;> decide

theorem bounds : -2 ^ 63 ≤ tgt.min ∧ tgt.max < 2 ^ 63 := by
  cases tgt <;> decide

/-- FRT holds the integer it was written for, whatever the draw for the high word (42_fcti.md R187). -/
theorem read_frt {tgt : IntTarget} {i : Int} (n : Nat) (hmin : tgt.min ≤ i) (hmax : i ≤ tgt.max) :
    tgt.read (tgt.frt (BitVec.ofInt 64 i) n) = i := by
  cases tgt with
  | doubleword =>
    exact BitVec.toInt_ofInt_eq_self (by decide) hmin (Int.lt_of_le_sub_one hmax)
  | word =>
    have hlow : msbSlice (BitVec.ofInt 64 i) 32 32 = BitVec.ofInt 32 i := by
      apply BitVec.eq_of_toNat_eq
      rw [toNat_msbSlice, BitVec.toNat_ofInt, BitVec.toNat_ofInt]
      omega
    have hread : IntTarget.word.read (IntTarget.word.frt (BitVec.ofInt 64 i) n) = (BitVec.ofInt 32 i).toInt := by
      rw [← hlow]
      exact congrArg BitVec.toInt (msbSlice_append_right (n := 32) (Config.freeHighWord n) _)
    rw [hread]
    exact BitVec.toInt_ofInt_eq_self (by decide) hmin (Int.lt_of_le_sub_one hmax)

end IntTarget

/-- The doubleword of the 65-bit integer. -/
theorem msbSlice_ofInt (r : Int) : msbSlice (BitVec.ofInt 65 r) 1 64 = BitVec.ofInt 64 r := by
  apply BitVec.eq_of_toNat_eq
  rw [toNat_msbSlice, BitVec.toNat_ofInt, BitVec.toNat_ofInt]
  omega

/-! ### The main path and the dispatch -/

section
variable {b : Dword} {mode : RoundMode} {r : Int}

/-- A magnitude below 2^64 rounds to one that 65 bits hold with a sign. -/
theorem natAbs_lt_of_not_large (hb : dExp b ≤ 1086) (hr : RoundsTo mode (dValue b) dOne r) : r.natAbs < 2 ^ 64 := by
  obtain ⟨q, k, hsig, hk, hlow⟩ := exists_significand b
  have hq : q ≤ 1084 + 1 := by
    rw [dExp_eq, hlow] at hb
    obtain ⟨-, hlead⟩ := hsig
    omega
  have hmag := significand_lt_halfway hk hq
  have hsmall : dOne ≤ 2 ^ 1084 := pow_le_pow_right₀ one_le_two (by decide)
  have hlimit : 2 ^ (54 + 1084) = 2 ^ 64 * dOne := by rw [dOne, ← pow_add]
  have hnear := hr.natAbs_mul_lt dOne_pos
  rw [natAbs_dValue, dMagnitude_of_significand hsig hlow, Int.natAbs_mul, Int.natAbs_natCast] at hnear
  rw [hlimit] at hmag
  refine Nat.lt_of_mul_lt_mul_right (a := dOne) ?_
  omega

/-- A result in the range of a target belongs to an operand that passes the dispatch. -/
theorem not_large_of_in_range {tgt : IntTarget} (hr : RoundsTo mode (dValue b) dOne r) (hmin : tgt.min ≤ r)
    (hmax : r ≤ tgt.max) : dExp b ≤ 1086 := by
  obtain ⟨hlow, hhigh⟩ := tgt.bounds
  have hnear := hr.natAbs_lt dOne_pos
  rw [← not_lt, largeOperand_iff, not_le, ← natAbs_dValue]
  rw [Int.natAbs_mul, Int.natAbs_natCast] at hnear
  calc (dValue b).natAbs < r.natAbs * dOne + dOne := hnear
    _ = (r.natAbs + 1) * dOne := by ring
    _ ≤ 2 ^ 64 * dOne := Nat.mul_le_mul_right _ (by omega)

/-- The main path: the range check decides on the rounded operand. -/
theorem fctiMain_of_roundsTo (tgt : IntTarget) (f : Fpscr) (n : Nat) (hb : dExp b ≤ 1086)
    (hr : RoundsTo mode (dValue b) dOne r) :
    fctiMain tgt mode b f n =
      if tgt.max < r ∨ r < tgt.min then fctiSaturate tgt b (f.afterRounding (dValue b) dOne r) n
      else
        { frt := some (tgt.frt (BitVec.ofInt 64 r) n)
          fpscr := (f.afterRounding (dValue b) dOne r).setFprf (.draw n)
          draws := 1
          raised := [] } := by
  have hlt := natAbs_lt_of_not_large hb hr
  have hint : (BitVec.ofInt 65 r).toInt = r :=
    BitVec.toInt_ofInt_eq_self (by decide) (by omega) (by omega)
  simp only [fctiMain, fctiRounded_of_roundsTo hb hr, hint, msbSlice_ofInt]
  rfl

theorem fctiResult_of_isFinite (tgt : IntTarget) (f : Fpscr) (n : Nat) (hb : isFinite b = true) :
    fctiResult tgt mode b f n = if 1086 < dExp b then fctiSaturate tgt b f n else fctiMain tgt mode b f n := by
  have hexp : dExp b ≠ 2047 := (of_decide_eq_true hb : dExp b < 2047).ne
  simp only [fctiResult, hexp, false_and, ↓reduceIte]

theorem fctiResult_of_in_range (tgt : IntTarget) (f : Fpscr) (n : Nat) (hb : isFinite b = true)
    (hr : RoundsTo mode (dValue b) dOne r) (hmin : tgt.min ≤ r) (hmax : r ≤ tgt.max) :
    fctiResult tgt mode b f n =
      { frt := some (tgt.frt (BitVec.ofInt 64 r) n)
        fpscr := (f.afterRounding (dValue b) dOne r).setFprf (.draw n)
        draws := 1
        raised := [] } := by
  have hsmall := not_large_of_in_range hr hmin hmax
  rw [fctiResult_of_isFinite tgt f n hb, if_neg (not_lt.mpr hsmall), fctiMain_of_roundsTo tgt f n hsmall hr,
    if_neg (not_or.mpr ⟨not_lt.mpr hmax, not_lt.mpr hmin⟩)]

/-! ### Invalid operands -/

/-- The operands of the four invalid-operation blocks: an infinity, a NaN, a number that rounds outside the range. -/
def ConvertsInvalid (tgt : IntTarget) (mode : RoundMode) (b : Dword) : Prop :=
  isFinite b = false ∨ ∃ r, RoundsTo mode (dValue b) dOne r ∧ (r < tgt.min ∨ tgt.max < r)

/-- The integer those blocks deliver: the least for a NaN, else the end of the range by the sign. -/
def IntTarget.ofInvalid (tgt : IntTarget) (b : Dword) : Int := if isNaN b || dSign b then tgt.min else tgt.max

theorem IntTarget.ofInvalid_in_range (tgt : IntTarget) (b : Dword) :
    tgt.min ≤ tgt.ofInvalid b ∧ tgt.ofInvalid b ≤ tgt.max := by
  have hmin := tgt.min_neg
  have hmax := tgt.max_pos
  unfold IntTarget.ofInvalid
  split_ifs <;> omega

/-- XX as R183 sets it: the operand passes the dispatch and is no integer. -/
def setsInexact (b : Dword) : Bool :=
  isFinite b && decide ((dValue b).natAbs < 2 ^ 64 * dOne) && decide (dValue b % dOne ≠ 0)

theorem setsInexact_of_not_isFinite (h : isFinite b = false) : setsInexact b = false := by
  rw [setsInexact, h, Bool.false_and, Bool.false_and]

theorem setsInexact_of_isFinite (h : isFinite b = true) (hr : RoundsTo mode (dValue b) dOne r) :
    setsInexact b = (decide ((dValue b).natAbs < 2 ^ 64 * dOne) && inexact (dValue b) dOne r) := by
  rw [setsInexact, h, Bool.true_and, hr.inexact_eq dOne_pos]

theorem setsInexact_of_large (h : 1086 < dExp b) : setsInexact b = false := by
  rw [largeOperand_iff, ← natAbs_dValue] at h
  rw [setsInexact, decide_eq_false (not_lt.mpr h), Bool.and_false, Bool.false_and]

theorem setsInexact_of_not_large (h : dExp b ≤ 1086) (hr : RoundsTo mode (dValue b) dOne r) :
    setsInexact b = inexact (dValue b) dOne r := by
  have hfinite : isFinite b = true := decide_eq_true (by omega)
  rw [← not_lt, largeOperand_iff, not_le, ← natAbs_dValue] at h
  rw [setsInexact_of_isFinite hfinite hr, decide_eq_true h, Bool.true_and]

theorem fctiResult_of_not_isFinite (tgt : IntTarget) (f : Fpscr) (n : Nat) (h : isFinite b = false) :
    fctiResult tgt mode b f n = fctiInvalid tgt (BitVec.ofInt 64 (tgt.ofInvalid b)) (isSNaN b) f n := by
  have hexp : dExp b = 2047 := by
    have hge := of_decide_eq_false h
    unfold dExp at hge ⊢
    omega
  rw [fctiResult, IntTarget.ofInvalid, isSNaN]
  by_cases hfrac : dFrac b = 0
  · have hnan : isNaN b = false := by simp [isNaN, hfrac]
    rw [if_pos ⟨hexp, hfrac⟩, hnan, Bool.false_or, Bool.false_and]
    rfl
  · have hnan : isNaN b = true := (isNaN_iff b).mpr ⟨hexp, hfrac⟩
    rw [if_neg (fun hinf => hfrac hinf.2), hnan, Bool.true_or, Bool.true_and, if_pos rfl]
    cases hquiet : dQuiet b with
    | false => exact if_pos ⟨hexp, rfl⟩
    | true =>
      rw [if_neg (by simp), if_pos ⟨hexp, rfl⟩]
      rfl

/-- Every invalid operand ends in the one block, its integer and sticky bits by the kind of operand. -/
theorem fctiResult_of_convertsInvalid (tgt : IntTarget) (f : Fpscr) (n : Nat) (h : ConvertsInvalid tgt mode b) :
    fctiResult tgt mode b f n =
      fctiInvalid tgt (BitVec.ofInt 64 (tgt.ofInvalid b)) (isSNaN b) (f.setXx (setsInexact b)) n := by
  cases hfinite : isFinite b with
  | false => rw [fctiResult_of_not_isFinite tgt f n hfinite, setsInexact_of_not_isFinite hfinite, Fpscr.setXx_false]
  | true =>
    obtain ⟨r, hr, hout⟩ := h.resolve_left (by simp [hfinite])
    have hint : BitVec.ofInt 64 (tgt.ofInvalid b) = tgt.saturated (dSign b) := by
      rw [IntTarget.ofInvalid, not_isNaN_of_isFinite hfinite, Bool.false_or, IntTarget.saturated]
    rw [fctiResult_of_isFinite tgt f n hfinite, hint, not_isSNaN_of_isFinite hfinite]
    by_cases hlarge : 1086 < dExp b
    · rw [if_pos hlarge, setsInexact_of_large hlarge, Fpscr.setXx_false, fctiSaturate]
    · have hsmall := not_lt.mp hlarge
      rw [if_neg hlarge, fctiMain_of_roundsTo tgt f n hsmall hr, if_pos hout.symm, setsInexact_of_not_large hsmall hr]
      -- The block overwrites FR and FI.
      rfl

/-- The sign of an operand outside the range says which end it is beyond. -/
theorem ofInvalid_of_roundsTo {tgt : IntTarget} (hb : isFinite b = true) (hr : RoundsTo mode (dValue b) dOne r)
    (hout : r < tgt.min ∨ tgt.max < r) : tgt.ofInvalid b = if r < tgt.min then tgt.min else tgt.max := by
  have hmin := tgt.min_neg
  have hmax := tgt.max_pos
  obtain ⟨k, hk⟩ := hr.exists_applySign dOne_pos
  rw [IntTarget.ofInvalid, not_isNaN_of_isFinite hb, Bool.false_or]
  cases hsign : dSign b with
  | false =>
    have hpos : r = k := by rw [hk, hsign]; rfl
    rw [if_neg Bool.false_ne_true, if_neg (by omega)]
  | true =>
    have hneg : r = -k := by rw [hk, hsign]; rfl
    rw [if_pos rfl, if_pos (by omega)]

end

/-- The FPSCR after an invalid operand, but for FPRF (42_fcti.md R200). -/
def Fpscr.afterInvalid (f : Fpscr) (b : Dword) : Fpscr :=
  { f with vxcvi := true, vxsnan := f.vxsnan || isSNaN b, fr := false, fi := false, xx := f.xx || setsInexact b }

theorem fctiInvalid_fpscr (tgt : IntTarget) (i : Dword) (b : Dword) (f : Fpscr) (n : Nat) :
    (fctiInvalid tgt i (isSNaN b) (f.setXx (setsInexact b)) n).fpscr =
      if f.ve then f.afterInvalid b else (f.afterInvalid b).setFprf (.draw n) := by
  have hbits : (((f.setXx (setsInexact b)).setFrFi false false).setVxcvi true).setVxsnan (isSNaN b) =
      f.afterInvalid b := by
    simp [Fpscr.setXx, Fpscr.setFrFi, Fpscr.setVxcvi, Fpscr.setVxsnan, Fpscr.afterInvalid]
  rw [← hbits]
  rfl

/-- VXCVI comes first (60_exceptions.md R255(a)). -/
theorem fctiInvalid_raised (tgt : IntTarget) (i : Dword) (snan : Bool) (f : Fpscr) (n : Nat) :
    (fctiInvalid tgt i snan f n).raised = .vxcvi :: if snan then [.vxsnan] else [] := by
  cases snan <;> rfl

end Sys2Proof.Machine
end

section
/-! PROOFS. How a floating-point instruction ends (60_exceptions.md R252), and so how the conversions to integer do
(42_fcti.md R199). -/

namespace Sys2Proof.Machine

/-! ### Ends -/

section
variable {may : List StatusField} {s : State} {r : FpResult} (frt : FReg) (hadv : s.canAdvance = true)
  (hu : s.fpscr.Updates may r.fpscr)
include hadv hu

/-- A floating-point instruction that writes its target and raises no enabled bit completes (60_exceptions.md R252). -/
theorem completeFp_completes {v : Dword} (hv : r.frt = some v) (hoff : ∀ bit ∈ r.raised, s.fpscr.enables bit = false) :
    ∃ t, completeFp s frt r = .next t ∧ t.readF frt = v ∧ t.fpscr = r.fpscr ∧ FloatFrame frt s t ∧
      t.pc = s.pc + 4#64 := by
  refine ⟨_, completeFp_eq_next.mpr ⟨hadv, fun bit hbit => (hu.enables bit).trans (hoff bit hbit), rfl⟩, ?_, rfl,
    (floatFrame_writeFp frt hu).advance, ?_⟩
  · rw [hv]
    exact State.readF_writeF_same s frt v
  · rw [hv]
    rfl

/-- One whose first raised bit is enabled makes its writes, then stops for that bit (60_exceptions.md R252, R255(a)). -/
theorem completeFp_stops {bit : FpBit} {rest : List FpBit} (hraised : r.raised = bit :: rest)
    (hon : s.fpscr.enables bit = true) :
    completeFp s frt r = .fault (.fpEnabledException bit (s.writeFp frt r)) := by
  have hset : (s.writeFp frt r).fpscr.enables bit = true := (hu.enables bit).trans hon
  have hend : completeFp s frt r = raiseOrAdvance (s.writeFp frt r) r.raised := sequential_of_canAdvance hadv _
  rw [hend, hraised, raiseOrAdvance, List.find?_cons_of_pos hset]

end

/-! ### The conversions to integer -/

theorem exec_fcti (tgt : IntTarget) (z : Bool) (frt frb : FReg) (s : State) :
    exec (tgt.instr z frt frb) s =
      completeFp s frt (fctiResult tgt (convertMode z s.fpscr) (s.readF frb) s.fpscr s.draws) := by
  cases tgt <;> cases z <;> rfl

section
variable {tgt : IntTarget} {z : Bool} {frb : FReg} {s : State} (frt : FReg) (hadv : s.canAdvance = true)
  (h : ConvertsInvalid tgt (convertMode z s.fpscr) (s.readF frb))
include hadv h

/-- With VE = 0 an invalid operand gives its integer. -/
theorem exec_fcti_invalid_completes (hve : s.fpscr.ve = false) :
    ∃ t, exec (tgt.instr z frt frb) s = .next t ∧ tgt.read (t.readF frt) = tgt.ofInvalid (s.readF frb) ∧
      t.fpscr = { s.fpscr.afterInvalid (s.readF frb) with fprf := t.fpscr.fprf } ∧
      FloatFrame frt s t ∧ t.pc = s.pc + 4#64 := by
  have hu := fctiResult_updates (s.readF frb) s.draws (f := s.fpscr) tgt (convertMode z s.fpscr)
  have hfpscr := fctiInvalid_fpscr tgt (BitVec.ofInt 64 (tgt.ofInvalid (s.readF frb))) (s.readF frb) s.fpscr s.draws
  have hraised := fctiInvalid_raised tgt (BitVec.ofInt 64 (tgt.ofInvalid (s.readF frb))) (isSNaN (s.readF frb))
    (s.fpscr.setXx (setsInexact (s.readF frb))) s.draws
  have hoff : ∀ bit ∈ FpBit.vxcvi :: (if isSNaN (s.readF frb) then [.vxsnan] else []), s.fpscr.enables bit = false := by
    split_ifs <;> simp [Fpscr.enables, hve]
  rw [exec_fcti]
  rw [fctiResult_of_convertsInvalid tgt s.fpscr s.draws h] at hu ⊢
  obtain ⟨t, hexec, hread, ht, hrest⟩ := completeFp_completes frt hadv hu (if_neg (by simp [hve])) (hraised ▸ hoff)
  rw [if_neg (by simp [hve]), ← ht] at hfpscr
  refine ⟨t, hexec, ?_, ?_, hrest⟩
  · obtain ⟨hmin, hmax⟩ := tgt.ofInvalid_in_range (s.readF frb)
    rw [hread, IntTarget.read_frt s.draws hmin hmax]
  · rw [hfpscr]
    rfl

/-- With VE = 1 it stops the model, and FRT and FPRF keep their values. -/
theorem exec_fcti_invalid_stops (hve : s.fpscr.ve = true) :
    ∃ t, exec (tgt.instr z frt frb) s = .fault (.fpEnabledException .vxcvi t) ∧ (∀ j, t.readF j = s.readF j) ∧
      t.fpscr = s.fpscr.afterInvalid (s.readF frb) ∧ FloatFrame frt s t ∧ t.pc = s.pc := by
  have hu := fctiResult_updates (s.readF frb) s.draws (f := s.fpscr) tgt (convertMode z s.fpscr)
  have hfpscr := fctiInvalid_fpscr tgt (BitVec.ofInt 64 (tgt.ofInvalid (s.readF frb))) (s.readF frb) s.fpscr s.draws
  rw [if_pos hve] at hfpscr
  have hraised := fctiInvalid_raised tgt (BitVec.ofInt 64 (tgt.ofInvalid (s.readF frb))) (isSNaN (s.readF frb))
    (s.fpscr.setXx (setsInexact (s.readF frb))) s.draws
  rw [exec_fcti]
  rw [fctiResult_of_convertsInvalid tgt s.fpscr s.draws h] at hu ⊢
  refine ⟨_, completeFp_stops frt hadv hu hraised hve, fun j => ?_, hfpscr, floatFrame_writeFp frt hu, ?_⟩
  · simp [State.writeFp, fctiInvalid, hve, State.readF]
  · simp [State.writeFp]

end

end Sys2Proof.Machine
end

section
/-! PROOFS. With the rounding mode given, the conversions to integer only copy RN, and round toward zero writes FR = 0
(42_fcti.md R196, R198). -/

namespace Sys2Proof.Machine

section
variable (tgt : IntTarget) (b : Dword) (f : Fpscr) (n : Nat) (rn : BitVec 2)

/-- Whatever the FPSCR holds, the dispatch leads to an invalid-operation block or to the main path. -/
theorem fctiResult_cases (mode : RoundMode) :
    (∃ i snan, ∀ f, fctiResult tgt mode b f n = fctiInvalid tgt i snan f n) ∨
      ∀ f, fctiResult tgt mode b f n = fctiMain tgt mode b f n := by
  unfold fctiResult
  split_ifs
  · exact .inl ⟨_, _, fun _ => rfl⟩
  · exact .inl ⟨_, _, fun _ => rfl⟩
  · exact .inl ⟨_, _, fun _ => rfl⟩
  · exact .inl ⟨_, _, fun _ => rfl⟩
  · exact .inr fun _ => rfl

/-- `f` with another rounding mode. -/
def Fpscr.withRn (f : Fpscr) (rn : BitVec 2) : Fpscr := { f with rn := rn }

/-- `r` with another rounding mode in the FPSCR it leaves. -/
def FpResult.withRn (r : FpResult) (rn : BitVec 2) : FpResult := { r with fpscr := r.fpscr.withRn rn }

theorem fctiInvalid_withRn (i : Dword) (snan : Bool) :
    fctiInvalid tgt i snan (f.withRn rn) n = (fctiInvalid tgt i snan f n).withRn rn := by
  obtain ⟨_, ve⟩ := f
  cases ve <;> rfl

theorem fctiMain_withRn (mode : RoundMode) :
    fctiMain tgt mode b (f.withRn rn) n = (fctiMain tgt mode b f n).withRn rn := by
  simp only [fctiMain]
  split_ifs
  · exact fctiInvalid_withRn tgt ((f.setXx _).setFrFi _ _) n rn _ _
  · rfl

/-- With the mode given, RN is only copied. -/
theorem fctiResult_withRn (mode : RoundMode) :
    fctiResult tgt mode b (f.withRn rn) n = (fctiResult tgt mode b f n).withRn rn := by
  rcases fctiResult_cases tgt b n mode with ⟨i, snan, hinvalid⟩ | hmain
  · rw [hinvalid, hinvalid]
    exact fctiInvalid_withRn tgt f n rn i snan
  · rw [hmain, hmain]
    exact fctiMain_withRn tgt b f n rn mode

theorem completeFp_withRn {s t : State} {frt : FReg} {r : FpResult} (h : completeFp s frt r = .next t) :
    completeFp (s.withRn rn) frt (r.withRn rn) = .next (t.withRn rn) := by
  obtain ⟨hadv, hoff, rfl⟩ := completeFp_eq_next.mp h
  refine completeFp_eq_next.mpr ⟨hadv, fun bit hbit => ?_, ?_⟩
  · have hbit := hoff bit hbit
    cases bit <;> exact hbit
  · rw [show (r.withRn rn).frt = r.frt from rfl]
    cases r.frt <;> rfl

theorem fctiInvalid_fr (i : Dword) (snan : Bool) : (fctiInvalid tgt i snan f n).fpscr.fr = false := by
  cases hve : f.ve <;> simp [fctiInvalid, hve]

/-- Round toward zero never increments. -/
theorem fctiMain_zero_fr : (fctiMain tgt .zero b f n).fpscr.fr = false := by
  simp only [fctiMain]
  split_ifs
  · exact fctiInvalid_fr tgt _ n _ _
  · rfl

theorem fctiResult_zero_fr : (fctiResult tgt .zero b f n).fpscr.fr = false := by
  rcases fctiResult_cases tgt b n .zero with ⟨i, snan, hinvalid⟩ | hmain
  · rw [hinvalid]
    exact fctiInvalid_fr tgt f n i snan
  · rw [hmain]
    exact fctiMain_zero_fr tgt b f n

end

end Sys2Proof.Machine
end

section
/-! PROOFS. The statements about the conversions to integer (42_fcti.md), and the refusal of the absent conversions
(42_fcti.md R197, R198; 43_fcfid.md R220). -/

namespace Sys2Proof.Machine

/-! ### In range and out of range -/

/-- Settles O38: what fits comes from an operand that passes the dispatch, and Round Integer rounds it. -/
theorem convertToIntegerRounds : Obligations.ConvertToIntegerRounds := by
  intro tgt z frt frb s r hadv hb x hr hmin hmax
  have hu := fctiResult_updates (s.readF frb) s.draws (f := s.fpscr) tgt (convertMode z s.fpscr)
  rw [exec_fcti]
  rw [fctiResult_of_in_range tgt s.fpscr s.draws hb hr hmin hmax] at hu ⊢
  obtain ⟨t, hexec, hread, hfpscr, hrest⟩ := completeFp_completes frt hadv hu rfl (by simp)
  refine ⟨t, hexec, ?_, ?_, hrest⟩
  · rw [hread, IntTarget.read_frt s.draws hmin hmax]
  · rw [hfpscr]
    rfl

/-- Settles O39: an operand beyond an end of the range has that end's sign. -/
theorem convertToIntegerSaturates : Obligations.ConvertToIntegerSaturates := by
  intro tgt z frt frb s r hadv hve hb x hr hout
  obtain ⟨t, hexec, hread, hfpscr, hrest⟩ := exec_fcti_invalid_completes frt hadv (.inr ⟨r, hr, hout⟩) hve
  rw [ofInvalid_of_roundsTo hb hr hout] at hread
  rw [Fpscr.afterInvalid, not_isSNaN_of_isFinite hb, Bool.or_false, setsInexact_of_isFinite hb hr] at hfpscr
  exact ⟨t, hexec, hread, hfpscr, hrest⟩

/-! ### Infinity and NaN -/

theorem not_isFinite_of_isInf {v : Dword} (h : isInf v = true) : isFinite v = false :=
  Bool.eq_false_iff.mpr fun hfinite => absurd (h.symm.trans (not_isInf_of_isFinite hfinite)) (by decide)

theorem not_isFinite_of_isNaN {v : Dword} (h : isNaN v = true) : isFinite v = false :=
  Bool.eq_false_iff.mpr fun hfinite => absurd (h.symm.trans (not_isNaN_of_isFinite hfinite)) (by decide)

/-- Settles O40: an infinity is no NaN, so its sign decides. -/
theorem convertInfinitySaturates : Obligations.ConvertInfinitySaturates := by
  intro tgt z frt frb s hadv hve hinf
  have hfinite := not_isFinite_of_isInf hinf
  have hnan := not_isNaN_of_isInf hinf
  obtain ⟨t, hexec, hread, hfpscr, hrest⟩ :=
    exec_fcti_invalid_completes (tgt := tgt) (z := z) frt hadv (.inl hfinite) hve
  rw [IntTarget.ofInvalid, hnan, Bool.false_or] at hread
  rw [Fpscr.afterInvalid, isSNaN, hnan, Bool.false_and, Bool.or_false, setsInexact_of_not_isFinite hfinite,
    Bool.or_false] at hfpscr
  exact ⟨t, hexec, hread, hfpscr, hrest⟩

/-- Settles O41: a NaN gives the least integer before its sign is read. -/
theorem convertNaNGivesTheLeastInteger : Obligations.ConvertNaNGivesTheLeastInteger := by
  intro tgt z frt frb s hadv hve hnan
  have hfinite := not_isFinite_of_isNaN hnan
  obtain ⟨t, hexec, hread, hfpscr, hrest⟩ :=
    exec_fcti_invalid_completes (tgt := tgt) (z := z) frt hadv (.inl hfinite) hve
  rw [IntTarget.ofInvalid, hnan, Bool.true_or, if_pos rfl] at hread
  rw [Fpscr.afterInvalid, isSNaN, hnan, Bool.true_and, setsInexact_of_not_isFinite hfinite, Bool.or_false] at hfpscr
  exact ⟨t, hexec, hread, hfpscr, hrest⟩

/-! ### VE = 1, and RN -/

/-- Settles O42: VXCVI is the first bit each invalid-operation block raises, and VE withholds FRT and FPRF. -/
theorem convertInvalidEnabledStops : Obligations.ConvertInvalidEnabledStops :=
  fun _ _ frt _ _ hadv hve h => exec_fcti_invalid_stops frt hadv h hve

/-- Settles O43: the mode is round toward zero, so RN is only copied, and nothing increments. -/
theorem convertTowardZeroIgnoresRn : Obligations.ConvertTowardZeroIgnoresRn := by
  intro tgt frt frb rn s t hexec
  rw [exec_fcti] at hexec ⊢
  have hother := completeFp_withRn rn hexec
  rw [← fctiResult_withRn] at hother
  refine ⟨hother, ?_⟩
  obtain ⟨-, -, rfl⟩ := completeFp_eq_next.mp hexec
  exact fctiResult_zero_fr tgt (s.readF frb) s.fpscr s.draws

/-! ### Absent conversions -/

/-- A word of a row that needs `HAS_FP64INT` is refused by name where it is false. -/
theorem decodeWord_of_absent_row {w : Word} {xo : BitVec 10} {make : FReg → FReg → Instr}
    (hrow : UnaryRow xo make true) (h : w &&& 0xFC1F07FF#32 = encodeUnary xo 0 0) :
    decodeWord false w = .refused .absentInstruction := by
  obtain ⟨hopcd, -, -, -, hxo, -⟩ := eq_encodeUnary.mp (eq_encodeUnary_of_masked h)
  rw [decodeWord_float hopcd, decodeFloat, hxo]
  cases hrow <;> rfl

/-- The rows named in 93 U9 are those of `UnaryRow` that need `HAS_FP64INT`. -/
theorem absentRow_cases : ∀ row ∈ opcodeTable, row.mnemonic ∈ ["fctid", "fctidz", "fcfid"] →
    row.mask = 0xFC1F07FF#32 ∧
      (row.value = encodeUnary 814#10 0 0 ∨ row.value = encodeUnary 815#10 0 0 ∨
        row.value = encodeUnary 846#10 0 0) := by
  decide

/-- Settles O59: a matching word has the extended opcode of its row, and the decoder asks for `HAS_FP64INT` first. -/
theorem absentConversionsAreRefused : Obligations.AbsentConversionsAreRefused := by
  intro s w row hhas hrow hname h
  have hdec : decodeWord s.params.hasFp64Int w = .refused .absentInstruction := by
    obtain ⟨hmask, hvalue⟩ := absentRow_cases row hrow hname
    rw [hmask] at h
    rw [hhas]
    rcases hvalue with hvalue | hvalue | hvalue
    · exact decodeWord_of_absent_row .fctid (h.trans hvalue)
    · exact decodeWord_of_absent_row .fctidz (h.trans hvalue)
    · exact decodeWord_of_absent_row .fcfid (h.trans hvalue)
  exact ⟨hdec, fun hfetch => step_of_decode_refused hfetch hdec⟩

end Sys2Proof.Machine
end

section
/-! PROOFS. Round Float as rounding to 53 significant bits (43_fcfid.md R221, R223): the magnitude of the integer is
normalized to 64 bits, of which the low 11 are rounded away. -/

namespace Sys2Proof.Machine

/-! ### The magnitude -/

theorem toNat_magnitude (b : Dword) : (if b.getMsbD 0 then ~~~b + 1#64 else b).toNat = b.toInt.natAbs := by
  have hlt := b.isLt
  have hmsb : b.getMsbD 0 = decide (2 ^ 63 ≤ b.toNat) := dSign_eq b
  rw [← BitVec.neg_eq_not_add, BitVec.toInt_eq_msb_cond, BitVec.msb_eq_decide, hmsb]
  split_ifs with hneg
  · rw [decide_eq_true_iff] at hneg
    rw [BitVec.toNat_neg]
    omega
  · rfl

/-- The Normalize loop on a non-zero magnitude: it brings the leading bit to bit 0 of the 64. -/
theorem exists_normalized_magnitude {m : BitVec 64} (h0 : m.toNat ≠ 0) :
    ∃ j : Nat, m.toNat.log2 + j = 63 ∧ (normalizeFrac 64 63 m).1 = 63 - j ∧
      (normalizeFrac 64 63 m).2.toNat = m.toNat * 2 ^ j ∧ 2 ^ 63 ≤ (normalizeFrac 64 63 m).2.toNat := by
  obtain ⟨j, hexp, hfrac, hlead, hlt⟩ := normalizeFrac_spec 64 63 m h0 (by omega)
  have hj : 2 ^ j < 2 ^ 64 := (Nat.le_mul_of_pos_left _ (Nat.pos_of_ne_zero h0)).trans_lt hlt
  have hj63 : j ≤ 63 := Nat.lt_succ_iff.mp ((Nat.pow_lt_pow_iff_right one_lt_two).mp hj)
  have hpow : 2 ^ (63 - j) * 2 ^ j = 2 ^ 63 := by rw [← pow_add, Nat.sub_add_cancel hj63]
  have hlog : m.toNat.log2 = 63 - j := by
    rw [Nat.log2_eq_iff h0, ← Nat.mul_le_mul_right_iff (Nat.two_pow_pos j),
      ← Nat.mul_lt_mul_right (Nat.two_pow_pos j), pow_succ, mul_right_comm, hpow]
    omega
  exact ⟨j, by omega, hexp, hfrac, by omega⟩

/-! ### Round Float -/

theorem roundInc_of_no_bits (mode : RoundMode) (sign lsb : Bool) :
    roundInc mode sign lsb false false false = false := by
  cases mode <;> simp [roundInc]

/-- `inc` of Round Float on a normalized magnitude (43_fcfid.md R223). -/
def roundFloatInc (mode : RoundMode) (sign : Bool) (v : BitVec 64) : Bool :=
  roundInc mode sign (v.getMsbD 52) (v.getMsbD 53) (v.getMsbD 54) (msbSlice v 55 9 ≠ 0)

/-- The bits Round Float discards. -/
def roundFloatDiscards (v : BitVec 64) : Bool := v.getMsbD 53 || v.getMsbD 54 || decide (msbSlice v 55 9 ≠ 0)

section
variable (mode : RoundMode) (sign : Bool) (v : BitVec 64)

/-- The units of bit 52 that Round Float keeps. -/
def roundFloatUnits : Nat := v.toNat / 2 ^ 11 + if roundFloatInc mode sign v then 1 else 0

theorem roundFloatDiscards_eq : roundFloatDiscards v = decide (v.toNat % 2 ^ 11 ≠ 0) := by
  rw [roundFloatDiscards, getMsbD_eq_decide v (by decide), getMsbD_eq_decide v (by decide), msbSlice_ne_zero,
    Bool.eq_iff_iff]
  simp only [Bool.or_eq_true, decide_eq_true_eq]
  omega

theorem roundFloatInc_of_whole (h : v.toNat % 2 ^ 11 = 0) : roundFloatInc mode sign v = false := by
  have hnone := roundFloatDiscards_eq v
  rw [decide_eq_false (not_not.mpr h), roundFloatDiscards, Bool.or_eq_false_iff, Bool.or_eq_false_iff] at hnone
  obtain ⟨⟨hg, hr⟩, hx⟩ := hnone
  rw [roundFloatInc, hg, hr, hx, roundInc_of_no_bits]

/-- The kept bits with the increment FR are the normalized magnitude rounded to units of bit 52. -/
theorem roundFloatUnits_roundsTo :
    RoundsTo mode (applySign sign v.toNat) (2 ^ 11) (applySign sign (roundFloatUnits mode sign v)) := by
  obtain ⟨-, hrest⟩ := guard_bits v.toNat 11
  have hlsb : v.getMsbD 52 = decide (v.toNat / 2 ^ 11 % 2 = 1) := getMsbD_eq_decide v (by decide)
  have hguard : v.getMsbD 53 = decide (2 ^ 11 ≤ 2 * (v.toNat % 2 ^ 11)) := by
    rw [getMsbD_eq_decide v (by decide)]
    exact decide_eq_decide.mpr (by omega)
  have hlow : (v.getMsbD 54 || decide (msbSlice v 55 9 ≠ 0)) = decide (v.toNat % 2 ^ 10 ≠ 0) := by
    rw [getMsbD_eq_decide v (by decide), msbSlice_ne_zero, Bool.eq_iff_iff]
    simp only [Bool.or_eq_true, decide_eq_true_eq]
    omega
  have hround := roundInc_roundsTo mode sign _ _ _ (v.toNat / 2 ^ 11) _ _ (Nat.mod_lt v.toNat (Nat.two_pow_pos 11))
    hguard (hlow.trans hrest)
  rw [Nat.div_add_mod', ← hlsb] at hround
  exact hround

/-- FR says that the kept units are more than the magnitude. -/
theorem roundFloatInc_eq : roundFloatInc mode sign v = decide (v.toNat < roundFloatUnits mode sign v * 2 ^ 11) := by
  unfold roundFloatUnits
  cases roundFloatInc mode sign v with
  | false => exact (decide_eq_false (by simp only [Bool.false_eq_true, ↓reduceIte]; omega)).symm
  | true => exact (decide_eq_true (by simp only [↓reduceIte]; omega)).symm

/-- FI says that they are not equal to it. -/
theorem roundFloatDiscards_eq_units :
    roundFloatDiscards v = decide (roundFloatUnits mode sign v * 2 ^ 11 ≠ v.toNat) := by
  rw [roundFloatDiscards_eq, roundFloatUnits]
  refine decide_eq_decide.mpr (not_congr ⟨fun h => ?_, fun h => ?_⟩)
  · rw [roundFloatInc_of_whole mode sign v h, if_neg Bool.false_ne_true]
    omega
  · omega

/-! ### The result -/

/-- The exponent of the result: the next one when the increment carries out of the kept bits. -/
def roundFloatExp (exp : Int) : Int :=
  if roundFloatInc mode sign v && decide (msbSlice v 0 53 = BitVec.allOnes 53) then exp + 1 else exp

/-- The pattern Round Float delivers (43_fcfid.md R223). -/
def packFloat (exp : Int) : Dword :=
  BitVec.ofBool sign ++ BitVec.ofInt 11 (roundFloatExp mode sign v exp + 1023) ++
    msbSlice (msbSlice v 0 53 + incBits 53 (roundFloatInc mode sign v)) 1 52

variable {v} (hlead : 2 ^ 63 ≤ v.toNat)
include hlead

theorem isSignificand_roundFloatUnits (q : Nat) : IsSignificand q (roundFloatUnits mode sign v) := by
  have hlt := v.isLt
  unfold roundFloatUnits IsSignificand
  split_ifs <;> omega

/-- The pattern is the same with and without a carry. -/
theorem packFloat_eq {exp : Int} {q : Nat} (hq : exp + 1022 = q) :
    packFloat mode sign v exp = BitVec.ofBool sign ++ BitVec.ofNat 63 (q * 2 ^ 52 + roundFloatUnits mode sign v) := by
  have hlt := v.isLt
  have hkept : (msbSlice v 0 53).toNat = v.toNat / 2 ^ 11 := by
    rw [toNat_msbSlice]
    omega
  have hall : decide (msbSlice v 0 53 = BitVec.allOnes 53) = decide (v.toNat / 2 ^ 11 = 2 ^ 53 - 1) :=
    decide_eq_decide.mpr (by rw [← BitVec.toNat_inj, hkept, BitVec.toNat_allOnes])
  apply BitVec.eq_of_toNat_eq
  rw [packFloat, roundFloatExp, roundFloatUnits, toNat_packed, toNat_append_add, toNat_append_add, toNat_msbSlice,
    BitVec.toNat_add, hkept, BitVec.toNat_ofInt, BitVec.toNat_ofBool, hall]
  cases roundFloatInc mode sign v with
  | false =>
    simp only [incBits, Bool.false_and, Bool.false_eq_true, ↓reduceIte, BitVec.toNat_ofNat]
    omega
  | true =>
    simp only [incBits, Bool.true_and, decide_eq_true_eq, ↓reduceIte, BitVec.toNat_ofNat]
    split_ifs <;> omega

end

end Sys2Proof.Machine
end

section
/-! PROOFS. `fcfid` delivers the integer rounded to 53 significant bits, and always completes (43_fcfid.md R220 to
R224). -/

namespace Sys2Proof.Machine

/-- The unit of the last of the 53 leading bits of `n`; 1 when `n` has fewer. -/
def doubleUnit (n : Int) : Nat := 2 ^ (n.natAbs.log2 - 52)

/-- A number rounded in one unit, scaled: it is rounded in the scaled unit, or exact in both. -/
theorem RoundsTo.exists_scaled {mode : RoundMode} {x r : Int} {unit c scaled : Nat} (hc : 0 < c) (hpos : 0 < scaled)
    (hunit : unit * c = scaled ∨ (unit = 1 ∧ scaled ∣ c)) (hr : RoundsTo mode x unit r) :
    ∃ k : Int, RoundsTo mode (x * c) scaled k ∧ r * unit * c = k * scaled := by
  rcases hunit with rfl | ⟨rfl, d, rfl⟩
  · exact ⟨r, hr.of_sameHalfUnits (.scale x unit hc), by push_cast; ring⟩
  · have hexact : r = x := hr.unique one_pos (by simpa using roundsTo_exact mode x one_pos)
    have hscaled : x * (scaled * d : Nat) = x * d * scaled := by push_cast; ring
    refine ⟨x * d, ?_, ?_⟩
    · rw [hscaled]
      exact roundsTo_exact mode (x * d) hpos
    · rw [hexact, Nat.cast_one, mul_one, hscaled]

/-- Round Float on the normalized magnitude rounds the integer to 53 bits. -/
theorem roundFloat_of_roundsTo {mode : RoundMode} {n r : Int} {v : BitVec 64} {j : Nat} (hlog : n.natAbs.log2 + j = 63)
    (hv : v.toNat = n.natAbs * 2 ^ j) (hr : RoundsTo mode n (doubleUnit n) r) :
    r * doubleUnit n * (2 ^ j : Nat) =
        applySign (decide (n < 0)) (roundFloatUnits mode (decide (n < 0)) v * 2 ^ 11) ∧
      roundFloatInc mode (decide (n < 0)) v = grew n (doubleUnit n) r ∧
      roundFloatDiscards v = inexact n (doubleUnit n) r := by
  have hunit : doubleUnit n * 2 ^ j = 2 ^ 11 ∨ (doubleUnit n = 1 ∧ 2 ^ 11 ∣ 2 ^ j) := by
    unfold doubleUnit
    by_cases hwide : 52 ≤ n.natAbs.log2
    · refine .inl ?_
      rw [← pow_add]
      congr 1
      omega
    · refine .inr ⟨?_, pow_dvd_pow 2 (by omega)⟩
      rw [Nat.sub_eq_zero_of_le (by omega), pow_zero]
  have hn : n * (2 ^ j : Nat) = applySign (decide (n < 0)) v.toNat := by
    rw [hv, applySign_mul, applySign_natAbs]
  obtain ⟨k, hround, hvalue⟩ := hr.exists_scaled (Nat.two_pow_pos j) (Nat.two_pow_pos 11) hunit
  rw [hn] at hround
  have hunits := hround.unique (Nat.two_pow_pos 11) (roundFloatUnits_roundsTo mode (decide (n < 0)) v)
  rw [hunits, ← applySign_mul] at hvalue
  obtain ⟨hgrew, hinexact⟩ := grew_inexact_of_scaled (sign := decide (n < 0)) (d := 1) (Nat.two_pow_pos j) one_pos
    (hv.symm.trans (mul_one _).symm) (hvalue.trans (by rw [mul_one]))
  rw [applySign_natAbs] at hgrew hinexact
  exact ⟨hvalue, (roundFloatInc_eq _ _ v).trans hgrew.symm, (roundFloatDiscards_eq_units _ _ v).trans hinexact.symm⟩

/-! ### What the main path leaves -/

/-- The main path, in the parts of Round Float. -/
theorem fcfidMain_eq (b : Dword) (f : Fpscr) {sign : Bool} {normalized : Int × BitVec 64}
    (hsign : b.getMsbD 0 = sign)
    (hnorm : normalizeFrac 64 63 (if b.getMsbD 0 then ~~~b + 1#64 else b) = normalized) :
    fcfidMain b f =
      { frt := some (packFloat f.mode sign normalized.2 normalized.1)
        fpscr := ((f.setXx (roundFloatDiscards normalized.2)).setFrFi (roundFloatInc f.mode sign normalized.2)
          (roundFloatDiscards normalized.2)).setFprf (.normal sign)
        draws := 0
        raised := [] } := by
  subst hsign hnorm
  rfl

/-- A non-zero integer: its rounded value, with FR, FI, XX and FPRF. -/
theorem fcfidMain_of_roundsTo {b : Dword} {f : Fpscr} {r : Int} (h0 : b.toInt ≠ 0)
    (hr : RoundsTo f.mode b.toInt (doubleUnit b.toInt) r) :
    ∃ c, fcfidMain b f =
        { frt := some c
          fpscr := (f.afterRounding b.toInt (doubleUnit b.toInt) r).setFprf (.normal (decide (b.toInt < 0)))
          draws := 0
          raised := [] } ∧
      isFinite c = true ∧ dValue c = r * doubleUnit b.toInt * dOne := by
  have hmag := toNat_magnitude b
  obtain ⟨j, hlog, hexp, hfrac, hlead⟩ := exists_normalized_magnitude (hmag.trans_ne (Int.natAbs_ne_zero.mpr h0))
  have hmain := fcfidMain_eq b f (BitVec.msb_eq_toInt (x := b)) rfl
  rw [hmag] at hlog hfrac
  generalize normalizeFrac 64 63 (if b.getMsbD 0 then ~~~b + 1#64 else b) = normalized at hexp hfrac hlead hmain
  obtain ⟨hvalue, hinc, hdiscards⟩ := roundFloat_of_roundsTo hlog hfrac hr
  have hsig := isSignificand_roundFloatUnits f.mode (decide (b.toInt < 0)) hlead (1085 - j)
  have hfinite : (1085 - j) * 2 ^ 52 + roundFloatUnits f.mode (decide (b.toInt < 0)) normalized.2 < infMagnitude := by
    obtain ⟨hle, -⟩ := hsig
    unfold infMagnitude
    omega
  have hpack := packFloat_eq f.mode (decide (b.toInt < 0)) hlead (exp := normalized.1) (q := 1085 - j) (by omega)
  refine ⟨packFloat f.mode (decide (b.toInt < 0)) normalized.2 normalized.1, ?_, ?_, ?_⟩
  · rw [hmain, hinc, hdiscards]
    rfl
  · rw [hpack]
    exact isFinite_packed _ hfinite
  · have hj0 : ((2 ^ j : Nat) : Int) ≠ 0 := by exact_mod_cast (Nat.two_pow_pos j).ne'
    have hscale : 2 ^ (1085 - j) * 2 ^ j = 2 ^ 11 * dOne := by
      rw [dOne, ← pow_add, ← pow_add]
      congr 1
      omega
    rw [hpack, dValue_packed _ hsig (hfinite.trans (by decide)), ← mul_left_inj' hj0, ← applySign_mul, mul_assoc,
      hscale, ← mul_assoc, applySign_mul, ← hvalue, mul_right_comm]

/-! ### The ends -/

theorem Fprf.normal_decide (n : Int) : Fprf.normal (decide (n < 0)) = if n < 0 then .negNormal else .posNormal := by
  simp only [Fprf.normal, decide_eq_true_eq]

theorem exec_fcfid (frt frb : FReg) (s : State) :
    exec (.fcfid frt frb) s = completeFp s frt (fcfidResult (s.readF frb) s.fpscr) := rfl

/-- `fcfid` sets no bit that has an enable (43_fcfid.md R220). -/
theorem fcfidResult_raised (b : Dword) (f : Fpscr) : (fcfidResult b f).raised = [] := by
  unfold fcfidResult
  split_ifs <;> rfl

/-- Settles O45: the normalized magnitude stands to units of its bit 52 as the integer does to its own units, and XX has
no enable. -/
theorem fcfidRoundsTheInteger : Obligations.FcfidRoundsTheInteger := by
  intro frt frb s r hadv n unit hn hr
  have hu := fcfidResult_updates (s.readF frb) (f := s.fpscr)
  have hmain : fcfidResult (s.readF frb) s.fpscr = fcfidMain (s.readF frb) s.fpscr :=
    if_neg fun h => hn (congrArg BitVec.toInt h)
  obtain ⟨c, hresult, hfinite, hvalue⟩ := fcfidMain_of_roundsTo hn hr
  rw [exec_fcfid]
  rw [hmain, hresult] at hu ⊢
  obtain ⟨t, hexec, hread, hfpscr, hrest⟩ := completeFp_completes frt hadv hu rfl (by simp)
  refine ⟨t, hexec, hread ▸ hfinite, hread ▸ hvalue, ?_, hrest⟩
  rw [hfpscr, Fprf.normal_decide]
  rfl

/-- Settles O44: the Zero Operand block sets no bit that has an enable. -/
theorem fcfidOfZero : Obligations.FcfidOfZero := by
  intro frt frb s hadv hzero
  have hu := fcfidResult_updates (s.readF frb) (f := s.fpscr)
  have hresult : fcfidResult (s.readF frb) s.fpscr = fcfidZero s.fpscr := if_pos hzero
  rw [exec_fcfid]
  rw [hresult] at hu ⊢
  exact completeFp_completes frt hadv hu rfl (by simp [fcfidZero])

/-- Settles O46: no bit that has an enable is set on any path. -/
theorem fcfidAlwaysCompletes : Obligations.FcfidAlwaysCompletes := fun frt frb s hadv =>
  ⟨_, completeFp_eq_next.mpr ⟨hadv, by simp [fcfidResult_raised], rfl⟩⟩

end Sys2Proof.Machine
end

section
/-! PROOFS. Steps and exceptions (60_exceptions.md R252, R256): a step is the decoded instruction and nothing else; an
instruction whose enables are 0 does not stop for an exception. -/

namespace Sys2Proof.Machine

/-! ### A step and its instruction -/

theorem fetch_of_inProgram {s : State} (haligned : s.pc.toNat % 4 = 0) (hin : s.inProgram = true) :
    s.fetch = .next (s.mem.readWord s.pc.toNat) := by
  obtain ⟨-, hroom⟩ := Bool.and_eq_true_iff.mp hin
  have hlast : s.pc.toNat + 4 ≤ s.program.base + s.program.size := of_decide_eq_true hroom
  exact fetch_eq_next.mpr ⟨haligned, decide_eq_false (by omega), hin, rfl⟩

theorem fetch_ne_enabledException {s t : State} {b : FpBit} : s.fetch ≠ .fault (.fpEnabledException b t) := by
  unfold State.fetch
  split_ifs <;> simp

theorem step_of_decode_instr {s : State} {w : Word} {i : Instr} (hfetch : s.fetch = .next w)
    (h : decodeWord s.params.hasFp64Int w = .instr i) : step s = exec i s := by
  simp [step, hfetch, State.decode, h]

/-- Settles O7: fetch finds the word, decode the instruction, and its outcome is the step's. -/
theorem stepRunsTheDecodedInstruction : Obligations.StepRunsTheDecodedInstruction := fun _ _ haligned hin h =>
  step_of_decode_instr (fetch_of_inProgram haligned hin) h

/-- Neither fetch nor decode stops with an enabled exception (60_exceptions.md R253). -/
theorem step_eq_enabledException {s t : State} {b : FpBit} (h : step s = .fault (.fpEnabledException b t)) :
    ∃ i, exec i s = .fault (.fpEnabledException b t) := by
  cases hfetch : s.fetch with
  | next w =>
    cases hdecode : decodeWord s.params.hasFp64Int w with
    | instr i => exact ⟨i, (step_of_decode_instr hfetch hdecode).symm.trans h⟩
    | refused why => cases (step_of_decode_refused hfetch hdecode).symm.trans h
  | fault r =>
    cases (step_of_fetch_fault hfetch).symm.trans h
    exact absurd hfetch fetch_ne_enabledException
  | refused r => simp [step, hfetch] at h

/-! ### Enables that are 0 -/

theorem State.enablesOff.enables {s : State} (h : s.enablesOff) (b : FpBit) : s.fpscr.enables b = false := by
  obtain ⟨hve, hoe, hue⟩ := h
  cases b <;> assumption

theorem State.enablesOff.of_updates {s t : State} {may : List StatusField} (hs : s.enablesOff)
    (h : s.fpscr.Updates may t.fpscr) : t.enablesOff := by
  obtain ⟨-, hve, hoe, hue⟩ := h.control
  rwa [State.enablesOff, hve, hoe, hue]

/-- An instruction that makes its writes and can advance completes when the enables are 0. -/
theorem Writes.exec_eq_next_of_enablesOff {s w : State} {i : Instr} {raised : List FpBit} (hw : Writes s i w raised)
    (hexec : exec i s = sequential s (raiseOrAdvance w raised)) (hadv : s.canAdvance = true) (hs : s.enablesOff) :
    exec i s = .next w.advance := by
  rw [hexec, sequential_of_canAdvance hadv]
  exact raiseOrAdvance_eq_next.mpr ⟨fun b _ => (hs.of_updates hw.updates).enables b, rfl⟩

/-- Settles O56: a stop needs an enable that is 1, and no instruction writes an enable. -/
theorem disabledExceptionsNeverStop : Obligations.DisabledExceptionsNeverStop := by
  intro s hs
  refine ⟨fun b t hstop => ?_, fun t hnext => ?_⟩
  · obtain ⟨i, hexec⟩ := step_eq_enabledException hstop
    obtain ⟨raised, hw, -, -, hon⟩ := exec_eq_enabledException hexec
    exact absurd hon (by simp [(hs.of_updates hw.updates).enables b])
  · obtain ⟨w, i, -, -, hexec⟩ := step_eq_next hnext
    exact hs.of_updates (exec_updates (.inl hexec))

/-- Settles O57: each of the nine makes its writes, and with the enables 0 nothing keeps it from advancing. -/
theorem disabledFloatingPointCompletes : Obligations.DisabledFloatingPointCompletes := by
  intro s a b c n hadv hs
  have hdone {i : Instr} {w : State} {raised : List FpBit} (hw : Writes s i w raised)
      (hexec : exec i s = sequential s (raiseOrAdvance w raised)) : Completes (exec i s) :=
    ⟨_, hw.exec_eq_next_of_enablesOff hexec hadv hs⟩
  exact ⟨hdone (.frsp a b rfl) rfl, hdone (.fcti .word false a b rfl) rfl, hdone (.fcti .word true a b rfl) rfl,
    hdone (.fcti .doubleword false a b rfl) rfl, hdone (.fcti .doubleword true a b rfl) rfl,
    hdone (.fcfid a b rfl) rfl, hdone (.fmr a b) rfl, hdone (.fsub a b c rfl) rfl, hdone (.fcmpu n b c) rfl⟩

end Sys2Proof.Machine
end

section
/-! PROOFS. What a stop for an enabled exception holds (60_exceptions.md R252, R257): the bit it names is set, and the
state is the one the instruction's writes left. -/

namespace Sys2Proof.Machine

/-! ### The bit a stop names is set -/

/-- An exception bit of the FPSCR (60_exceptions.md R250). -/
def Fpscr.bit (f : Fpscr) : FpBit → Bool
  | .vxsnan => f.vxsnan
  | .vxcvi => f.vxcvi
  | .ox => f.ox
  | .ux => f.ux

/-- Every bit the result has executed a set of is 1 in the FPSCR it leaves. -/
def FpResult.RaisesSetBits (r : FpResult) : Prop := ∀ bit ∈ r.raised, r.fpscr.bit bit = true

theorem FpResult.RaisesSetBits.of_nil {r : FpResult} (h : r.raised = []) : r.RaisesSetBits := by
  simp [RaisesSetBits, h]

theorem FpResult.RaisesSetBits.of_singleton {r : FpResult} {bit : FpBit} (h : r.raised = [bit])
    (hset : r.fpscr.bit bit = true) : r.RaisesSetBits := by
  simpa [RaisesSetBits, h] using hset

section
variable (b : Dword) (f : Fpscr) (n : Nat)

theorem frspDisabledUnderflow_raisesSetBits : (frspDisabledUnderflow b f).RaisesSetBits := by
  simp +contextual [FpResult.RaisesSetBits, frspDisabledUnderflow, Fpscr.bit]

theorem frspDisabledOverflow_raisesSetBits (p : Params) : (frspDisabledOverflow p b f n).RaisesSetBits :=
  .of_singleton rfl (by simp [frspDisabledOverflow, Fpscr.bit])

theorem frspEnabledOverflowTail_raisesSetBits (sign : Bool) (r : Rounded) :
    (frspEnabledOverflowTail sign r f).RaisesSetBits :=
  .of_singleton rfl (by simp [frspEnabledOverflowTail, Fpscr.bit])

theorem frspNormal_raisesSetBits (p : Params) : (frspNormal p b f n).RaisesSetBits := by
  simp only [frspNormal]
  split_ifs
  · exact frspEnabledOverflowTail_raisesSetBits _ _ _
  · exact frspDisabledOverflow_raisesSetBits _ _ _ _
  · exact .of_nil rfl

theorem frspSNaN_raisesSetBits : (frspSNaN b f).RaisesSetBits :=
  .of_singleton rfl (by cases hve : f.ve <;> simp [frspSNaN, Fpscr.bit, hve])

theorem frspResult_raisesSetBits (p : Params) : (frspResult p b f n).RaisesSetBits := by
  unfold frspResult
  split_ifs
  · exact .of_singleton rfl (by simp [frspEnabledUnderflow, Fpscr.bit])
  · exact frspDisabledUnderflow_raisesSetBits b f
  · exact frspEnabledOverflowTail_raisesSetBits _ _ _
  · exact frspDisabledOverflow_raisesSetBits b f n p
  · exact frspNormal_raisesSetBits b f n p
  · exact .of_nil rfl
  · exact .of_nil rfl
  · exact .of_nil rfl
  · exact frspSNaN_raisesSetBits b f

theorem fctiInvalid_raisesSetBits (tgt : IntTarget) (i : Dword) (snan : Bool) :
    (fctiInvalid tgt i snan f n).RaisesSetBits := by
  cases snan <;> cases hve : f.ve <;> simp [FpResult.RaisesSetBits, fctiInvalid, Fpscr.bit, hve]

theorem fctiResult_raisesSetBits (tgt : IntTarget) (mode : RoundMode) :
    (fctiResult tgt mode b f n).RaisesSetBits := by
  rcases fctiResult_cases tgt b n mode with ⟨i, snan, hinvalid⟩ | hmain
  · exact hinvalid f ▸ fctiInvalid_raisesSetBits f n tgt i snan
  · rw [hmain]
    simp only [fctiMain]
    split_ifs
    · exact fctiInvalid_raisesSetBits _ n tgt _ _
    · exact .of_nil rfl

theorem fsubResult_raisesSetBits (a : Dword) : (fsubResult a b f n).RaisesSetBits := by
  intro bit hbit
  simp only [fsubResult, List.mem_append, List.mem_ite_nil_right, List.mem_singleton] at hbit
  rcases hbit with (⟨hset, rfl⟩ | ⟨hset, rfl⟩) | ⟨hset, rfl⟩ <;> simp [fsubResult, Fpscr.bit, hset]

end

namespace Writes

variable {s w : State} {i : Instr} {raised : List FpBit} {b : FpBit}

theorem bit_eq_true (h : Writes s i w raised) (hb : b ∈ raised) : w.fpscr.bit b = true := by
  cases h with
  | frsp frt frb hr =>
    subst hr
    exact frspResult_raisesSetBits _ _ _ _ b hb
  | fcti tgt z frt frb hr =>
    subst hr
    exact fctiResult_raisesSetBits _ _ _ _ _ b hb
  | fcfid frt frb hr => simp [hr, fcfidResult_raised] at hb
  | fsub frt fra frb hr =>
    subst hr
    exact fsubResult_raisesSetBits _ _ _ _ b hb
  | fcmpu bf fra frb =>
    obtain ⟨hsnan, hbit⟩ := List.mem_ite_nil_right.mp hb
    simp [List.mem_singleton.mp hbit, State.writeCompare, Fpscr.bit, hsnan]
  | fmr | add | stfd | lwz | notTaken => cases hb

/-- Only an instruction that writes the FPSCR raises a bit. -/
theorem statusWrites_ne_nil (h : Writes s i w raised) (hb : b ∈ raised) : statusWrites i ≠ [] := by
  cases h with
  | fcti tgt z frt frb =>
    rw [statusWrites_fcti]
    exact List.cons_ne_nil _ _
  | frsp | fcfid | fsub | fcmpu => exact List.cons_ne_nil _ _
  | fmr | add | stfd | lwz | notTaken => cases hb

end Writes

/-! ### The conversions to integer -/

section
variable {frt fra frb : FReg} {s t : State} {b : FpBit}

/-- A conversion to integer stops for an invalid operand with VE = 1 only (42_fcti.md R199). -/
theorem exec_fcti_eq_enabledException {tgt : IntTarget} {z : Bool}
    (h : exec (tgt.instr z frt frb) s = .fault (.fpEnabledException b t)) :
    ConvertsInvalid tgt (convertMode z s.fpscr) (s.readF frb) ∧ s.fpscr.ve = true := by
  obtain ⟨-, -, hadv, -⟩ := exec_eq_enabledException h
  have hinvalid : ConvertsInvalid tgt (convertMode z s.fpscr) (s.readF frb) := by
    by_contra hvalid
    obtain ⟨hfinite, hin⟩ := not_or.mp hvalid
    obtain ⟨r, hr⟩ := exists_roundsTo (convertMode z s.fpscr) (dValue (s.readF frb)) dOne_pos
    obtain ⟨hmin, hmax⟩ := not_or.mp fun hout => hin ⟨r, hr, hout⟩
    obtain ⟨u, hnext, -⟩ := convertToIntegerRounds tgt z frt frb s r hadv (eq_true_of_ne_false hfinite) hr
      (not_lt.mp hmin) (not_lt.mp hmax)
    cases hnext.symm.trans h
  refine ⟨hinvalid, eq_true_of_ne_false fun hve => ?_⟩
  obtain ⟨u, hnext, -⟩ := exec_fcti_invalid_completes frt hadv hinvalid hve
  cases hnext.symm.trans h

/-- A stopped conversion to integer has written neither FRT nor FPRF (42_fcti.md R200). -/
theorem withheld_of_exec_fcti {tgt : IntTarget} {z : Bool}
    (h : exec (tgt.instr z frt frb) s = .fault (.fpEnabledException b t)) :
    (∀ j, t.readF j = s.readF j) ∧ t.fpscr.fprf = s.fpscr.fprf ∧ t.fpscr.fr = false ∧ t.fpscr.fi = false := by
  obtain ⟨-, -, hadv, -⟩ := exec_eq_enabledException h
  obtain ⟨hinvalid, hve⟩ := exec_fcti_eq_enabledException h
  obtain ⟨u, hstop, hread, hfpscr, -⟩ := exec_fcti_invalid_stops frt hadv hinvalid hve
  cases hstop.symm.trans h
  rw [hfpscr]
  exact ⟨hread, rfl, rfl, rfl⟩

/-! ### frsp -/

/-- The operand and the enable that each stop of `frsp` comes from (41_frsp.md R144, R146, R150). -/
theorem exec_frsp_eq_enabledException (h : exec (.frsp frt frb) s = .fault (.fpEnabledException b t)) :
    let x := dValue (s.readF frb)
    (b = .vxsnan ∧ isSNaN (s.readF frb) = true ∧ s.fpscr.ve = true) ∨
      (b = .ux ∧ s.fpscr.ue = true ∧ isFinite (s.readF frb) = true ∧ x ≠ 0 ∧ x.natAbs < 2 ^ 948) ∨
      (b = .ox ∧ s.fpscr.oe = true ∧ isFinite (s.readF frb) = true ∧
        ∃ r, RoundsTo s.fpscr.mode x (singleUnit x) r ∧ 2 ^ 1202 ≤ (r * singleUnit x).natAbs) := by
  intro x
  obtain ⟨-, -, hadv, -⟩ := exec_eq_enabledException h
  have hnot {u} (hnext : exec (.frsp frt frb) s = .next u) : False := by cases hnext.symm.trans h
  rcases operand_cases (s.readF frb) with hzero | hinf | ⟨hnan, hquiet⟩ | hsnan | ⟨hfinite, hne⟩
  · obtain ⟨u, hnext, -⟩ := frspOfZero frt frb s hadv hzero
    exact (hnot hnext).elim
  · obtain ⟨u, hnext, -⟩ := frspOfInfinity frt frb s hadv hinf
    exact (hnot hnext).elim
  · obtain ⟨u, hnext, -⟩ := frspOfQuietNaN frt frb s hadv hnan hquiet
    exact (hnot hnext).elim
  · obtain ⟨hdisabled, henabled⟩ := frspOfSignallingNaN frt frb s hadv hsnan
    cases hve : s.fpscr.ve with
    | false =>
      obtain ⟨u, hnext, -⟩ := hdisabled hve
      exact (hnot hnext).elim
    | true =>
      obtain ⟨u, hstop, -⟩ := henabled hve
      cases hstop.symm.trans h
      exact .inl ⟨rfl, hsnan, rfl⟩
  · obtain ⟨r, hr⟩ := exists_roundsTo s.fpscr.mode x (Nat.two_pow_pos (max 925 (x.natAbs.log2 - 23)))
    by_cases hrange : (r * (2 ^ max 925 (x.natAbs.log2 - 23) : Nat)).natAbs < 2 ^ 1202
    · cases htiny : s.fpscr.ue && decide (x.natAbs < 2 ^ 948) with
      | false =>
        obtain ⟨u, hnext, -⟩ := frspRoundsCorrectly frt frb s r hadv hfinite hne htiny hr hrange
        exact (hnot hnext).elim
      | true =>
        obtain ⟨hue, hsmall⟩ := Bool.and_eq_true_iff.mp htiny
        obtain ⟨q, hq⟩ := exists_roundsTo s.fpscr.mode x (singleUnit_pos x)
        obtain ⟨u, hstop, -⟩ :=
          frspEnabledUnderflowScalesUp frt frb s q hadv hfinite hue hne (of_decide_eq_true hsmall) hq
        cases hstop.symm.trans h
        exact .inr (.inl ⟨rfl, hue, hfinite, hne, of_decide_eq_true hsmall⟩)
    · have hover := not_lt.mp hrange
      have hunit := singleUnit_of_rounds_up hr hover
      rw [hunit] at hr hover
      cases hoe : s.fpscr.oe with
      | false =>
        obtain ⟨u, hnext, -⟩ := frspDisabledOverflowTable frt frb s r hadv hfinite hoe (.inr ⟨hr, hover⟩)
        exact (hnot hnext).elim
      | true =>
        obtain ⟨u, hstop, -⟩ := frspEnabledOverflowScalesDown frt frb s r hadv hfinite hoe hr hover
        cases hstop.symm.trans h
        exact .inr (.inr ⟨rfl, rfl, hfinite, r, hr, hover⟩)

/-- `frsp` that stops for VXSNAN has written neither FRT nor FPRF (41_frsp.md R150). -/
theorem withheld_of_exec_frsp (h : exec (.frsp frt frb) s = .fault (.fpEnabledException .vxsnan t)) :
    (∀ j, t.readF j = s.readF j) ∧ t.fpscr.fprf = s.fpscr.fprf ∧ t.fpscr.fr = false ∧ t.fpscr.fi = false := by
  obtain ⟨-, -, hadv, -⟩ := exec_eq_enabledException h
  obtain ⟨-, hsnan, hve⟩ | ⟨hb, -⟩ | ⟨hb, -⟩ := exec_frsp_eq_enabledException h
  · obtain ⟨-, henabled⟩ := frspOfSignallingNaN frt frb s hadv hsnan
    obtain ⟨u, hstop, hread, hfpscr, hframe, -⟩ := henabled hve
    cases hstop.symm.trans h
    rw [hfpscr]
    refine ⟨fun j => ?_, rfl, rfl, rfl⟩
    by_cases hj : j = frt
    · rw [hj, hread]
    · exact hframe.fpr j hj
  · cases hb
  · cases hb

/-- `frsp` that stops for another bit has delivered its operand rounded to 24 bits, scaled by the bit
(41_frsp.md R144, R146). -/
theorem rounded_of_exec_frsp {r : Int} (h : exec (.frsp frt frb) s = .fault (.fpEnabledException b t))
    (hb : b ≠ .vxsnan) :
    let x := dValue (s.readF frb)
    let unit := singleUnit x
    RoundsTo s.fpscr.mode x unit r →
    (b = .ux → dValue (t.readF frt) = r * unit * 2 ^ 192) ∧ (b = .ox → dValue (t.readF frt) * 2 ^ 192 = r * unit) ∧
      t.fpscr.fprf = .normal (dSign (s.readF frb)) ∧ t.fpscr.fr = grew x unit r ∧ t.fpscr.fi = inexact x unit r ∧
      t.fpscr.xx = (s.fpscr.xx || inexact x unit r) := by
  intro x unit hr
  obtain ⟨-, -, hadv, -⟩ := exec_eq_enabledException h
  obtain ⟨hsnan, -⟩ | ⟨rfl, hue, hfinite, hne, hsmall⟩ | ⟨rfl, hoe, hfinite, q, hq, hover⟩ :=
    exec_frsp_eq_enabledException h
  · exact absurd hsnan hb
  · obtain ⟨u, hstop, hvalue, hfpscr, -⟩ := frspEnabledUnderflowScalesUp frt frb s r hadv hfinite hue hne hsmall hr
    cases hstop.symm.trans h
    rw [hfpscr]
    exact ⟨fun _ => hvalue, nofun, rfl, rfl, rfl, rfl⟩
  · cases hq.unique (singleUnit_pos x) hr
    obtain ⟨u, hstop, hvalue, hfpscr, -⟩ := frspEnabledOverflowScalesDown frt frb s r hadv hfinite hoe hr hover
    cases hstop.symm.trans h
    rw [hfpscr]
    exact ⟨nofun, fun _ => hvalue, rfl, rfl, rfl, rfl⟩

/-! ### fsub and fcmpu -/

theorem enablesOff_withEnables (s : State) : (s.withEnables false false false).enablesOff := ⟨rfl, rfl, rfl⟩

/-- The state a stop holds is the one the writes left. -/
theorem eq_of_exec_eq_enabledException {i : Instr} {w : State} {raised : List FpBit}
    (hexec : exec i s = sequential s (raiseOrAdvance w raised))
    (h : exec i s = .fault (.fpEnabledException b t)) : t = w := by
  obtain ⟨-, hend⟩ := sequential_eq_fault.mp (hexec.symm.trans h)
  obtain ⟨c, -, -, hstop⟩ := raiseOrAdvance_eq_fault hend
  cases hstop
  rfl

/-- `fsub` does not read the enables, so it has left what it leaves when they are 0 (40 R107 [log 24]). -/
theorem exec_fsub_withEnables (h : exec (.fsub frt fra frb) s = .fault (.fpEnabledException b t)) :
    ∃ u, exec (.fsub frt fra frb) (s.withEnables false false false) = .next u ∧
      t = (u.withEnables s.fpscr.ve s.fpscr.oe s.fpscr.ue).setPc s.pc := by
  obtain ⟨-, -, hadv, -⟩ := exec_eq_enabledException h
  refine ⟨_, (Writes.fsub frt fra frb rfl).exec_eq_next_of_enablesOff rfl hadv (enablesOff_withEnables s), ?_⟩
  exact eq_of_exec_eq_enabledException rfl h

/-- `fcmpu` likewise (40 R106 [log 24]). -/
theorem exec_fcmpu_withEnables {n : CrIdx} (h : exec (.fcmpu n fra frb) s = .fault (.fpEnabledException b t)) :
    ∃ u, exec (.fcmpu n fra frb) (s.withEnables false false false) = .next u ∧
      t = (u.withEnables s.fpscr.ve s.fpscr.oe s.fpscr.ue).setPc s.pc := by
  obtain ⟨-, -, hadv, -⟩ := exec_eq_enabledException h
  refine ⟨_, (Writes.fcmpu n fra frb).exec_eq_next_of_enablesOff rfl hadv (enablesOff_withEnables s), ?_⟩
  exact eq_of_exec_eq_enabledException rfl h

end

/-- Settles O58: the state is the one the writes left, and no instruction that raises a bit writes a general register,
memory or an enable; what the writes were is known for each instruction that can stop. -/
theorem enabledExceptionHoldsTheWrites : Obligations.EnabledExceptionHoldsTheWrites := by
  intro i s t b h
  obtain ⟨raised, hw, -, hb, hon⟩ := exec_eq_enabledException h
  have hstatus := hw.statusWrites_ne_nil hb
  refine ⟨hw.pc_eq, (hw.updates.enables b).symm.trans hon, ?_, fun j => ?_, fun a => ?_, hw.sameLaunch,
    hw.updates.control, ?_, ?_, ?_⟩
  · have hset := hw.bit_eq_true hb
    cases b <;> exact hset
  · exact hw.readX_eq (fun d a hi => hstatus (hi ▸ rfl)) fun x y hi => hstatus (hi ▸ rfl)
  · rw [hw.mem_eq fun f d r hi => hstatus (hi ▸ rfl)]
  · rintro (⟨tgt, z, frt, frb, rfl⟩ | ⟨⟨frt, frb, rfl⟩, rfl⟩)
    · exact withheld_of_exec_fcti h
    · exact withheld_of_exec_frsp h
  · rintro frt frb r rfl hne
    exact rounded_of_exec_frsp h hne
  · rintro (⟨frt, fra, frb, rfl⟩ | ⟨n, fra, frb, rfl⟩)
    · exact exec_fsub_withEnables h
    · exact exec_fcmpu_withEnables h

end Sys2Proof.Machine
end

section
/-! PROOFS. The launch of a one-word program and the end of a run (70_reset_and_hazards.md R281, R285): the placed word
is the one fetched, and a `pc` whose word is not wholly inside the program ends the run or is refused. -/

namespace Sys2Proof.Machine

/-! ### The launch of a one-word program -/

/-- Clearing the two low bits of an address leaves a multiple of 4. -/
theorem toNat_and_not_three_mod_four (v : Dword) : (v &&& ~~~3#64).toNat % 4 = 0 := by
  have hmask : (~~~3#64).toNat % 2 ^ 2 = 0 := by decide
  have hmod := Nat.and_mod_two_pow (a := v.toNat) (b := (~~~3#64).toNat) (n := 2)
  rwa [← BitVec.toNat_and, hmask, Nat.and_zero] at hmod

theorem State.pcFits_placeWord (s : State) (w : Word) : (s.placeWord w).pcFits := by
  refine ⟨toNat_and_not_three_mod_four _, ?_⟩
  calc (s.params.xlen.trunc s.pc &&& ~~~3#64).toNat
      ≤ (s.params.xlen.trunc s.pc).toNat := by
        rw [BitVec.toNat_and]
        exact Nat.and_le_left
    _ < 2 ^ s.params.xlen.bits := xlen_trunc_lt _ _

theorem State.inProgram_placeWord (s : State) (w : Word) : (s.placeWord w).inProgram = true := by
  simp [State.inProgram, State.placeWord]

theorem State.readWord_placeWord {s : State} (h : s.mem.wf = true) (w : Word) :
    (s.placeWord w).mem.readWord (s.placeWord w).pc.toNat = w :=
  Memory.readWord_writeBytes _ _ _ h

theorem fetch_placeWord {s : State} (h : s.mem.wf = true) (w : Word) : (s.placeWord w).fetch = .next w := by
  obtain ⟨haligned, -⟩ := s.pcFits_placeWord w
  rw [fetch_of_inProgram haligned (s.inProgram_placeWord w), State.readWord_placeWord h]

/-- The placing writes memory, `pc` and the program's range only. -/
theorem State.Inv.placeWord {s : State} (h : s.Inv) (w : Word) : (s.placeWord w).Inv where
  memoryCanonical := Memory.wf_writeBytes _ _ _ h.memoryCanonical
  registersFit := h.registersFit
  pcFits := s.pcFits_placeWord w
  fprfCanonical := h.fprfCanonical

/-- Settles O8: the placed program is the four bytes at an aligned `pc`, so the fetch reads back the word written. -/
theorem placedWordIsFetched : Obligations.PlacedWordIsFetched := fun _ w hmem =>
  ⟨fetch_placeWord hmem w, fun hs => hs.placeWord w⟩

/-! ### The end of a run -/

theorem fetch_of_atEnd {s : State} (haligned : s.pc.toNat % 4 = 0) (hend : s.atEnd = true) :
    s.fetch = .fault .endOfRun := by
  simp [State.fetch, haligned, hend]

theorem fetch_of_outsideProgram {s : State} (haligned : s.pc.toNat % 4 = 0) (hend : s.atEnd = false)
    (hout : s.inProgram = false) : s.fetch = .refused (.outsideProgram s.pc) := by
  simp [State.fetch, haligned, hend, hout]

theorem step_of_fetch_refused {s : State} {r : Refusal} (h : s.fetch = .refused r) : step s = .refused r := by
  unfold step
  rw [h]

theorem State.inProgram_eq_false {s : State}
    (h : s.pc.toNat < s.program.base ∨ s.program.base + s.program.size < s.pc.toNat + 4) : s.inProgram = false := by
  rw [State.inProgram, Bool.and_eq_false_iff, decide_eq_false_iff_not, decide_eq_false_iff_not]
  exact h.imp Nat.not_le_of_lt Nat.not_le_of_lt

/-- Settles O9: fetch asks for the end of the run before it asks for the program, and the step adds nothing. -/
theorem runEndsOrIsRefusedOutsideTheProgram : Obligations.RunEndsOrIsRefusedOutsideTheProgram := by
  intro s haligned
  constructor
  · intro hend
    exact step_of_fetch_fault (fetch_of_atEnd haligned (decide_eq_true hend))
  · intro hend hout
    have hfetch := fetch_of_outsideProgram haligned (decide_eq_false hend) (State.inProgram_eq_false hout)
    exact step_of_fetch_refused hfetch

end Sys2Proof.Machine
end
